-- ==== Sys2Proof/Word.lean ====
section
/-! DEFINITION. The cells of the bus controller: bytes, logic levels, the eight operating modes, the two debug signals (00_scope R8, 10_state R21, R24). -/

namespace Sys2Proof

/-- "A byte is 8 bits, unsigned, 0 to 255; the document uses no other cell size" (00_scope R8). -/
abbrev Byte := BitVec 8

/-- "A level is 0 (logic low) or 1 (logic high)" (00_scope R8). -/
inductive Level
  | low
  | high
  deriving DecidableEq, Repr, Inhabited

namespace Level

/-- The level as the bit it is written with. -/
def toBit : Level → BitVec 1
  | .low => 0
  | .high => 1

end Level

/-- "an enumerated value {SLEEP, STANDBY_RC, STANDBY_XOSC, FS, TX, RX, RX_DUTY_CYCLE, CAD}" (10_state R21). -/
inductive OperatingMode
  | sleep
  | standbyRc
  | standbyXosc
  | fs
  | tx
  | rx
  | rxDutyCycle
  | cad
  deriving DecidableEq, Repr, Inhabited

namespace OperatingMode

/-- The numbers of 30_encoding R94 (the spec's decision D2: the listing order). -/
def toBits : OperatingMode → BitVec 3
  | .sleep => 0
  | .standbyRc => 1
  | .standbyXosc => 2
  | .fs => 3
  | .tx => 4
  | .rx => 5
  | .rxDutyCycle => 6
  | .cad => 7

/-- "All eight 3-bit values are legal; the register has no reserved value" (10_state R21). -/
def ofCode : Nat → OperatingMode
  | 0 => .sleep
  | 1 => .standbyRc
  | 2 => .standbyXosc
  | 3 => .fs
  | 4 => .tx
  | 5 => .rx
  | 6 => .rxDutyCycle
  | _ => .cad

/-- The mode a 3-bit value names. -/
def ofBits (b : BitVec 3) : OperatingMode := ofCode b.toNat

end OperatingMode

/-- The two debug-mirroring lines: "transmitting" and "receiving" (10_state R24). -/
inductive DbgSignal
  | tx
  | rx
  deriving DecidableEq, Repr, Inhabited

/-- The line other than this one. -/
def DbgSignal.other : DbgSignal → DbgSignal
  | .tx => .rx
  | .rx => .tx

end Sys2Proof
end

