-- ==== Sys2Proof/Config.lean ====
section
/-! DEFINITION. The 21 implementation parameters of 00_scope R7 as a record, the values this hardware takes, and the model's free values. -/

namespace Sys2Proof

/-- "The model takes the following parameters as a configuration record" (00_scope R7). No operation changes it. -/
structure Config where
  /-- `DEBUG_EN`: the mode is mirrored onto the debug lines (44_mode_tracker R164). -/
  debugEn : Bool
  /-- `MODE_RESET` (10_state R34). -/
  modeReset : OperatingMode
  /-- `MAX_POLL_ITER`: `none` is `unbounded` (42_ready_handshake R121, R122). -/
  maxPollIter : Option Nat
  /-- `POLL_INTERVAL_US` (42_ready_handshake R120). -/
  pollIntervalUs : Nat
  /-- `CS_SETTLE_CYCLES` (41_bus_line_control R110); no rule depends on it. -/
  csSettleCycles : Nat
  /-- `T_RESET_LOW_MS` (45_startup_sequencer R172). -/
  tResetLowMs : Nat
  /-- `T_RESET_RELEASE_MS` (45_startup_sequencer R172). -/
  tResetReleaseMs : Nat
  /-- `OSC_WAKEUP_MS` (45_startup_sequencer R170). -/
  oscWakeupMs : BitVec 16
  /-- `OSC_SCALE_SHIFT` (30_encoding R87(e)). -/
  oscScaleShift : Nat
  /-- `CAL_ALL` (30_encoding R95). -/
  calAll : Byte
  /-- `OSC_VOLTAGE_CODE` (45_startup_sequencer R171). -/
  oscVoltageCode : Byte
  /-- `OPC_WRITE_REGISTER` (30_encoding R88). -/
  opcWriteRegister : Byte
  /-- `OPC_READ_REGISTER` (30_encoding R88). -/
  opcReadRegister : Byte
  /-- `OPC_WRITE_BUFFER` (30_encoding R88). -/
  opcWriteBuffer : Byte
  /-- `OPC_READ_BUFFER` (30_encoding R88). -/
  opcReadBuffer : Byte
  /-- `OPC_SET_OSC_CTRL` (30_encoding R88). -/
  opcSetOscCtrl : Byte
  /-- `OPC_CALIBRATE` (30_encoding R88). -/
  opcCalibrate : Byte
  /-- `NOP_BYTE` (30_encoding R89). -/
  nopByte : Byte
  /-- `LEN_MAX` (20_memory R57). -/
  lenMax : Nat
  /-- `CHECK_LENGTH` (43_transaction_primitives R139). -/
  checkLength : Bool
  /-- `N_REQUESTERS` (60_exceptions R200). -/
  nRequesters : Nat
  deriving DecidableEq, Repr

namespace Config

/-- The constraints of the "type and constraint" column of 00_scope R7. `LEN_MAX` is also at most what the word's
`LEN` field holds (30_encoding R81). -/
def valid (c : Config) : Bool :=
  decide (10 ≤ c.pollIntervalUs ∧ c.pollIntervalUs ≤ 99 ∧ 1 ≤ c.csSettleCycles ∧
    10 ≤ c.tResetLowMs ∧ 10 ≤ c.tResetReleaseMs ∧ c.lenMax ≤ 65535 ∧ 1 ≤ c.nRequesters ∧
    c.maxPollIter ≠ some 0)

/-- The base contract: no bound on a wait, no length check (60_exceptions R185). -/
def base (c : Config) : Bool := decide (c.maxPollIter = none ∧ c.checkLength = false)

/-! The OPEN parameters of 00_scope R7: constants nobody can evaluate (DESIGN CHOICE, log 1). -/

/-- `POLL_INTERVAL_US` above its least value 10: at most 89 more (00_scope R7: 10 to 99). -/
opaque openPollIntervalAbove10 : Fin 90

/-- `CS_SETTLE_CYCLES` above its least value 1 (00_scope R7). -/
opaque openSettleCyclesAbove1 : Nat

/-- `OSC_VOLTAGE_CODE` (00_scope R7: OPEN). -/
opaque openOscVoltageCode : Byte

/-- `OPC_WRITE_REGISTER` (00_scope R7: OPEN). -/
opaque openOpcWriteRegister : Byte

/-- `OPC_READ_REGISTER` (00_scope R7: OPEN). -/
opaque openOpcReadRegister : Byte

/-- `OPC_WRITE_BUFFER` (00_scope R7: OPEN). -/
opaque openOpcWriteBuffer : Byte

/-- `OPC_READ_BUFFER` (00_scope R7: OPEN). -/
opaque openOpcReadBuffer : Byte

/-- `OPC_SET_OSC_CTRL` (00_scope R7: OPEN). -/
opaque openOpcSetOscCtrl : Byte

/-- `OPC_CALIBRATE` (00_scope R7: OPEN). -/
opaque openOpcCalibrate : Byte

/-- The "value" column of 00_scope R7: the values this hardware takes. -/
def hardware : Config where
  debugEn := false
  modeReset := .standbyRc
  maxPollIter := none
  pollIntervalUs := 10 + openPollIntervalAbove10.val
  csSettleCycles := 1 + openSettleCyclesAbove1
  tResetLowMs := 10
  tResetReleaseMs := 10
  oscWakeupMs := 5
  oscScaleShift := 6
  calAll := 0x7F
  oscVoltageCode := openOscVoltageCode
  opcWriteRegister := openOpcWriteRegister
  opcReadRegister := openOpcReadRegister
  opcWriteBuffer := openOpcWriteBuffer
  opcReadBuffer := openOpcReadBuffer
  opcSetOscCtrl := openOpcSetOscCtrl
  opcCalibrate := openOpcCalibrate
  nopByte := 0x00
  lenMax := 65535
  checkLength := false
  nRequesters := 1

/-! Free values: opaque functions of the count of values drawn so far (`env.drawn`); nothing constrains them. -/

/-- The level the device gives a sample of `BUSY` (10_state R25, R35; 93 U15; DESIGN CHOICE, log 2). -/
opaque freeBusy : Nat → Level

/-- The byte the device returns in an exchange (00_scope R9 `Xfer`; 93 U14, U19; DESIGN CHOICE, log 2). -/
opaque freeRx : Nat → Byte

/-- Which debug line one `SET_MODE` writes first (44_mode_tracker R163, "in either order"; DESIGN CHOICE, log 5). -/
opaque freeDbgFirst : Nat → DbgSignal

/-- Which waiting requester the arbiter grants next (60_exceptions R200, "any order"; DESIGN CHOICE, log 8). -/
opaque freeGrant : Nat → Nat

/-- What `OUT` holds when its contents are unspecified (60_exceptions R194; 93 U12; DEDUCED, log 4). -/
opaque freeOut : Nat → List Byte

/-- What `STATUS_OUT` holds when its contents are unspecified (10_state R34, 60_exceptions R194; 93 U12; DEDUCED, log 4). -/
opaque freeStatusOut : Nat → Byte

end Config

end Sys2Proof
end

