-- ==== Sys2Proof/Machine/MicroOp.lean ====
section
/-! DEFINITION. The vocabulary of micro-operations (30_encoding R96). -/

namespace Sys2Proof.Machine

/-- "Every operation is a finite list of micro-operations" (30_encoding R96). -/
inductive MicroOp
  /-- `WAIT`: one poll of the ready handshake. -/
  | wait
  /-- `SETTLE`: the chip-select settling delay. -/
  | settle
  /-- `CS(l)`: `CS_N <- l`. -/
  | cs (l : Level)
  /-- `TX(b)`: one exchange, the received byte discarded. -/
  | tx (b : Byte)
  /-- `TXS(b)`: one exchange, the received byte to `STATUS_OUT`. -/
  | txs (b : Byte)
  /-- `RX(i)`: one exchange of `NOP_BYTE`, the received byte to `OUT[i]`. -/
  | rx (i : Nat)
  /-- `RST(l)`: `RESET_N <- l`. -/
  | rst (l : Level)
  /-- `DLYMS(n)`: the delay service, at least `n` milliseconds. -/
  | dlyMs (n : Nat)
  /-- `MODEW(m)`: `MODE <- m`. -/
  | modeW (m : OperatingMode)
  /-- `DBGW(m)`: `(DBG_TX, DBG_RX) <- dbg(m)`; skipped when `DEBUG_EN = 0`. -/
  | dbgW (m : OperatingMode)
  deriving DecidableEq, Repr

/-- The micro-operations that exchange a byte on the bus. -/
def MicroOp.isXfer : MicroOp → Bool
  | .tx _ => true
  | .txs _ => true
  | .rx _ => true
  | .wait => false
  | .settle => false
  | .cs _ => false
  | .rst _ => false
  | .dlyMs _ => false
  | .modeW _ => false
  | .dbgW _ => false

end Sys2Proof.Machine
end

