-- ==== Sys2Proof/Machine/Operands.lean ====
section
/-! DEFINITION. Operand assembly (30_encoding R87), the six frame formats (R86), and the pieces micro-programs are made of (R97). -/

namespace Sys2Proof.Machine

/-- The two bytes of a register address, "high byte first" (20_memory R54, 30_encoding R87(a)). -/
def addrBytes (addr : BitVec 16) : List Byte := [addr.extractLsb' 8 8, addr.extractLsb' 0 8]

/-- The wakeup parameter `w = zext_24(OSC_WAKEUP_MS) << OSC_SCALE_SHIFT` (30_encoding R87(e)). -/
def wakeup (cfg : Config) : BitVec 24 := cfg.oscWakeupMs.zeroExtend 24 <<< cfg.oscScaleShift

/-- A 24-bit parameter, high byte first (45_startup_sequencer R171). -/
def bytes24 (w : BitVec 24) : List Byte := [w.extractLsb' 16 8, w.extractLsb' 8 8, w.extractLsb' 0 8]

/-- Exchanges that send the bytes in order and discard what comes back (30_encoding R86). -/
def send (bs : List Byte) : List MicroOp := bs.map .tx

/-- The `len` read-back exchanges `RX(0) .. RX(len-1)` (30_encoding R97). -/
def receive (len : Nat) : List MicroOp := (List.range len).map .rx

/-- The payload bytes a write sends: the first `len`; "`payload` longer than `len` has its tail ignored"
(43_transaction_primitives R131). -/
def sendPayload (payload : List Byte) (len : Nat) : List MicroOp := send (payload.take len)

/-! The six frame formats of 30_encoding R86. -/

/-- `F_CMD_W`. -/
def frameCmdW (opc : Byte) (payload : List Byte) (len : Nat) : List MicroOp :=
  .tx opc :: sendPayload payload len

/-- `F_CMD_R`: the status byte is the byte received while the opcode is sent (the spec's decision D9). -/
def frameCmdR (opc : Byte) (len : Nat) : List MicroOp :=
  .txs opc :: receive len

/-- `F_REG_W`. -/
def frameRegW (cfg : Config) (addr : BitVec 16) (payload : List Byte) (len : Nat) : List MicroOp :=
  .tx cfg.opcWriteRegister :: send (addrBytes addr) ++ sendPayload payload len

/-- `F_REG_R`: one filler exchange before the data. -/
def frameRegR (cfg : Config) (addr : BitVec 16) (len : Nat) : List MicroOp :=
  .tx cfg.opcReadRegister :: send (addrBytes addr) ++ .tx cfg.nopByte :: receive len

/-- `F_BUF_W`. -/
def frameBufW (cfg : Config) (off : Byte) (payload : List Byte) (len : Nat) : List MicroOp :=
  .tx cfg.opcWriteBuffer :: .tx off :: sendPayload payload len

/-- `F_BUF_R`: one filler exchange before the data. -/
def frameBufR (cfg : Config) (off : Byte) (len : Nat) : List MicroOp :=
  .tx cfg.opcReadBuffer :: .tx off :: .tx cfg.nopByte :: receive len

/-- `SEL`: `SETTLE, CS(0), SETTLE` (30_encoding R97, 41_bus_line_control R111). -/
def sel : List MicroOp := [.settle, .cs .low, .settle]

/-- `DESEL`: `SETTLE, CS(1), SETTLE` (30_encoding R97, 41_bus_line_control R112). -/
def desel : List MicroOp := [.settle, .cs .high, .settle]

/-- "ready-handshake → select → bus transfer(s) → deselect → ready-handshake" (43_transaction_primitives R130). -/
def transaction (frame : List MicroOp) : List MicroOp :=
  .wait :: sel ++ frame ++ desel ++ [.wait]

end Sys2Proof.Machine
end

