-- ==== Sys2Proof/Syntax.lean ====
section
/-! DEFINITION. The sixteen operations of 30_encoding R82 and R93 with their operands (R80), and a request as the requester presents it (R81). -/

namespace Sys2Proof

/-- One constructor per row of spec/opcode_table.json. Operands as 30_encoding R80 names them: `opc` a `Command`
opcode, `addr` a `RegisterAddress`, `off` a `BufferOffset`, `len` a byte count, `payload` the bytes supplied with a
write, `cap` the capacity of the requester's receive buffer for a read. -/
inductive Instr
  /-- `SELECT` (41_bus_line_control R111). -/
  | select
  /-- `DESELECT` (41_bus_line_control R112). -/
  | deselect
  /-- `WAIT_READY` (42_ready_handshake R120). -/
  | waitReady
  /-- `ISSUE_CMD opc, payload, len` (43_transaction_primitives R131). -/
  | issueCmd (opc : Byte) (payload : List Byte) (len : Nat)
  /-- `READ_CMD opc, len` (43_transaction_primitives R132). -/
  | readCmd (opc : Byte) (len cap : Nat)
  /-- `WRITE_REGS addr, payload, len` (43_transaction_primitives R133). -/
  | writeRegs (addr : BitVec 16) (payload : List Byte) (len : Nat)
  /-- `READ_REGS addr, len` (43_transaction_primitives R134). -/
  | readRegs (addr : BitVec 16) (len cap : Nat)
  /-- `WRITE_BUF off, payload, len` (43_transaction_primitives R135). -/
  | writeBuf (off : Byte) (payload : List Byte) (len : Nat)
  /-- `READ_BUF off, len` (43_transaction_primitives R136). -/
  | readBuf (off : Byte) (len cap : Nat)
  /-- `SET_MODE mode` (44_mode_tracker R160). -/
  | setMode (mode : OperatingMode)
  /-- `GET_MODE` (44_mode_tracker R161). -/
  | getMode
  /-- `RESET_DEVICE` (45_startup_sequencer R172). -/
  | resetDevice
  /-- `INIT_OSC_CTRL` (45_startup_sequencer R171). -/
  | initOscCtrl
  /-- `GET_OSC_WAKEUP_MS` (45_startup_sequencer R170). -/
  | getOscWakeupMs
  /-- `WRITE_REG addr, v` (43_transaction_primitives R137), a pseudo-operation. -/
  | writeReg (addr : BitVec 16) (v : Byte)
  /-- `READ_REG addr` (43_transaction_primitives R138), a pseudo-operation. -/
  | readReg (addr : BitVec 16)
  deriving DecidableEq, Repr

namespace Instr

/-- The expansion of the two pseudo-operations (30_encoding R93); every other operation is its own. The core
operation is what `SEQ.OPL` latches: the wrappers "delegate to the ranged primitives with length 1". -/
def core : Instr → Instr
  | .select => .select
  | .deselect => .deselect
  | .waitReady => .waitReady
  | .issueCmd opc payload len => .issueCmd opc payload len
  | .readCmd opc len cap => .readCmd opc len cap
  | .writeRegs addr payload len => .writeRegs addr payload len
  | .readRegs addr len cap => .readRegs addr len cap
  | .writeBuf off payload len => .writeBuf off payload len
  | .readBuf off len cap => .readBuf off len cap
  | .setMode mode => .setMode mode
  | .getMode => .getMode
  | .resetDevice => .resetDevice
  | .initOscCtrl => .initOscCtrl
  | .getOscWakeupMs => .getOscWakeupMs
  | .writeReg addr v => .writeRegs addr [v] 1
  | .readReg addr => .readRegs addr 1 1

end Instr

/-- A request as it stands on the request channel: the 40-bit word, the payload stream that follows it for a write,
and the capacity a requester states beside it for a read (30_encoding R81, 20_memory R53). An operation that has no
payload stream or no capacity does not look at that field (DESIGN CHOICE, log 7). -/
structure Request where
  word : BitVec 40
  payload : List Byte
  cap : Nat
  deriving DecidableEq, Repr

end Sys2Proof
end

