-- ==== Sys2Proof/WellFormed.lean ====
section
/-! DEFINITION. Which operations have a request word: every count of bytes fits `REQ[15:0]` (30_encoding R80, R81). -/

namespace Sys2Proof

/-- The largest count the 16-bit field `LEN` of a request word holds (20_memory R57). -/
def maxWordLen : Nat := 65535

/-- "`len`, a byte count, 0 to `LEN_MAX`" (30_encoding R80). Nothing else about an operand can be wrong: its type
admits exactly the values the field admits. A `len` above the capacity is well formed: 43_transaction_primitives
R139 says what becomes of it. -/
def Instr.wellFormed : Instr → Bool
  | .select => true
  | .deselect => true
  | .waitReady => true
  | .issueCmd _ _ len => decide (len ≤ maxWordLen)
  | .readCmd _ len _ => decide (len ≤ maxWordLen)
  | .writeRegs _ _ len => decide (len ≤ maxWordLen)
  | .readRegs _ len _ => decide (len ≤ maxWordLen)
  | .writeBuf _ _ len => decide (len ≤ maxWordLen)
  | .readBuf _ len _ => decide (len ≤ maxWordLen)
  | .setMode _ => true
  | .getMode => true
  | .resetDevice => true
  | .initOscCtrl => true
  | .getOscWakeupMs => true
  | .writeReg _ _ => true
  | .readReg _ => true

end Sys2Proof
end

