-- ==== Sys2Proof/Decode.lean ====
section
/-! DEFINITION. Request words: the fields of 30_encoding R81, the decoder of R82 and R83 with the reserved words of R90 rejected by name, the encoder, and the opcode table's masks and patterns. -/

namespace Sys2Proof

/-! The three fields of a request word (30_encoding R81). -/

/-- `OP = REQ[39:32]`. -/
def opField (w : BitVec 40) : BitVec 8 := w.extractLsb' 32 8

/-- `ARG = REQ[31:16]`. -/
def argField (w : BitVec 40) : BitVec 16 := w.extractLsb' 16 16

/-- `LEN = REQ[15:0]`. -/
def lenField (w : BitVec 40) : BitVec 16 := w.extractLsb' 0 16

/-- `ARG[15:8]`. -/
def argHigh (w : BitVec 40) : Byte := (argField w).extractLsb' 8 8

/-- `ARG[7:0]`. -/
def argLow (w : BitVec 40) : Byte := (argField w).extractLsb' 0 8

/-- `ARG[15:3]`, the must-be-zero bits of `SET_MODE` (30_encoding R83). -/
def argAboveMode (w : BitVec 40) : BitVec 13 := (argField w).extractLsb' 3 13

/-- `ARG[2:0]`, the mode of `SET_MODE` (30_encoding R83). -/
def argMode (w : BitVec 40) : BitVec 3 := (argField w).extractLsb' 0 3

/-- Why a word is reserved (30_encoding R90): the decoder's `invalid`, by name. -/
inductive DecodeError
  /-- An `OP` value not in the table of R82. -/
  | reservedOp (op : Byte)
  /-- A non-zero must-be-zero field in `ARG`. -/
  | argNotZero
  /-- A non-zero must-be-zero `LEN`. -/
  | lenNotZero
  deriving DecidableEq, Repr

/-- An operation whose `ARG` and `LEN` are must-be-zero (30_encoding R83). -/
def decodeBare (w : BitVec 40) (i : Instr) : Except DecodeError Instr :=
  if argField w ≠ 0 then .error .argNotZero
  else if lenField w ≠ 0 then .error .lenNotZero
  else .ok i

/-- An operation whose `ARG[15:8]` is must-be-zero (30_encoding R83). -/
def decodeByteArg (w : BitVec 40) (i : Instr) : Except DecodeError Instr :=
  if argHigh w ≠ 0 then .error .argNotZero else .ok i

/-- `SET_MODE`: `ARG[15:3]` and `LEN` are must-be-zero (30_encoding R83). -/
def decodeSetMode (w : BitVec 40) : Except DecodeError Instr :=
  if argAboveMode w ≠ 0 then .error .argNotZero
  else if lenField w ≠ 0 then .error .lenNotZero
  else .ok (.setMode (OperatingMode.ofBits (argMode w)))

/-- `OP = 0x12`: the decoder "may print either spelling" of `LEN = 1` (30_encoding R93). It takes `WRITE_REG` when the
payload stream holds exactly the one byte `v` that spelling has (DESIGN CHOICE, log 7). -/
def spellWrite (addr : BitVec 16) (payload : List Byte) (len : Nat) : Instr :=
  if len = 1 then
    match payload with
    | [v] => .writeReg addr v
    | _ => .writeRegs addr payload len
  else .writeRegs addr payload len

/-- `OP = 0x13`: `READ_REG` when `LEN = 1` and the requester takes exactly that one byte (30_encoding R93; DESIGN CHOICE,
log 7). -/
def spellRead (addr : BitVec 16) (len cap : Nat) : Instr :=
  if len = 1 ∧ cap = 1 then .readReg addr else .readRegs addr len cap

/-- The decoder, total on every request (30_encoding R82, R83, R90). -/
def decode (r : Request) : Except DecodeError Instr :=
  let w := r.word
  let len := (lenField w).toNat
  match (opField w).toNat with
  | 0x01 => decodeBare w .select
  | 0x02 => decodeBare w .deselect
  | 0x03 => decodeBare w .waitReady
  | 0x10 => decodeByteArg w (.issueCmd (argLow w) r.payload len)
  | 0x11 => decodeByteArg w (.readCmd (argLow w) len r.cap)
  | 0x12 => .ok (spellWrite (argField w) r.payload len)
  | 0x13 => .ok (spellRead (argField w) len r.cap)
  | 0x14 => decodeByteArg w (.writeBuf (argLow w) r.payload len)
  | 0x15 => decodeByteArg w (.readBuf (argLow w) len r.cap)
  | 0x20 => decodeSetMode w
  | 0x21 => decodeBare w .getMode
  | 0x30 => decodeBare w .resetDevice
  | 0x31 => decodeBare w .initOscCtrl
  | 0x32 => decodeBare w .getOscWakeupMs
  | _ => .error (.reservedOp (opField w))

/-- The operation selector `OP` of each operation (30_encoding R82; R93 for the two pseudo-operations). -/
def Instr.selector : Instr → BitVec 8
  | .select => 0x01
  | .deselect => 0x02
  | .waitReady => 0x03
  | .issueCmd _ _ _ => 0x10
  | .readCmd _ _ _ => 0x11
  | .writeRegs _ _ _ => 0x12
  | .readRegs _ _ _ => 0x13
  | .writeBuf _ _ _ => 0x14
  | .readBuf _ _ _ => 0x15
  | .setMode _ => 0x20
  | .getMode => 0x21
  | .resetDevice => 0x30
  | .initOscCtrl => 0x31
  | .getOscWakeupMs => 0x32
  | .writeReg _ _ => 0x12
  | .readReg _ => 0x13

/-- `OP ++ ARG ++ LEN` (30_encoding R81). -/
def mkWord (op : BitVec 8) (arg len : BitVec 16) : BitVec 40 := op ++ arg ++ len

/-- A one-byte operand in `ARG[7:0]`, `ARG[15:8]` zero (30_encoding R83). -/
def byteArg (b : Byte) : BitVec 16 := (0 : BitVec 8) ++ b

/-- A mode in `ARG[2:0]`, `ARG[15:3]` zero (30_encoding R83). -/
def modeArg (m : OperatingMode) : BitVec 16 := (0 : BitVec 13) ++ m.toBits

/-- The request that names an operation: its word (30_encoding R81 to R83, R93), its payload stream, its capacity. -/
def encode (i : Instr) : Request :=
  match i with
  | .select => ⟨mkWord i.selector 0 0, [], 0⟩
  | .deselect => ⟨mkWord i.selector 0 0, [], 0⟩
  | .waitReady => ⟨mkWord i.selector 0 0, [], 0⟩
  | .issueCmd opc payload len => ⟨mkWord i.selector (byteArg opc) (BitVec.ofNat 16 len), payload, 0⟩
  | .readCmd opc len cap => ⟨mkWord i.selector (byteArg opc) (BitVec.ofNat 16 len), [], cap⟩
  | .writeRegs addr payload len => ⟨mkWord i.selector addr (BitVec.ofNat 16 len), payload, 0⟩
  | .readRegs addr len cap => ⟨mkWord i.selector addr (BitVec.ofNat 16 len), [], cap⟩
  | .writeBuf off payload len => ⟨mkWord i.selector (byteArg off) (BitVec.ofNat 16 len), payload, 0⟩
  | .readBuf off len cap => ⟨mkWord i.selector (byteArg off) (BitVec.ofNat 16 len), [], cap⟩
  | .setMode mode => ⟨mkWord i.selector (modeArg mode) 0, [], 0⟩
  | .getMode => ⟨mkWord i.selector 0 0, [], 0⟩
  | .resetDevice => ⟨mkWord i.selector 0 0, [], 0⟩
  | .initOscCtrl => ⟨mkWord i.selector 0 0, [], 0⟩
  | .getOscWakeupMs => ⟨mkWord i.selector 0 0, [], 0⟩
  | .writeReg addr v => ⟨mkWord i.selector addr 1, [v], 0⟩
  | .readReg addr => ⟨mkWord i.selector addr 1, [], 1⟩

/-- The spelling the decoder gives an operation (30_encoding R93): the pseudo-operation where one fits. -/
def Instr.respell : Instr → Instr
  | .select => .select
  | .deselect => .deselect
  | .waitReady => .waitReady
  | .issueCmd opc payload len => .issueCmd opc payload len
  | .readCmd opc len cap => .readCmd opc len cap
  | .writeRegs addr payload len => spellWrite addr payload len
  | .readRegs addr len cap => spellRead addr len cap
  | .writeBuf off payload len => .writeBuf off payload len
  | .readBuf off len cap => .readBuf off len cap
  | .setMode mode => .setMode mode
  | .getMode => .getMode
  | .resetDevice => .resetDevice
  | .initOscCtrl => .initOscCtrl
  | .getOscWakeupMs => .getOscWakeupMs
  | .writeReg addr v => .writeReg addr v
  | .readReg addr => .readReg addr

/-- One row of spec/opcode_table.json: a word belongs to it when its bits under the mask are the pattern. -/
structure TableRow where
  mnemonic : String
  pattern : BitVec 40
  mask : BitVec 40
  pseudo : Bool
  deriving DecidableEq, Repr

/-- The word belongs to the row. -/
def TableRow.covers (row : TableRow) (w : BitVec 40) : Bool := decide (w &&& row.mask = row.pattern)

/-- The fourteen rows with a selector of their own, in the table's order. -/
def coreRows : List TableRow :=
  [⟨"SELECT", 0x0100000000, 0xFFFFFFFFFF, false⟩,
   ⟨"DESELECT", 0x0200000000, 0xFFFFFFFFFF, false⟩,
   ⟨"WAIT_READY", 0x0300000000, 0xFFFFFFFFFF, false⟩,
   ⟨"ISSUE_CMD", 0x1000000000, 0xFFFF000000, false⟩,
   ⟨"READ_CMD", 0x1100000000, 0xFFFF000000, false⟩,
   ⟨"WRITE_REGS", 0x1200000000, 0xFF00000000, false⟩,
   ⟨"READ_REGS", 0x1300000000, 0xFF00000000, false⟩,
   ⟨"WRITE_BUF", 0x1400000000, 0xFFFF000000, false⟩,
   ⟨"READ_BUF", 0x1500000000, 0xFFFF000000, false⟩,
   ⟨"SET_MODE", 0x2000000000, 0xFFFFF8FFFF, false⟩,
   ⟨"GET_MODE", 0x2100000000, 0xFFFFFFFFFF, false⟩,
   ⟨"RESET_DEVICE", 0x3000000000, 0xFFFFFFFFFF, false⟩,
   ⟨"INIT_OSC_CTRL", 0x3100000000, 0xFFFFFFFFFF, false⟩,
   ⟨"GET_OSC_WAKEUP_MS", 0x3200000000, 0xFFFFFFFFFF, false⟩]

/-- The two pseudo rows: words of `WRITE_REGS` and `READ_REGS` (30_encoding R93). -/
def pseudoRows : List TableRow :=
  [⟨"WRITE_REG", 0x1200000001, 0xFF0000FFFF, true⟩,
   ⟨"READ_REG", 0x1300000001, 0xFF0000FFFF, true⟩]

/-- All sixteen rows. -/
def opcodeTable : List TableRow := coreRows ++ pseudoRows

/-- The mnemonic of each operation, as the table spells it (30_encoding R82, R93). -/
def Instr.mnemonic : Instr → String
  | .select => "SELECT"
  | .deselect => "DESELECT"
  | .waitReady => "WAIT_READY"
  | .issueCmd _ _ _ => "ISSUE_CMD"
  | .readCmd _ _ _ => "READ_CMD"
  | .writeRegs _ _ _ => "WRITE_REGS"
  | .readRegs _ _ _ => "READ_REGS"
  | .writeBuf _ _ _ => "WRITE_BUF"
  | .readBuf _ _ _ => "READ_BUF"
  | .setMode _ => "SET_MODE"
  | .getMode => "GET_MODE"
  | .resetDevice => "RESET_DEVICE"
  | .initOscCtrl => "INIT_OSC_CTRL"
  | .getOscWakeupMs => "GET_OSC_WAKEUP_MS"
  | .writeReg _ _ => "WRITE_REG"
  | .readReg _ => "READ_REG"

/-- The request that carries a word of the table as its requester would present it: the payload stream holds `LEN` zero
bytes and the capacity is `LEN`, so that the length precondition of 43_transaction_primitives R139 holds. -/
def tableRequest (w : Nat) : Request :=
  let word := BitVec.ofNat 40 w
  ⟨word, List.replicate (lenField word).toNat 0, (lenField word).toNat⟩

/-- The instruction the decoder reads from a table word: every row has one 40-bit word and no further bits. -/
def decodeTableWord (_nbits w : Nat) : Option Instr :=
  if w < 2 ^ 40 then
    match decode (tableRequest w) with
    | .ok i => some i
    | .error _ => none
  else none

end Sys2Proof
end

