-- ==== Sys2Proof/Machine/State.lean ====
section
/-! DEFINITION. The state of the controller (10_state R20), the event trace (00_scope R10), responses and faults (30_encoding R85, 60_exceptions R190), the reset state (10_state R34), and the reasons a step can stop. -/

namespace Sys2Proof.Machine

/-- The fault record of a fault response: which fault, and its "recorded value" (60_exceptions R187, R188). The
recorded value stands here and not in the response word (90_conflicts C12). -/
inductive FaultRecord
  /-- `DeviceNotResponding(POLLCNT)` (60_exceptions R187). -/
  | deviceNotResponding (pollCnt : Nat)
  /-- `InvalidArgument(len, capacity)` (60_exceptions R188). -/
  | invalidArgument (len capacity : Nat)
  deriving DecidableEq, Repr

/-- What a response carries (30_encoding R85): `Done` with `RSP.VALUE` and the data bytes of `OUT`, or a fault. -/
inductive Result
  | done (value : BitVec 16) (data : List Byte)
  | fault (f : FaultRecord)
  deriving DecidableEq, Repr

/-- The event alphabet of 00_scope R10. -/
inductive Event
  | busySample (level : Level)
  | delayUs (n : Nat)
  | delayMs (n : Nat)
  | settle
  | csWrite (level : Level)
  | xfer (tx rx : Byte)
  | rstWrite (level : Level)
  | dbgWrite (signal : DbgSignal) (level : Level)
  | req (op : Instr)
  | resp (result : Result)
  deriving DecidableEq, Repr

/-- The sequencer state `SEQ = (OPL, UPC, POLLCNT)`, which stands in a program counter's place (10_state R26). -/
structure Seq where
  opl : Option Instr
  upc : Nat
  pollCnt : Nat
  deriving DecidableEq, Repr

/-- The idle sequencer `(none, 0, 0)` (10_state R34, 60_exceptions R194). -/
def Seq.idle : Seq := ⟨none, 0, 0⟩

/-- The answers of the outside world as plain data: the device's levels and bytes, the order of the two debug writes,
the arbiter's choices. Each list is what is already decided, next first; when it is empty the answer is a free value of
`Config` applied to `drawn`, the number of free values drawn so far (DESIGN CHOICE, log 2). The MODEL's own. -/
structure Environment where
  busy : List Level
  rx : List Byte
  dbgFirst : List DbgSignal
  grants : List Nat
  drawn : Nat
  deriving DecidableEq, Repr

/-- Everything the spec gives the machine (10_state R20), the ghost trace (00_scope R10), the request channel and the
arbiter's grant (30_encoding R81, 60_exceptions R200), the configuration, and the model's own fields. -/
structure State where
  /-- The configuration (00_scope R7): fixed for a run; no step changes it (DESIGN CHOICE, log 1). -/
  cfg : Config
  /-- `MODE` (10_state R21). -/
  mode : OperatingMode
  /-- `CS_N` (10_state R22). -/
  csN : Level
  /-- `RESET_N` (10_state R23). -/
  resetN : Level
  /-- `DBG_TX` (10_state R24); an output only when `DEBUG_EN = 1`, see `State.dbgLines`. -/
  dbgTx : Level
  /-- `DBG_RX` (10_state R24). -/
  dbgRx : Level
  /-- `SEQ` (10_state R26). -/
  seq : Seq
  /-- `OUT` (10_state R30). -/
  out : List Byte
  /-- `STATUS_OUT` (10_state R30). -/
  statusOut : Byte
  /-- Between the two debug writes of one `DBGW`: the write still to be made (44_mode_tracker R163; DESIGN CHOICE, log 5). -/
  dbgRest : Option DbgSignal
  /-- The request channel: one queue per requester, the next request first (30_encoding R84; DESIGN CHOICE, log 6). -/
  requests : List (List Request)
  /-- The arbiter: the requester that holds the grant from acceptance to response (60_exceptions R200). -/
  grant : Option Nat
  /-- The outside world's answers. -/
  env : Environment
  /-- The event trace since reset, oldest first (00_scope R10): ghost state (DEDUCED, log 12). -/
  trace : List Event
  deriving DecidableEq, Repr

/-- Where the machine stops although no rule refuses it (DEDUCED, log 10). No run from reset reaches either; both are
safe. -/
inductive Fault
  /-- Raised by a transfer entry met with `CS_N = 1`: 70_reset_and_hazards R225 gives `Xfer` a step "whenever
  `CS_N = 0`" only, and 41_bus_line_control R113(c) has no `Xfer` while `CS_N = 1`. Safe. -/
  | transferWhileDeselected
  /-- Raised by the sequencer with `UPC` beyond the end of the micro-program, which "never exceeds the length of the
  micro-program" (10_state R26). Safe. -/
  | sequencerPastEnd
  deriving DecidableEq, Repr

/-- The requests the spec refuses, by name. All are safe: the model gives the situation no meaning. -/
inductive Refusal
  /-- An instruction that has no meaning yet, by its mnemonic; raised by no arm of this model. Safe. -/
  | notModelled (mnemonic : String)
  /-- Raised by `step`: a reserved request word (30_encoding R90, D23). Safe. -/
  | reservedRequest (why : DecodeError)
  /-- Raised at acceptance with `CS_N = 0` by SELECT, the primitives, WAIT_READY, INIT_OSC_CTRL, RESET_DEVICE
  (70_reset_and_hazards R215, D24). Safe. -/
  | chipSelectOpen
  /-- Raised at acceptance with `CS_N = 1` by DESELECT (41_bus_line_control R112, D24). Safe. -/
  | chipSelectClosed
  /-- Raised at acceptance by a primitive whose `len` is above its capacity when `CHECK_LENGTH = 0`
  (43_transaction_primitives R139, D15). Safe. -/
  | lengthAboveCapacity (len capacity : Nat)
  /-- Raised at acceptance by a primitive whose `len` is no byte count: above `LEN_MAX` (30_encoding R80, D10). Safe. -/
  | lengthAboveLenMax (len : Nat)
  /-- Raised by a meaning asked to run while another operation is in flight (43_transaction_primitives R143, U5);
  `step` never asks. Safe. -/
  | operationInFlight
  deriving DecidableEq, Repr

/-- How one step ends. -/
abbrev Outcome := Host.Outcome State Fault Refusal

namespace State

/-- The state after the controller's own reset under a configuration (10_state R34, 70_reset_and_hazards R211).
`STATUS_OUT` is "unspecified" there: a free value (DESIGN CHOICE, log 4). -/
def resetWith (cfg : Config) : State where
  cfg := cfg
  mode := cfg.modeReset
  csN := .high
  resetN := .high
  dbgTx := .low
  dbgRx := .low
  seq := Seq.idle
  out := []
  statusOut := Config.freeStatusOut 0
  dbgRest := none
  requests := []
  grant := none
  env := ⟨[], [], [], [], 0⟩
  trace := []

/-- The machine right after reset, with the values this hardware takes (00_scope R7, 10_state R34). -/
def reset : State := resetWith Config.hardware

/-- The controller's reset arriving from outside (70_reset_and_hazards R210, R212): the reset state, the parameters
"unchanged by it" (R211); what the outside world has yet to say and ask stands. No step of the machine is it (DESIGN
CHOICE, log 11). -/
def externalReset (s : State) : State :=
  { resetWith s.cfg with env := s.env, requests := s.requests }

/-- The debug outputs as an observer has them: with `DEBUG_EN = 0` "the block has no such outputs" (10_state R24). -/
def dbgLines (s : State) : Option (Level × Level) :=
  if s.cfg.debugEn then some (s.dbgTx, s.dbgRx) else none

end State

end Sys2Proof.Machine
end

