-- ==== Sys2Proof/Machine/Flags.lean ====
section
/-! DEFINITION. The block has no flags or condition codes (10_state R28). Here stand the two values computed from state instead: the debug output mux (44_mode_tracker R162) and the response word (30_encoding R85, 60_exceptions R190). -/

namespace Sys2Proof.Machine

/-- The debug output mux `dbg : mode -> (DBG_TX, DBG_RX)` (44_mode_tracker R162). -/
def dbg : OperatingMode → Level × Level
  | .sleep => (.low, .low)
  | .standbyRc => (.low, .low)
  | .standbyXosc => (.low, .low)
  | .fs => (.low, .low)
  | .tx => (.high, .low)
  | .rx => (.low, .high)
  | .rxDutyCycle => (.low, .high)
  | .cad => (.low, .low)

/-- The level the mux gives one of the two lines. -/
def dbgLevel (m : OperatingMode) : DbgSignal → Level
  | .tx => (dbg m).1
  | .rx => (dbg m).2

/-- The fault codes of `RSP.CODE` (60_exceptions R190; the spec's decision D16). -/
def FaultRecord.code : FaultRecord → BitVec 8
  | .deviceNotResponding _ => 0x01
  | .invalidArgument _ _ => 0x02

/-- `RSP.CODE` (30_encoding R85): 0x00 for `Done`. -/
def Result.code : Result → BitVec 8
  | .done _ _ => 0x00
  | .fault f => f.code

/-- `RSP.VALUE` (30_encoding R85): "every fault: 0". -/
def Result.value : Result → BitVec 16
  | .done value _ => value
  | .fault _ => 0

/-- The data bytes that follow the response word: none with a fault (60_exceptions R194). -/
def Result.data : Result → List Byte
  | .done _ data => data
  | .fault _ => []

/-- `RSP = CODE ++ 0 ++ VALUE` (30_encoding R85). -/
def Result.word (r : Result) : BitVec 32 := r.code ++ (0 : BitVec 8) ++ r.value

end Sys2Proof.Machine
end

