-- ==== Sys2Proof/Machine/Ops.lean ====
section
/-! DEFINITION. The pseudocode primitives of 00_scope R9, the micro-operations (30_encoding R96), taking a fault (60_exceptions R194) and responding, acceptance (30_encoding R84), the sequencer (10_state R26), and the arbiter (60_exceptions R200). -/

namespace Sys2Proof.Machine

/-! The outside world's answers: the script first, then free values (DESIGN CHOICE, log 2). -/

/-- The level the device gives the next sample of `BUSY` (10_state R25). -/
def Environment.nextBusy (e : Environment) : Level × Environment :=
  match e.busy with
  | l :: rest => (l, { e with busy := rest })
  | [] => (Config.freeBusy e.drawn, { e with drawn := e.drawn + 1 })

/-- The byte the device returns in the next exchange (00_scope R9 `Xfer`). -/
def Environment.nextRx (e : Environment) : Byte × Environment :=
  match e.rx with
  | b :: rest => (b, { e with rx := rest })
  | [] => (Config.freeRx e.drawn, { e with drawn := e.drawn + 1 })

/-- Which debug line is written first (44_mode_tracker R163). -/
def Environment.nextDbgFirst (e : Environment) : DbgSignal × Environment :=
  match e.dbgFirst with
  | d :: rest => (d, { e with dbgFirst := rest })
  | [] => (Config.freeDbgFirst e.drawn, { e with drawn := e.drawn + 1 })

/-- The arbiter's next choice (60_exceptions R200). -/
def Environment.nextChoice (e : Environment) : Nat × Environment :=
  match e.grants with
  | k :: rest => (k, { e with grants := rest })
  | [] => (Config.freeGrant e.drawn, { e with drawn := e.drawn + 1 })

namespace State

/-- Append events to the trace (00_scope R10). -/
def emit (s : State) (es : List Event) : State := { s with trace := s.trace ++ es }

/-- `UPC <- UPC + 1` (10_state R26). -/
def advance (s : State) : State := { s with seq := { s.seq with upc := s.seq.upc + 1 } }

/-- `Drive(CS_N, l)`: "cannot fail" (00_scope R9, 41_bus_line_control R111). -/
def driveCs (s : State) (l : Level) : State := { s with csN := l }.emit [.csWrite l]

/-- `Drive(RESET_N, l)` (00_scope R9, 45_startup_sequencer R172). -/
def driveReset (s : State) (l : Level) : State := { s with resetN := l }.emit [.rstWrite l]

/-- `DBG_TX <- l` or `DBG_RX <- l` with its event (44_mode_tracker R160). -/
def driveDbg (s : State) (d : DbgSignal) (l : Level) : State :=
  match d with
  | .tx => { s with dbgTx := l }.emit [.dbgWrite .tx l]
  | .rx => { s with dbgRx := l }.emit [.dbgWrite .rx l]

/-- `Sample(BUSY)` (00_scope R9): the level is consumed and not latched (10_state R28). -/
def sampleBusy (s : State) : Level × State :=
  (s.env.nextBusy.1, { s with env := s.env.nextBusy.2 }.emit [.busySample s.env.nextBusy.1])

/-- `Xfer(tx) -> rx` (00_scope R9). -/
def exchange (s : State) (tx : Byte) : Byte × State :=
  (s.env.nextRx.1, { s with env := s.env.nextRx.2 }.emit [.xfer tx s.env.nextRx.1])

/-- `OUT[i] <- b`, the bytes of a read standing "in index order" (10_state R30). -/
def storeOut (s : State) (i : Nat) (b : Byte) : State :=
  { s with out := s.out.take i ++ b :: s.out.drop (i + 1) }

/-- `OUT` holds contents nobody may rely on: at most `LEN_MAX` free bytes (93 U12, 10_state R20; DEDUCED, log 4). -/
def forgetOut (s : State) : State :=
  { s with out := (Config.freeOut s.env.drawn).take s.cfg.lenMax
           env := { s.env with drawn := s.env.drawn + 1 } }

/-- `STATUS_OUT` holds contents nobody may rely on: a free byte (93 U12; DEDUCED, log 4). -/
def forgetStatus (s : State) : State :=
  { s with statusOut := Config.freeStatusOut s.env.drawn
           env := { s.env with drawn := s.env.drawn + 1 } }

/-- `Resp(r)`, which ends the operation: `OPL <- none, UPC <- 0` (10_state R26, 00_scope R11); the arbiter's grant,
held "from acceptance to response", ends with it (60_exceptions R200). -/
def respond (s : State) (r : Result) : State :=
  { s with seq := Seq.idle, grant := none }.emit [.resp r]

/-- TAKING A FAULT, `raise F(info)` (60_exceptions R194): the operation stops where it stands, the fault is the
response, `SEQ <- (none, 0, 0)`; `MODE` and the lines stay; `OUT` and `STATUS_OUT` are unspecified. There is no handler
and no return: the next request is accepted as after `Done` (R195). -/
def raise (s : State) (f : FaultRecord) : State :=
  (s.forgetOut.forgetStatus).respond (.fault f)

/-- `MAX_POLL_ITER != unbounded and POLLCNT >= MAX_POLL_ITER` (42_ready_handshake R120). -/
def pollLimitReached (s : State) : Bool :=
  match s.cfg.maxPollIter with
  | none => false
  | some m => decide (m ≤ s.seq.pollCnt)

/-- The `WAIT` micro-operation: one pass of the loop of 42_ready_handshake R120. -/
def poll (s : State) : State :=
  let sampled := s.sampleBusy.2
  match s.sampleBusy.1 with
  | .low => { sampled with seq := { sampled.seq with upc := sampled.seq.upc + 1, pollCnt := 0 } }
  | .high =>
    let counted := { sampled with seq := { sampled.seq with pollCnt := sampled.seq.pollCnt + 1 } }
    if counted.pollLimitReached then counted.raise (.deviceNotResponding counted.seq.pollCnt)
    else counted.emit [.delayUs counted.cfg.pollIntervalUs]

/-- The `DBGW(m)` micro-operation: skipped when `DEBUG_EN = 0`; otherwise the two writes "in either order", one a step,
so that the instant between them is a state (44_mode_tracker R160, R163; DESIGN CHOICE, log 5). -/
def mirror (s : State) (m : OperatingMode) : State :=
  if s.cfg.debugEn then
    match s.dbgRest with
    | none =>
      { s.driveDbg s.env.nextDbgFirst.1 (dbgLevel m s.env.nextDbgFirst.1) with
        env := s.env.nextDbgFirst.2
        dbgRest := some s.env.nextDbgFirst.1.other }
    | some d => { s.driveDbg d (dbgLevel m d) with dbgRest := none }.advance
  else s.advance

end State

/-- A transfer entry: it has a step "whenever `CS_N = 0`" (70_reset_and_hazards R225). -/
def transfer (s : State) (tx : Byte) (store : Byte → State → State) : Outcome :=
  if s.csN = .low then .next (store (s.exchange tx).1 (s.exchange tx).2).advance
  else .fault .transferWhileDeselected

/-- One micro-operation (30_encoding R96), "the unit of a model's step" (DEDUCED, log 3). -/
def microStep (m : MicroOp) (s : State) : Outcome :=
  match m with
  | .wait => .next s.poll
  | .settle => .next (s.emit [.settle]).advance
  | .cs l => .next (s.driveCs l).advance
  | .tx b => transfer s b fun _ t => t
  | .txs b => transfer s b fun rx t => { t with statusOut := rx }
  | .rx i => transfer s s.cfg.nopByte fun rx t => t.storeOut i rx
  | .rst l => .next (s.driveReset l).advance
  | .dlyMs n => .next (s.emit [.delayMs n]).advance
  | .modeW m => .next { s with mode := m }.advance
  | .dbgW m => .next (s.mirror m)

/-- What the chip-select line must be when an operation is accepted (70_reset_and_hazards R215). -/
inductive ChipSelectRule
  | mustBeHigh
  | mustBeLow
  | any
  deriving DecidableEq, Repr

/-- The refusal of an acceptance with chip-select in the wrong state, if it is one (70_reset_and_hazards R215, D24). -/
def ChipSelectRule.refusal : ChipSelectRule → Level → Option Refusal
  | .mustBeHigh, .low => some .chipSelectOpen
  | .mustBeHigh, .high => none
  | .mustBeLow, .high => some .chipSelectClosed
  | .mustBeLow, .low => none
  | .any, _ => none

/-- What the response of an operation carries (30_encoding R83 "returns", R85). -/
inductive Reply
  | nothing
  | mode
  | oscWakeupMs
  | statusAndData
  | data
  deriving DecidableEq, Repr

/-- The `Done` result (30_encoding R85). -/
def Reply.result (r : Reply) (s : State) : Result :=
  match r with
  | .nothing => .done 0 []
  | .mode => .done (s.mode.toBits.zeroExtend 16) []
  | .oscWakeupMs => .done s.cfg.oscWakeupMs []
  | .statusAndData => .done (s.statusOut.zeroExtend 16) s.out
  | .data => .done 0 s.out

/-- `respond Done(...)`: the staging registers keep what a read delivered; the others hold unspecified contents once an
operation that did not fill them has responded (10_state R30, 93 U12; DEDUCED, log 4). -/
def finish (r : Reply) (s : State) : State :=
  match r with
  | .nothing => s.forgetOut.forgetStatus.respond (r.result s)
  | .mode => s.forgetOut.forgetStatus.respond (r.result s)
  | .oscWakeupMs => s.forgetOut.forgetStatus.respond (r.result s)
  | .statusAndData => s.respond (r.result s)
  | .data => s.forgetStatus.respond (r.result s)

/-- An operation as the sequencer needs it: the request it latches, the chip-select line it may be accepted with, its
length and capacity where it has them, its micro-program, and what it returns. -/
structure Operation where
  request : Instr
  chipSelect : ChipSelectRule
  length : Option (Nat × Nat)
  program : List MicroOp
  reply : Reply
  deriving DecidableEq, Repr

/-- Acceptance: `Req` is emitted, `OPL <- request, UPC <- 0, POLLCNT <- 0` (10_state R26, 30_encoding R84); `OUT` and
`STATUS_OUT` "are cleared" (10_state R30), `STATUS_OUT` to 0x00 (DEDUCED, log 4). -/
def State.latch (s : State) (op : Instr) : State :=
  { s with seq := ⟨some op, 0, 0⟩, out := [], statusOut := 0 }.emit [.req op]

/-- The length precondition `len <= capacity`, "made when the request is accepted, before the leading wait and before
any pin moves" (43_transaction_primitives R139). -/
def admitLength (o : Operation) (s : State) : Outcome :=
  match o.length with
  | none => .next (s.latch o.request)
  | some (len, capacity) =>
    if s.cfg.lenMax < len then .refused (.lengthAboveLenMax len)
    else if len ≤ capacity then .next (s.latch o.request)
    else if s.cfg.checkLength then .next ((s.latch o.request).raise (.invalidArgument len capacity))
    else .refused (.lengthAboveCapacity len capacity)

/-- A request presented to an idle controller (30_encoding R84, 70_reset_and_hazards R215): chip-select first, then the
length (DEDUCED, log 9). -/
def accept (o : Operation) (s : State) : Outcome :=
  match o.chipSelect.refusal s.csN with
  | some why => .refused why
  | none => admitLength o s

/-- The operation in flight: the entry at `UPC`, or at the end of the micro-program the response (10_state R26). -/
def proceed (o : Operation) (s : State) : Outcome :=
  match o.program[s.seq.upc]? with
  | some m => microStep m s
  | none =>
    if s.seq.upc = o.program.length then .next (finish o.reply s) else .fault .sequencerPastEnd

/-- One step of an operation: accepted when the controller is idle, carried on while it is in flight. While another
one is in flight it is not accepted (43_transaction_primitives R143, U5). -/
def perform (o : Operation) (s : State) : Outcome :=
  match s.seq.opl with
  | none => accept o s
  | some op => if op = o.request then proceed o s else .refused .operationInFlight

/-! The request channel and the arbiter (60_exceptions R200). With one requester the arbiter is "the idle test of
10_state rule R26 and nothing more". -/

/-- The requesters that present a request. -/
def State.waiting (s : State) : List Nat :=
  (List.range s.cfg.nRequesters).filter fun q => !(s.requests.getD q []).isEmpty

/-- Which of the waiting requesters is granted: "left open (any order)". -/
def Environment.choose (e : Environment) (waiting : List Nat) : Option (Nat × Environment) :=
  match waiting with
  | [] => none
  | [q] => some (q, e)
  | q :: rest => some ((q :: rest).getD (e.nextChoice.1 % (rest.length + 1)) q, e.nextChoice.2)

/-- The request the idle controller is presented with, taken from its queue, and the grant given. -/
def State.grantNext (s : State) : Option (Request × State) :=
  match s.env.choose s.waiting with
  | none => none
  | some (q, env) =>
    match s.requests.getD q [] with
    | [] => none
    | r :: rest => some (r, { s with requests := s.requests.set q rest, grant := some q, env := env })

end Sys2Proof.Machine
end

