-- ==== Sys2Proof/Machine/BusLine.lean ====
section
/-! DEFINITION. Bus Line Control: SELECT, DESELECT (41_bus_line_control). -/

namespace Sys2Proof.Machine

/-- `SELECT` as the sequencer takes it (41_bus_line_control R111): refused while `CS_N = 0` (a nested transaction). -/
def opSelect : Operation := ⟨.select, .mustBeHigh, none, sel, .nothing⟩

/-- `SELECT` (41_bus_line_control R111). -/
def execSelect (s : State) : Outcome := perform opSelect s

/-- `DESELECT` as the sequencer takes it (41_bus_line_control R112): refused while `CS_N = 1`. -/
def opDeselect : Operation := ⟨.deselect, .mustBeLow, none, desel, .nothing⟩

/-- `DESELECT` (41_bus_line_control R112). -/
def execDeselect (s : State) : Outcome := perform opDeselect s

end Sys2Proof.Machine
end

