-- ==== Sys2Proof/Machine/Handshake.lean ====
section
/-! DEFINITION. Ready Handshake: WAIT_READY (42_ready_handshake). -/

namespace Sys2Proof.Machine

/-- `WAIT_READY` as the sequencer takes it (42_ready_handshake R120): one `WAIT`. -/
def opWaitReady : Operation := ⟨.waitReady, .mustBeHigh, none, [.wait], .nothing⟩

/-- `WAIT_READY` (42_ready_handshake R120). -/
def execWaitReady (s : State) : Outcome := perform opWaitReady s

end Sys2Proof.Machine
end

