-- ==== Sys2Proof/Machine/ModeTracker.lean ====
section
/-! DEFINITION. Operating-Mode Tracker: SET_MODE, GET_MODE (44_mode_tracker). -/

namespace Sys2Proof.Machine

/-- `SET_MODE` as the sequencer takes it (44_mode_tracker R160): "The store to `MODE` comes before both" debug writes
(R163). It is "harmless with `CS_N = 0`" (70_reset_and_hazards R215). -/
def opSetMode (mode : OperatingMode) : Operation :=
  ⟨.setMode mode, .any, none, [.modeW mode, .dbgW mode], .nothing⟩

/-- `SET_MODE mode` (44_mode_tracker R160). -/
def execSetMode (mode : OperatingMode) (s : State) : Outcome := perform (opSetMode mode) s

/-- `GET_MODE` as the sequencer takes it (44_mode_tracker R161): an empty micro-program; the response reads `MODE`. -/
def opGetMode : Operation := ⟨.getMode, .any, none, [], .mode⟩

/-- `GET_MODE` (44_mode_tracker R161). -/
def execGetMode (s : State) : Outcome := perform opGetMode s

end Sys2Proof.Machine
end

