-- ==== Sys2Proof/Machine/Primitives.lean ====
section
/-! DEFINITION. Transaction Primitives: ISSUE_CMD, READ_CMD, WRITE_REGS, READ_REGS, WRITE_BUF, READ_BUF, WRITE_REG, READ_REG (43_transaction_primitives). The capacity of a write is `|payload|`, of a read `cap` (R139). -/

namespace Sys2Proof.Machine

/-- The common shape of the primitives (43_transaction_primitives R130); they "differ only in `frame`" and in what
they return. -/
def primitive (request : Instr) (len capacity : Nat) (frame : List MicroOp) (reply : Reply) : Operation :=
  ⟨request, .mustBeHigh, some (len, capacity), transaction frame, reply⟩

/-- `ISSUE_CMD` as the sequencer takes it (43_transaction_primitives R131). -/
def opIssueCmd (opc : Byte) (payload : List Byte) (len : Nat) : Operation :=
  primitive (.issueCmd opc payload len) len payload.length (frameCmdW opc payload len) .nothing

/-- `ISSUE_CMD opc, payload, len` (43_transaction_primitives R131). -/
def execIssueCmd (opc : Byte) (payload : List Byte) (len : Nat) (s : State) : Outcome :=
  perform (opIssueCmd opc payload len) s

/-- `READ_CMD` as the sequencer takes it (43_transaction_primitives R132). -/
def opReadCmd (opc : Byte) (len cap : Nat) : Operation :=
  primitive (.readCmd opc len cap) len cap (frameCmdR opc len) .statusAndData

/-- `READ_CMD opc, len` (43_transaction_primitives R132). -/
def execReadCmd (opc : Byte) (len cap : Nat) (s : State) : Outcome := perform (opReadCmd opc len cap) s

/-- `WRITE_REGS` as the sequencer takes it (43_transaction_primitives R133). -/
def opWriteRegs (cfg : Config) (addr : BitVec 16) (payload : List Byte) (len : Nat) : Operation :=
  primitive (.writeRegs addr payload len) len payload.length (frameRegW cfg addr payload len) .nothing

/-- `WRITE_REGS addr, payload, len` (43_transaction_primitives R133). -/
def execWriteRegs (addr : BitVec 16) (payload : List Byte) (len : Nat) (s : State) : Outcome :=
  perform (opWriteRegs s.cfg addr payload len) s

/-- `READ_REGS` as the sequencer takes it (43_transaction_primitives R134). -/
def opReadRegs (cfg : Config) (addr : BitVec 16) (len cap : Nat) : Operation :=
  primitive (.readRegs addr len cap) len cap (frameRegR cfg addr len) .data

/-- `READ_REGS addr, len` (43_transaction_primitives R134). -/
def execReadRegs (addr : BitVec 16) (len cap : Nat) (s : State) : Outcome :=
  perform (opReadRegs s.cfg addr len cap) s

/-- `WRITE_BUF` as the sequencer takes it (43_transaction_primitives R135). -/
def opWriteBuf (cfg : Config) (off : Byte) (payload : List Byte) (len : Nat) : Operation :=
  primitive (.writeBuf off payload len) len payload.length (frameBufW cfg off payload len) .nothing

/-- `WRITE_BUF off, payload, len` (43_transaction_primitives R135). -/
def execWriteBuf (off : Byte) (payload : List Byte) (len : Nat) (s : State) : Outcome :=
  perform (opWriteBuf s.cfg off payload len) s

/-- `READ_BUF` as the sequencer takes it (43_transaction_primitives R136). -/
def opReadBuf (cfg : Config) (off : Byte) (len cap : Nat) : Operation :=
  primitive (.readBuf off len cap) len cap (frameBufR cfg off len) .data

/-- `READ_BUF off, len` (43_transaction_primitives R136). -/
def execReadBuf (off : Byte) (len cap : Nat) (s : State) : Outcome := perform (opReadBuf s.cfg off len cap) s

/-- `WRITE_REG` as the sequencer takes it: `WRITE_REGS addr, {v}, 1` (43_transaction_primitives R137). -/
def opWriteReg (cfg : Config) (addr : BitVec 16) (v : Byte) : Operation := opWriteRegs cfg addr [v] 1

/-- `WRITE_REG addr, v` (43_transaction_primitives R137): it delegates "with length 1". -/
def execWriteReg (addr : BitVec 16) (v : Byte) (s : State) : Outcome := perform (opWriteReg s.cfg addr v) s

/-- `READ_REG` as the sequencer takes it: `READ_REGS addr, 1` (43_transaction_primitives R138). -/
def opReadReg (cfg : Config) (addr : BitVec 16) : Operation := opReadRegs cfg addr 1 1

/-- `READ_REG addr` (43_transaction_primitives R138): it returns the one byte `OUT[0]`. -/
def execReadReg (addr : BitVec 16) (s : State) : Outcome := perform (opReadReg s.cfg addr) s

end Sys2Proof.Machine
end

