-- ==== Sys2Proof/Machine/Startup.lean ====
section
/-! DEFINITION. Calibration/Startup Sequencer: GET_OSC_WAKEUP_MS, INIT_OSC_CTRL, RESET_DEVICE (45_startup_sequencer). -/

namespace Sys2Proof.Machine

/-- `GET_OSC_WAKEUP_MS` as the sequencer takes it (45_startup_sequencer R170): no micro-operation. -/
def opGetOscWakeupMs : Operation := ⟨.getOscWakeupMs, .any, none, [], .oscWakeupMs⟩

/-- `GET_OSC_WAKEUP_MS` (45_startup_sequencer R170). -/
def execGetOscWakeupMs (s : State) : Outcome := perform opGetOscWakeupMs s

/-- The payload of the oscillator-control command: the voltage code, then the wakeup value (45_startup_sequencer R171;
the layout is the spec's decision D18). -/
def oscCtrlPayload (cfg : Config) : List Byte := cfg.oscVoltageCode :: bytes24 (wakeup cfg)

/-- `INIT_OSC_CTRL` as the sequencer takes it (45_startup_sequencer R171, R174): two whole `ISSUE_CMD` micro-programs
and nothing else, one response. -/
def opInitOscCtrl (cfg : Config) : Operation :=
  ⟨.initOscCtrl, .mustBeHigh, none,
   transaction (frameCmdW cfg.opcSetOscCtrl (oscCtrlPayload cfg) 4) ++
     transaction (frameCmdW cfg.opcCalibrate [cfg.calAll] 1),
   .nothing⟩

/-- `INIT_OSC_CTRL` (45_startup_sequencer R171). -/
def execInitOscCtrl (s : State) : Outcome := perform (opInitOscCtrl s.cfg) s

/-- `RESET_DEVICE` as the sequencer takes it (45_startup_sequencer R172): no handshake (R173). -/
def opResetDevice (cfg : Config) : Operation :=
  ⟨.resetDevice, .mustBeHigh, none,
   [.rst .high, .rst .low, .dlyMs cfg.tResetLowMs, .rst .high, .dlyMs cfg.tResetReleaseMs],
   .nothing⟩

/-- `RESET_DEVICE` (45_startup_sequencer R172). -/
def execResetDevice (s : State) : Outcome := perform (opResetDevice s.cfg) s

end Sys2Proof.Machine
end

