-- ==== Sys2Proof/Machine/Dispatch.lean ====
section
/-! DEFINITION. The dispatch of every operation to its meaning. -/

namespace Sys2Proof.Machine

def exec (i : Instr) (s : State) : Host.Outcome State Fault Refusal :=
  match i with
  | .select => Sys2Proof.Machine.execSelect s
  | .deselect => Sys2Proof.Machine.execDeselect s
  | .waitReady => Sys2Proof.Machine.execWaitReady s
  | .issueCmd opc payload len => Sys2Proof.Machine.execIssueCmd opc payload len s
  | .readCmd opc len cap => Sys2Proof.Machine.execReadCmd opc len cap s
  | .writeRegs addr payload len => Sys2Proof.Machine.execWriteRegs addr payload len s
  | .readRegs addr len cap => Sys2Proof.Machine.execReadRegs addr len cap s
  | .writeBuf off payload len => Sys2Proof.Machine.execWriteBuf off payload len s
  | .readBuf off len cap => Sys2Proof.Machine.execReadBuf off len cap s
  | .setMode mode => Sys2Proof.Machine.execSetMode mode s
  | .getMode => Sys2Proof.Machine.execGetMode s
  | .resetDevice => Sys2Proof.Machine.execResetDevice s
  | .initOscCtrl => Sys2Proof.Machine.execInitOscCtrl s
  | .getOscWakeupMs => Sys2Proof.Machine.execGetOscWakeupMs s
  | .writeReg addr v => Sys2Proof.Machine.execWriteReg addr v s
  | .readReg addr => Sys2Proof.Machine.execReadReg addr s

end Sys2Proof.Machine
end

