-- ==== Sys2Proof/Machine/Step.lean ====
section
/-! DEFINITION. One step of the controller (10_state R26, 30_encoding R96), and the request channel loaded with one request. -/

namespace Sys2Proof.Machine

/-- One step. In flight: the meaning of the latched operation runs its entry at `UPC`. Idle: the granted request is
decoded and accepted by its meaning, or refused when its word is reserved (30_encoding R90). Idle with no request: "it
emits no event until a request arrives" (70_reset_and_hazards R210; DESIGN CHOICE, log 6). -/
def step (s : State) : Host.Outcome State Fault Refusal :=
  match s.seq.opl with
  | some op => exec op s
  | none =>
    match s.grantNext with
    | none => .next s
    | some (r, granted) =>
      match decode r with
      | .ok i => exec i granted
      | .error why => .refused (.reservedRequest why)

/-- The state with the sequencer idle and the one request of a table word presented by requester 0, so that the next
step takes it. The block fetches from no memory (20_memory R64): this stands for the requester presenting it (DESIGN
CHOICE, log 6). -/
def State.withFetchWord (s : State) (_nbits w : Nat) : State :=
  { s with seq := Seq.idle, requests := [[tableRequest w]] }

end Sys2Proof.Machine
end

