-- ==== Sys2Proof/Machine/Operations.lean ====
section
/-! DEFINITION. Every operation as the sequencer takes it, in one table: its micro-program (30_encoding R97), its chip-select rule, its length and capacity, its reply. -/

namespace Sys2Proof.Machine

/-- The operation each instruction's meaning performs. -/
def operation (cfg : Config) : Instr → Operation
  | .select => opSelect
  | .deselect => opDeselect
  | .waitReady => opWaitReady
  | .issueCmd opc payload len => opIssueCmd opc payload len
  | .readCmd opc len cap => opReadCmd opc len cap
  | .writeRegs addr payload len => opWriteRegs cfg addr payload len
  | .readRegs addr len cap => opReadRegs cfg addr len cap
  | .writeBuf off payload len => opWriteBuf cfg off payload len
  | .readBuf off len cap => opReadBuf cfg off len cap
  | .setMode mode => opSetMode mode
  | .getMode => opGetMode
  | .resetDevice => opResetDevice cfg
  | .initOscCtrl => opInitOscCtrl cfg
  | .getOscWakeupMs => opGetOscWakeupMs
  | .writeReg addr v => opWriteReg cfg addr v
  | .readReg addr => opReadReg cfg addr

/-- The micro-program `uprog(op)` (30_encoding R97). -/
def uprog (cfg : Config) (i : Instr) : List MicroOp := (operation cfg i).program

end Sys2Proof.Machine
end

