-- ==== Sys2Proof/Machine/SimDevice.lean ====
section
/-! DEFINITION. The simulated device of 95_test_vectors Part 2: "a test harness, not a model of the real transceiver", for the round-trip law of 20_memory R67. NO PART OF THE MACHINE: `State`, `exec` and `step` do not know it (log 13). -/

namespace Sys2Proof.Machine

/-- A space of the simulated device: addresses strictly rising, no entry equal to 0x00, which an unlisted address reads
as ("all 0x00 at start"). -/
abbrev Memory := List Host.Cell

namespace Memory

/-- The canonical form. -/
def wf (m : Memory) : Bool :=
  decide (m.Pairwise fun x y => x.1 < y.1) && m.all fun c => decide (c.2 ≠ 0)

/-- The byte at an address. -/
def read (m : Memory) (a : Nat) : Byte :=
  match m with
  | [] => 0
  | (k, v) :: rest => if k = a then v else read rest a

/-- A byte in front of cells that all lie above its address: listed unless it is what an unlisted address reads as. -/
def cons (a : Nat) (b : Byte) (rest : Memory) : Memory := if b = 0 then rest else (a, b) :: rest

/-- The memory with one byte written, in the canonical form again. -/
def write (m : Memory) (a : Nat) (b : Byte) : Memory :=
  match m with
  | [] => cons a b []
  | (k, v) :: rest =>
    if a < k then cons a b ((k, v) :: rest)
    else if a = k then cons a b rest
    else (k, v) :: write rest a b

end Memory

/-- The state of the simulated device (95_test_vectors Part 2). `stuckBusy` is the infinite script "always 1" that
follows `busyScript`. -/
structure SimDevice where
  reg : Memory
  buf : Memory
  busyScript : List Level
  stuckBusy : Bool
  st : Byte
  cmdResp : List Byte
  k : Nat
  cmd : Byte
  a : BitVec 16
  deriving DecidableEq, Repr

namespace SimDevice

/-- `Sample(BUSY)`: the script's head, or 0. -/
def sample (d : SimDevice) : Level × SimDevice :=
  match d.busyScript with
  | l :: rest => (l, { d with busyScript := rest })
  | [] => (if d.stuckBusy then .high else .low, d)

/-- `a[15:8] <- tx`. -/
def setHigh (a : BitVec 16) (tx : Byte) : BitVec 16 := tx ++ a.extractLsb' 0 8

/-- `a[7:0] <- tx`. -/
def setLow (a : BitVec 16) (tx : Byte) : BitVec 16 := a.extractLsb' 8 8 ++ tx

/-- The write-register command at position `k >= 1`. -/
def writeRegister (d : SimDevice) (tx : Byte) : SimDevice :=
  match d.k with
  | 1 => { d with a := setHigh d.a tx }
  | 2 => { d with a := setLow d.a tx }
  | k => { d with reg := Memory.write d.reg ((d.a.toNat + k - 3) % 65536) tx }

/-- The read-register command at position `k >= 1`; position 3 is the filler. -/
def readRegister (d : SimDevice) (tx : Byte) : Byte × SimDevice :=
  match d.k with
  | 1 => (d.st, { d with a := setHigh d.a tx })
  | 2 => (d.st, { d with a := setLow d.a tx })
  | 3 => (d.st, d)
  | k => (Memory.read d.reg ((d.a.toNat + k - 4) % 65536), d)

/-- The write-buffer command at position `k >= 1`. -/
def writeBuffer (d : SimDevice) (tx : Byte) : SimDevice :=
  match d.k with
  | 1 => { d with a := tx.zeroExtend 16 }
  | k => { d with buf := Memory.write d.buf ((d.a.toNat + k - 2) % 256) tx }

/-- The read-buffer command at position `k >= 1`; position 2 is the filler. -/
def readBuffer (d : SimDevice) (tx : Byte) : Byte × SimDevice :=
  match d.k with
  | 1 => (d.st, { d with a := tx.zeroExtend 16 })
  | 2 => (d.st, d)
  | k => (Memory.read d.buf ((d.a.toNat + k - 3) % 256), d)

/-- A byte after the opcode. -/
def xferInFrame (cfg : Config) (d : SimDevice) (tx : Byte) : Byte × SimDevice :=
  if d.cmd = cfg.opcWriteRegister then (d.st, d.writeRegister tx)
  else if d.cmd = cfg.opcReadRegister then d.readRegister tx
  else if d.cmd = cfg.opcWriteBuffer then (d.st, d.writeBuffer tx)
  else if d.cmd = cfg.opcReadBuffer then d.readBuffer tx
  else (d.cmdResp.getD (d.k - 1) 0, d)

/-- `Xfer(tx)` at position `k`, then `k <- k + 1`. -/
def xfer (cfg : Config) (d : SimDevice) (tx : Byte) : Byte × SimDevice :=
  if d.k = 0 then (d.st, { d with cmd := tx, k := 1 })
  else ((d.xferInFrame cfg tx).1, { (d.xferInFrame cfg tx).2 with k := d.k + 1 })

/-- What the device does at one micro-operation of the controller: it scripts the one answer that needs, if any. -/
def react (cfg : Config) (d : SimDevice) (m : MicroOp) (e : Environment) : Environment × SimDevice :=
  match m with
  | .wait => ({ e with busy := [d.sample.1] }, d.sample.2)
  | .cs .low => (e, { d with k := 0 })
  | .cs .high => (e, d)
  | .tx b => ({ e with rx := [(d.xfer cfg b).1] }, (d.xfer cfg b).2)
  | .txs b => ({ e with rx := [(d.xfer cfg b).1] }, (d.xfer cfg b).2)
  | .rx _ => ({ e with rx := [(d.xfer cfg cfg.nopByte).1] }, (d.xfer cfg cfg.nopByte).2)
  | .settle => (e, d)
  | .rst _ => (e, d)
  | .dlyMs _ => (e, d)
  | .modeW _ => (e, d)
  | .dbgW _ => (e, d)

/-- The distinctness the simulated device needs "to tell frames apart" (00_scope R7). -/
def tellsApart (cfg : Config) : Bool :=
  decide [cfg.opcWriteRegister, cfg.opcReadRegister, cfg.opcWriteBuffer, cfg.opcReadBuffer, cfg.opcSetOscCtrl,
    cfg.opcCalibrate].Nodup

end SimDevice

/-- One step of an operation beside the simulated device; `none` where the machine stops. -/
def simExec (i : Instr) (x : State × SimDevice) : Option (State × SimDevice) :=
  let reacted : Environment × SimDevice :=
    match x.1.seq.opl, (uprog x.1.cfg i)[x.1.seq.upc]? with
    | some _, some m => x.2.react x.1.cfg m x.1.env
    | _, _ => (x.1.env, x.2)
  match exec i { x.1 with env := reacted.1 } with
  | .next t => some (t, reacted.2)
  | .fault _ => none
  | .refused _ => none

/-- `n` steps of one operation beside the simulated device. -/
def simRun : Nat → Instr → State × SimDevice → Option (State × SimDevice)
  | 0, _, x => some x
  | n + 1, i, x => (simExec i x).bind (simRun n i)

end Sys2Proof.Machine
end

