-- ==== Sys2Proof/Safety.lean ====
section
/-! DEFINITION. The terms claims about the machine are stated in: idle states, runs of one operation, the events a rule gives an operation, what the trace says the lines are, and the invariants of 10_state R33. -/

namespace Sys2Proof.Machine

/-- The controller is idle (10_state R26, R34): nothing in flight and no debug write owed. -/
def State.IsIdle (s : State) : Prop := s.seq = Seq.idle ∧ s.dbgRest = none

/-- The six primitives and the two wrappers (43_transaction_primitives). -/
def isPrimitive : Instr → Bool
  | .issueCmd _ _ _ => true
  | .readCmd _ _ _ => true
  | .writeRegs _ _ _ => true
  | .readRegs _ _ _ => true
  | .writeBuf _ _ _ => true
  | .readBuf _ _ _ => true
  | .writeReg _ _ => true
  | .readReg _ => true
  | .select => false
  | .deselect => false
  | .waitReady => false
  | .setMode _ => false
  | .getMode => false
  | .resetDevice => false
  | .initOscCtrl => false
  | .getOscWakeupMs => false

/-- The operations that contain no wait (42_ready_handshake R123, 60_exceptions R187). -/
def neverWaits : Instr → Bool
  | .select => true
  | .deselect => true
  | .setMode _ => true
  | .getMode => true
  | .resetDevice => true
  | .getOscWakeupMs => true
  | .waitReady => false
  | .initOscCtrl => false
  | .issueCmd _ _ _ => false
  | .readCmd _ _ _ => false
  | .writeRegs _ _ _ => false
  | .readRegs _ _ _ => false
  | .writeBuf _ _ _ => false
  | .readBuf _ _ _ => false
  | .writeReg _ _ => false
  | .readReg _ => false

/-- The length an operation is asked for and the capacity it must fit (43_transaction_primitives R139). -/
def lengthAndCapacity : Instr → Option (Nat × Nat)
  | .issueCmd _ payload len => some (len, payload.length)
  | .readCmd _ len cap => some (len, cap)
  | .writeRegs _ payload len => some (len, payload.length)
  | .readRegs _ len cap => some (len, cap)
  | .writeBuf _ payload len => some (len, payload.length)
  | .readBuf _ len cap => some (len, cap)
  | .writeReg _ _ => some (1, 1)
  | .readReg _ => some (1, 1)
  | .select => none
  | .deselect => none
  | .waitReady => none
  | .setMode _ => none
  | .getMode => none
  | .resetDevice => none
  | .initOscCtrl => none
  | .getOscWakeupMs => none

/-- The length precondition holds (43_transaction_primitives R139, 30_encoding R80). -/
def lengthFits (cfg : Config) (i : Instr) : Prop :=
  ∀ len capacity, lengthAndCapacity i = some (len, capacity) → len ≤ cfg.lenMax ∧ len ≤ capacity

/-- The chip-select level each operation may be accepted with (70_reset_and_hazards R215, 41_bus_line_control R112). -/
def mayStartWith : Instr → Level → Prop
  | .deselect, l => l = .low
  | .setMode _, _ => True
  | .getMode, _ => True
  | .getOscWakeupMs, _ => True
  | .select, l => l = .high
  | .waitReady, l => l = .high
  | .resetDevice, l => l = .high
  | .initOscCtrl, l => l = .high
  | .issueCmd _ _ _, l => l = .high
  | .readCmd _ _ _, l => l = .high
  | .writeRegs _ _ _, l => l = .high
  | .readRegs _ _ _, l => l = .high
  | .writeBuf _ _ _, l => l = .high
  | .readBuf _ _ _, l => l = .high
  | .writeReg _ _, l => l = .high
  | .readReg _, l => l = .high

/-- `k` steps of one operation by its meaning: acceptance, entries, response. -/
def execFor : Nat → Instr → State → Outcome
  | 0, _, s => .next s
  | k + 1, i, s =>
    match exec i s with
    | .next t => execFor k i t
    | .fault f => .fault f
    | .refused r => .refused r

/-- `k` steps of the controller. -/
def stepFor : Nat → State → Outcome
  | 0, s => .next s
  | k + 1, s =>
    match step s with
    | .next t => stepFor k t
    | .fault f => .fault f
    | .refused r => .refused r

/-- One of the two debug lines. -/
def State.dbgLine (s : State) : DbgSignal → Level
  | .tx => s.dbgTx
  | .rx => s.dbgRx

/-- The operation is in flight and the sequencer stands at this entry of its micro-program (10_state R26). -/
def State.isAt (s : State) (i : Instr) (m : MicroOp) : Prop :=
  s.seq.opl = some i.core ∧ (uprog s.cfg i)[s.seq.upc]? = some m

/-- A wait of `n` busy samples and then a ready one stays below `MAX_POLL_ITER` (42_ready_handshake R122). -/
def waitFits (cfg : Config) (n : Nat) : Prop := ∀ m, cfg.maxPollIter = some m → n < m

/-- An outcome with its next state changed by a function. -/
def mapNext (f : State → State) : Outcome → Outcome
  | .next t => .next (f t)
  | .fault e => .fault e
  | .refused r => .refused r

/-! The events a rule gives an operation. -/

/-- `n` busy samples, each followed by one delay (42_ready_handshake R124). -/
def busyPolls (cfg : Config) : Nat → List Event
  | 0 => []
  | n + 1 => .busySample .high :: .delayUs cfg.pollIntervalUs :: busyPolls cfg n

/-- A completed wait that saw `n` busy samples: "the last event of every completed wait is `BusySample(0)`"
(42_ready_handshake R124). -/
def waitEvents (cfg : Config) (n : Nat) : List Event := busyPolls cfg n ++ [.busySample .low]

/-- A wait that took `m` samples, all busy: "at most `M` samples and `M - 1` delays" (42_ready_handshake R122). -/
def failedWaitEvents (cfg : Config) (m : Nat) : List Event := busyPolls cfg (m - 1) ++ [.busySample .high]

/-- `SEL` or `DESEL` as events: `Settle, CsWrite(l), Settle` (41_bus_line_control R111, R112). -/
def csEvents (l : Level) : List Event := [.settle, .csWrite l, .settle]

/-- The bytes the controller sends in the frame of a primitive, in order (30_encoding R86, R87). -/
def sentBytes (cfg : Config) : Instr → List Byte
  | .issueCmd opc payload len => opc :: payload.take len
  | .readCmd opc len _ => opc :: List.replicate len cfg.nopByte
  | .writeRegs addr payload len =>
    cfg.opcWriteRegister :: addr.extractLsb' 8 8 :: addr.extractLsb' 0 8 :: payload.take len
  | .readRegs addr len _ =>
    cfg.opcReadRegister :: addr.extractLsb' 8 8 :: addr.extractLsb' 0 8 :: cfg.nopByte ::
      List.replicate len cfg.nopByte
  | .writeBuf off payload len => cfg.opcWriteBuffer :: off :: payload.take len
  | .readBuf off len _ => cfg.opcReadBuffer :: off :: cfg.nopByte :: List.replicate len cfg.nopByte
  | .writeReg addr v => [cfg.opcWriteRegister, addr.extractLsb' 8 8, addr.extractLsb' 0 8, v]
  | .readReg addr =>
    [cfg.opcReadRegister, addr.extractLsb' 8 8, addr.extractLsb' 0 8, cfg.nopByte, cfg.nopByte]
  | .select => []
  | .deselect => []
  | .waitReady => []
  | .setMode _ => []
  | .getMode => []
  | .resetDevice => []
  | .initOscCtrl => []
  | .getOscWakeupMs => []

/-- The frame length (30_encoding R86, last column). -/
def frameLength : Instr → Nat
  | .issueCmd _ _ len => 1 + len
  | .readCmd _ len _ => 1 + len
  | .writeRegs _ _ len => 3 + len
  | .readRegs _ len _ => 4 + len
  | .writeBuf _ _ len => 2 + len
  | .readBuf _ len _ => 3 + len
  | .writeReg _ _ => 4
  | .readReg _ => 5
  | .select => 0
  | .deselect => 0
  | .waitReady => 0
  | .setMode _ => 0
  | .getMode => 0
  | .resetDevice => 0
  | .initOscCtrl => 0
  | .getOscWakeupMs => 0

/-- The exchanges of a frame: the bytes sent beside the bytes the device returned. -/
def frameEvents (sent received : List Byte) : List Event := List.zipWith Event.xfer sent received

/-- What a primitive returns when the device returned these bytes in its frame (30_encoding R86): the status byte of
READ_CMD is received in exchange 0, the data after the header and the filler. -/
def returned (i : Instr) (received : List Byte) : Result :=
  match i with
  | .readCmd _ _ _ => .done ((received.getD 0 0).zeroExtend 16) (received.drop 1)
  | .readRegs _ _ _ => .done 0 (received.drop 4)
  | .readReg _ => .done 0 (received.drop 4)
  | .readBuf _ _ _ => .done 0 (received.drop 3)
  | .issueCmd _ _ _ => .done 0 []
  | .writeRegs _ _ _ => .done 0 []
  | .writeBuf _ _ _ => .done 0 []
  | .writeReg _ _ => .done 0 []
  | .select => .done 0 []
  | .deselect => .done 0 []
  | .waitReady => .done 0 []
  | .setMode _ => .done 0 []
  | .getMode => .done 0 []
  | .resetDevice => .done 0 []
  | .initOscCtrl => .done 0 []
  | .getOscWakeupMs => .done 0 []

/-- The result an operation responds with from the state it responds in (30_encoding R85). -/
def responseOf (i : Instr) (s : State) : Result :=
  match i with
  | .readCmd _ _ _ => .done (s.statusOut.zeroExtend 16) s.out
  | .readRegs _ _ _ => .done 0 s.out
  | .readReg _ => .done 0 s.out
  | .readBuf _ _ _ => .done 0 s.out
  | .getMode => .done (s.mode.toBits.zeroExtend 16) []
  | .getOscWakeupMs => .done s.cfg.oscWakeupMs []
  | .issueCmd _ _ _ => .done 0 []
  | .writeRegs _ _ _ => .done 0 []
  | .writeBuf _ _ _ => .done 0 []
  | .writeReg _ _ => .done 0 []
  | .select => .done 0 []
  | .deselect => .done 0 []
  | .waitReady => .done 0 []
  | .setMode _ => .done 0 []
  | .resetDevice => .done 0 []
  | .initOscCtrl => .done 0 []

/-- The reads: the operations whose data the response carries in `OUT` (30_encoding R83, R85). -/
def returnsData : Instr → Bool
  | .readCmd _ _ _ => true
  | .readRegs _ _ _ => true
  | .readBuf _ _ _ => true
  | .readReg _ => true
  | .select => false
  | .deselect => false
  | .waitReady => false
  | .issueCmd _ _ _ => false
  | .writeRegs _ _ _ => false
  | .writeBuf _ _ _ => false
  | .writeReg _ _ => false
  | .setMode _ => false
  | .getMode => false
  | .resetDevice => false
  | .initOscCtrl => false
  | .getOscWakeupMs => false

/-- The payload stream beside an operation's request word, for the operations that have one (30_encoding R81, R83). -/
def payloadOf : Instr → Option (List Byte)
  | .issueCmd _ payload _ => some payload
  | .writeRegs _ payload _ => some payload
  | .writeBuf _ payload _ => some payload
  | .writeReg _ v => some [v]
  | .select => none
  | .deselect => none
  | .waitReady => none
  | .readCmd _ _ _ => none
  | .readRegs _ _ _ => none
  | .readBuf _ _ _ => none
  | .setMode _ => none
  | .getMode => none
  | .resetDevice => none
  | .initOscCtrl => none
  | .getOscWakeupMs => none
  | .readReg _ => none

/-- The capacity stated beside an operation's request word, for the operations that have one (30_encoding R81, R83). -/
def capacityOf : Instr → Option Nat
  | .readCmd _ _ cap => some cap
  | .readRegs _ _ cap => some cap
  | .readBuf _ _ cap => some cap
  | .readReg _ => some 1
  | .select => none
  | .deselect => none
  | .waitReady => none
  | .issueCmd _ _ _ => none
  | .writeRegs _ _ _ => none
  | .writeBuf _ _ _ => none
  | .setMode _ => none
  | .getMode => none
  | .resetDevice => none
  | .initOscCtrl => none
  | .getOscWakeupMs => none
  | .writeReg _ _ => none

/-! What the trace says of the lines: each event replayed over the level before it. -/

/-- `CS_N` after the events. -/
def csAfter (l : Level) : List Event → Level
  | [] => l
  | .csWrite l' :: es => csAfter l' es
  | _ :: es => csAfter l es

/-- `RESET_N` after the events. -/
def resetAfter (l : Level) : List Event → Level
  | [] => l
  | .rstWrite l' :: es => resetAfter l' es
  | _ :: es => resetAfter l es

/-- One debug line after the events. -/
def dbgAfter (d : DbgSignal) (l : Level) : List Event → Level
  | [] => l
  | .dbgWrite d' l' :: es => if d' = d then dbgAfter d l' es else dbgAfter d l es
  | _ :: es => dbgAfter d l es

/-- "no `Xfer` event occurs anywhere in the trace while `CS_N = 1`" (41_bus_line_control R113(c)), the line starting
at a level. -/
def noXferWhileHigh (l : Level) : List Event → Bool
  | [] => true
  | .csWrite l' :: es => noXferWhileHigh l' es
  | .xfer _ _ :: es => decide (l = .low) && noXferWhileHigh l es
  | _ :: es => noXferWhileHigh l es

/-- Every latch is what the trace last wrote, from the levels of 10_state R34, and no byte was exchanged with
chip-select high (41_bus_line_control R113(c), R114). -/
def LinesFollowTrace (s : State) : Prop :=
  s.csN = csAfter .high s.trace ∧ s.resetN = resetAfter .high s.trace ∧
    s.dbgTx = dbgAfter .tx .low s.trace ∧ s.dbgRx = dbgAfter .rx .low s.trace ∧
    noXferWhileHigh .high s.trace = true

/-! What the trace says was commanded: the mode, and the chip-select level a bare SELECT or DESELECT leaves. -/

/-- The mode the last accepted SET_MODE of a trace names, or the one before the trace (44_mode_tracker R161, R165). -/
def lastCommanded (m : OperatingMode) : List Event → OperatingMode
  | [] => m
  | .req (.setMode m') :: es => lastCommanded m' es
  | _ :: es => lastCommanded m es

/-- The level the bare operations of a trace have left chip-select at: SELECT leaves it low until the DESELECT that
follows (70_reset_and_hazards R215: "no bare `SELECT` left open"); no other operation leaves it elsewhere than it was. -/
def chipSelectLeft (l : Level) : List Event → Level
  | [] => l
  | .req .select :: es => chipSelectLeft .low es
  | .req .deselect :: es => chipSelectLeft .high es
  | _ :: es => chipSelectLeft l es

/-! The invariant of the sequencer and the lines. -/

/-- `CS_N` after the entries of a micro-program, from the level before them. -/
def csAfterOps (l : Level) : List MicroOp → Level
  | [] => l
  | .cs l' :: ms => csAfterOps l' ms
  | _ :: ms => csAfterOps l ms

/-- `RESET_N` after the entries of a micro-program. -/
def resetAfterOps (l : Level) : List MicroOp → Level
  | [] => l
  | .rst l' :: ms => resetAfterOps l' ms
  | _ :: ms => resetAfterOps l ms

/-- How many data bytes the entries receive. -/
def dataCount : List MicroOp → Nat
  | [] => 0
  | .rx _ :: ms => dataCount ms + 1
  | _ :: ms => dataCount ms

/-- The debug lines show the mode (10_state R33(c)). -/
def debugShows (s : State) (m : OperatingMode) : Prop :=
  s.cfg.debugEn = true → (s.dbgTx, s.dbgRx) = dbg m

/-- The mode a SET_MODE in flight carries. -/
def modeCarried : Instr → Option OperatingMode
  | .setMode m => some m
  | .select => none
  | .deselect => none
  | .waitReady => none
  | .issueCmd _ _ _ => none
  | .readCmd _ _ _ => none
  | .writeRegs _ _ _ => none
  | .readRegs _ _ _ => none
  | .writeBuf _ _ _ => none
  | .readBuf _ _ _ => none
  | .getMode => none
  | .resetDevice => none
  | .initOscCtrl => none
  | .getOscWakeupMs => none
  | .writeReg _ _ => none
  | .readReg _ => none

/-- The lines while SET_MODE `m` is in flight over the mode `old` (44_mode_tracker R163): "each output holds either its
old or its new level". Before the store and after it both show `old`; between the two writes the line already written
shows `m` and the other, `dbgRest`, still `old`; at the end both show `m`. `MODE` is `old` until the store, then `m`. -/
def debugWhileSetting (s : State) (m old : OperatingMode) : Prop :=
  match s.seq.upc, s.dbgRest with
  | 0, none => s.mode = old ∧ debugShows s old
  | 1, none => s.mode = m ∧ debugShows s old
  | 1, some d =>
    s.mode = m ∧ s.cfg.debugEn = true ∧ s.dbgLine d.other = dbgLevel m d.other ∧ s.dbgLine d = dbgLevel old d
  | 2, none => s.mode = m ∧ debugShows s m
  | _, _ => False

/-- `MODE` and the debug lines while an operation is in flight: only SET_MODE moves them (10_state R21, R24). The mode
it leaves is the one commanded before its own request, the last of the trace. -/
def modeInFlight (s : State) (op : Instr) : Prop :=
  match modeCarried op with
  | some m => ∃ es ds, s.trace = es ++ .req (.setMode m) :: ds ∧ (∀ j, Event.req j ∉ ds) ∧
      debugWhileSetting s m (lastCommanded s.cfg.modeReset es)
  | none => s.mode = lastCommanded s.cfg.modeReset s.trace ∧ debugShows s s.mode ∧ s.dbgRest = none

/-- The invariant every step keeps. Idle: `SEQ = (none, 0, 0)`, `CS_N = 1` unless a bare SELECT was left open,
`RESET_N = 1`, `MODE` is the last commanded mode and the debug lines show it (10_state R33(a), (b), (c), 44_mode_tracker
R161). In flight: the latched operation is no wrapper's, `UPC` stays within its micro-program (R26), the two lines are
where its entries up to `UPC` put them, and chip-select ends where the bare operations accepted so far leave it; `OUT`
holds exactly the data bytes received so far (R30), and a counted wait is at a `WAIT` entry. -/
def MachineInv (s : State) : Prop :=
  match s.seq.opl with
  | none => s.seq = Seq.idle ∧ s.dbgRest = none ∧ s.csN = chipSelectLeft .high s.trace ∧ s.resetN = .high ∧
      s.mode = lastCommanded s.cfg.modeReset s.trace ∧ debugShows s s.mode
  | some op =>
    op.core = op ∧ lengthFits s.cfg op ∧ s.seq.upc ≤ (uprog s.cfg op).length ∧
      (∃ l, mayStartWith op l ∧ s.csN = csAfterOps l ((uprog s.cfg op).take s.seq.upc) ∧
        csAfterOps l (uprog s.cfg op) = chipSelectLeft .high s.trace) ∧
      s.resetN = resetAfterOps .high ((uprog s.cfg op).take s.seq.upc) ∧
      s.out.length = dataCount ((uprog s.cfg op).take s.seq.upc) ∧
      (s.seq.pollCnt ≠ 0 → (uprog s.cfg op)[s.seq.upc]? = some .wait) ∧
      modeInFlight s op

/-! The history of `MODE`. -/

/-- `MODE` is "the last value written by `SET_MODE`, or `MODE_RESET` if none was written since reset"
(44_mode_tracker R161): only a SET_MODE accepted and not yet stored is ahead of it. -/
def ModeFollowsTrace (s : State) : Prop :=
  (∃ m es, s.seq = ⟨some (.setMode m), 0, 0⟩ ∧ s.trace = es ++ [.req (.setMode m)] ∧
      s.mode = lastCommanded s.cfg.modeReset es) ∨
    ((∀ m, s.seq.opl = some (.setMode m) → s.seq.upc ≠ 0) ∧
      s.mode = lastCommanded s.cfg.modeReset s.trace)

end Sys2Proof.Machine
end

