-- ==== Sys2Proof/Certificates/Slice0/Obligations.lean ====
section
/-! DEFINITION. The statements for the provers. Each docstring names the rules of spec/ it formalises and, where it rests on one, the spec's own decision (D<n> of 92_eei_decisions) or the model's choice (log <n>). -/

open Sys2Proof Sys2Proof.Machine

/-! ## Reset -/

/-- 10_state R34, 70_reset_and_hazards R210 to R212: what the controller's reset leaves, for every configuration; a reset
from outside leaves the same from every state, and keeps the parameters. The levels are the spec's decision D4, `MODE_RESET` = STANDBY_RC
its decision D3. `STATUS_OUT` is unspecified and not stated. -/
def Obligations.ResetPutsEveryElementAtItsResetValue : Prop :=
  (∀ cfg : Config,
    (State.resetWith cfg).mode = cfg.modeReset ∧ (State.resetWith cfg).csN = .high ∧
      (State.resetWith cfg).resetN = .high ∧
      (State.resetWith cfg).dbgLines = (if cfg.debugEn then some (.low, .low) else none) ∧
      (State.resetWith cfg).seq = ⟨none, 0, 0⟩ ∧ (State.resetWith cfg).out = [] ∧
      (State.resetWith cfg).trace = [] ∧ (State.resetWith cfg).cfg = cfg) ∧
    (∀ s : State, s.externalReset.cfg = s.cfg ∧ s.externalReset.mode = s.cfg.modeReset ∧
      s.externalReset.csN = .high ∧ s.externalReset.resetN = .high ∧
      s.externalReset.dbgLines = (if s.cfg.debugEn then some (.low, .low) else none) ∧
      s.externalReset.seq = ⟨none, 0, 0⟩ ∧ s.externalReset.out = [] ∧ s.externalReset.trace = []) ∧
    State.reset = State.resetWith Config.hardware ∧ State.reset.mode = .standbyRc ∧
    Config.hardware.valid = true ∧ Config.hardware.base = true

/-- 10_state R33, R34: the three invariants below hold at reset. -/
def Obligations.ResetMeetsTheInvariants : Prop :=
  MachineInv State.reset ∧ LinesFollowTrace State.reset ∧ ModeFollowsTrace State.reset

/-! ## Invariants every step keeps -/

/-- 10_state R26, R30, R33, 44_mode_tracker R161, R163: the sequencer stays inside its micro-program with the lines where
its entries put them and `OUT` holds the data bytes received so far; whenever the controller is idle `CS_N = 1` unless a
bare SELECT was left open, `RESET_N = 1`, `MODE` is the last commanded mode and the debug lines show it; inside SET_MODE
each debug line shows its old level until it is written and then its new one. The micro-program sequencer is the spec's
decision D1, the two orders of the debug writes D21, the two steps they take the model's choice (log 5). -/
def Obligations.StepKeepsSequencerAndLines : Prop :=
  ∀ s t : State, MachineInv s → step s = .next t → MachineInv t

/-- 41_bus_line_control R113(c), R114, 10_state R22 to R24: each latch is what the trace last wrote to it, and no byte is
exchanged anywhere in the trace while `CS_N = 1`. -/
def Obligations.StepKeepsLatchesAndTraceInAgreement : Prop :=
  ∀ s t : State, LinesFollowTrace s → step s = .next t → LinesFollowTrace t

/-- 44_mode_tracker R161, R165: `MODE` is the mode of the last SET_MODE, or `MODE_RESET`. -/
def Obligations.StepKeepsModeTheLastCommanded : Prop :=
  ∀ s t : State, ModeFollowsTrace s → step s = .next t → ModeFollowsTrace t

/-- 20_memory R68, 70_reset_and_hazards R225, 10_state R26: from a state that meets the invariant no step stops with a
fault of the machine. -/
def Obligations.StepFromInvariantNeverFaults : Prop :=
  ∀ s : State, MachineInv s → ∀ f, step s ≠ .fault f

/-- 10_state R20, R29, 00_scope R10: the configuration is fixed for a run and events are only ever appended. -/
def Obligations.StepAppendsToTheTraceAndKeepsConfiguration : Prop :=
  ∀ s t : State, step s = .next t → t.cfg = s.cfg ∧ ∃ es, t.trace = s.trace ++ es

/-! ## The step -/

/-- 10_state R26, 30_encoding R84, 70_reset_and_hazards R210: an idle controller takes the granted request, decodes it
and runs its meaning; in flight it runs the latched operation's; with no request it does nothing (the model's choice,
log 6). With one requester the granted request is the head of its queue (60_exceptions R200). -/
def Obligations.StepRunsTheDecodedOperation : Prop :=
  (∀ (s t : State) (r : Request) (i : Instr), s.seq.opl = none → s.grantNext = some (r, t) →
    decode r = .ok i → step s = exec i t) ∧
  (∀ (s : State) (op : Instr), s.seq.opl = some op → step s = exec op s) ∧
  (∀ s : State, s.seq.opl = none → s.grantNext = none → step s = .next s) ∧
  (∀ (s : State) (r : Request) (rest : List Request) (others : List (List Request)), s.cfg.nRequesters = 1 →
    s.requests = (r :: rest) :: others →
    s.grantNext = some (r, { s with requests := rest :: others, grant := some 0 }))

/-- The model's loading of one request (log 6): the next step takes exactly the word it is given. -/
def Obligations.FetchedWordIsTheNextOperation : Prop :=
  ∀ (s : State) (w : Nat) (i : Instr), s.cfg.nRequesters = 1 → decodeTableWord 40 w = some i →
    step (s.withFetchWord 40 w) = exec i { s with seq := Seq.idle, requests := [[]], grant := some 0 }

/-- 30_encoding R90 (D23): a request whose word is reserved is refused. -/
def Obligations.ReservedWordsAreRefused : Prop :=
  ∀ (s t : State) (r : Request), s.seq.opl = none → s.grantNext = some (r, t) →
    (∀ row ∈ opcodeTable, row.covers r.word = false) → ∃ why, step s = .refused (.reservedRequest why)

/-- 60_exceptions R200 (D22): the arbiter grants only a waiting requester, gives it its own next request, may grant any of
those waiting, and the grant stands until the response. -/
def Obligations.ArbiterGrantsAnyWaitingRequester : Prop :=
  (∀ (s t : State) (r : Request), s.grantNext = some (r, t) →
    ∃ q ∈ s.waiting, t.grant = some q ∧ ∃ rest, s.requests.getD q [] = r :: rest ∧
      t.requests = s.requests.set q rest) ∧
  (∀ (s : State) (q : Nat), q ∈ s.waiting → ∃ (k : Nat) (r : Request) (t : State),
    ({ s with env := { s.env with grants := k :: s.env.grants } } : State).grantNext = some (r, t) ∧
      t.grant = some q) ∧
  (∀ (s t : State) (op : Instr), s.seq.opl = some op → step s = .next t →
    (t.seq.opl = some op ∧ t.grant = s.grant) ∨ (t.seq.opl = none ∧ t.grant = none))

/-- 43_transaction_primitives R143: while an operation is in flight no other is accepted: a step runs the one in flight,
takes no request from any queue and emits no `Req`; a meaning asked for another operation refuses. -/
def Obligations.NoOperationIsAcceptedInFlight : Prop :=
  (∀ (s t : State) (op : Instr), s.seq.opl = some op → step s = .next t →
    t.requests = s.requests ∧ ∃ es, t.trace = s.trace ++ es ∧ ∀ j, Event.req j ∉ es) ∧
  (∀ (s : State) (op i : Instr), s.seq.opl = some op → op ≠ i.core → exec i s = .refused .operationInFlight)

/-! ## Acceptance, entries, response: every operation -/

/-- 30_encoding R84, 10_state R26, R30: an idle controller accepts every operation that R215 and R139 allow. What
`STATUS_OUT` is cleared to is the model's reading (log 4) and left open here. -/
def Obligations.IdleControllerAccepts : Prop :=
  ∀ (i : Instr) (s : State), s.seq.opl = none → mayStartWith i s.csN → lengthFits s.cfg i →
    ∃ b, exec i s = .next { s with
      seq := ⟨some i.core, 0, 0⟩, out := [], statusOut := b, trace := s.trace ++ [.req i.core] }

/-- 30_encoding R96 with 10_state R26: every entry answers a next state, with the effect and the event the vocabulary
gives it, and `UPC` advances (a poll that stays is `WaitReturnsOnlyAfterALowSample`; the first of two debug writes stays,
log 5). The vocabulary is the spec's decision D1. -/
def Obligations.EveryEntryHasItsEffect : Prop :=
  ∀ (i : Instr) (s : State) (m : MicroOp), s.isAt i m → (m.isXfer = true → s.csN = .low) →
    ∃ t, exec i s = .next t ∧
      (m ≠ .wait → (∀ mode, m = .dbgW mode → s.cfg.debugEn = false ∨ s.dbgRest ≠ none) →
        t.seq = { s.seq with upc := s.seq.upc + 1 }) ∧
      (m = .settle → t.trace = s.trace ++ [.settle]) ∧
      (∀ l, m = .cs l → t.csN = l ∧ t.trace = s.trace ++ [.csWrite l]) ∧
      (∀ b, m = .tx b → t.trace = s.trace ++ [.xfer b s.env.nextRx.1] ∧ t.out = s.out ∧
        t.statusOut = s.statusOut) ∧
      (∀ b, m = .txs b → t.trace = s.trace ++ [.xfer b s.env.nextRx.1] ∧ t.statusOut = s.env.nextRx.1 ∧
        t.out = s.out) ∧
      (∀ k, m = .rx k → t.trace = s.trace ++ [.xfer s.cfg.nopByte s.env.nextRx.1] ∧
        (k ≤ s.out.length → t.out[k]? = some s.env.nextRx.1) ∧
        (∀ j, j ≠ k → j < s.out.length → t.out[j]? = s.out[j]?) ∧ t.statusOut = s.statusOut) ∧
      (∀ l, m = .rst l → t.resetN = l ∧ t.trace = s.trace ++ [.rstWrite l]) ∧
      (∀ n, m = .dlyMs n → t.trace = s.trace ++ [.delayMs n]) ∧
      (∀ mode, m = .modeW mode → t.mode = mode ∧ t.trace = s.trace) ∧
      (∀ mode d, m = .dbgW mode → s.cfg.debugEn = true →
        (s.dbgRest = some d ∨ (s.dbgRest = none ∧ s.env.nextDbgFirst.1 = d)) →
        t.dbgLine d = dbgLevel mode d ∧ t.dbgLine d.other = s.dbgLine d.other ∧
          t.trace = s.trace ++ [.dbgWrite d (dbgLevel mode d)]) ∧
      (∀ mode, m = .dbgW mode → s.cfg.debugEn = false → t.trace = s.trace ∧ t.dbgTx = s.dbgTx ∧ t.dbgRx = s.dbgRx)

/-- 10_state R26, 30_encoding R85, 00_scope R11: at the end of its micro-program every operation responds `Done` with the
values of R85 and leaves the controller idle, every line and `MODE` as they were. The response word is the spec's decision
D5. That a read's data stay in `OUT` after its response, and READ_CMD's status byte in `STATUS_OUT`, is the model's reading
(log 4). -/
def Obligations.EveryOperationRespondsAtItsEnd : Prop :=
  ∀ (i : Instr) (s : State), s.seq.opl = some i.core → s.seq.upc = (uprog s.cfg i).length →
    ∃ t, exec i s = .next t ∧ t.trace = s.trace ++ [.resp (responseOf i s)] ∧ t.seq = ⟨none, 0, 0⟩ ∧
      t.mode = s.mode ∧ t.csN = s.csN ∧ t.resetN = s.resetN ∧ t.dbgTx = s.dbgTx ∧ t.dbgRx = s.dbgRx ∧
      t.requests = s.requests ∧ t.cfg = s.cfg ∧
      (returnsData i = true → t.out = s.out) ∧
      (∀ opc len cap, i = .readCmd opc len cap → t.statusOut = s.statusOut)

/-- The model's choice (log 10): a meaning stops with a fault of the machine exactly where the spec gives the sequencer no
step: 70_reset_and_hazards R225 gives an exchange one only with `CS_N = 0`, and by 10_state R26 `UPC` is never past the end.
No rule gives these stops or their names; the spec's own faults are responses (60_exceptions R194). -/
def Obligations.MeaningsFaultExactlyOutsideTheirFrame : Prop :=
  ∀ (i : Instr) (s : State),
    (∀ m, s.isAt i m → m.isXfer = true → s.csN = .high → exec i s = .fault .transferWhileDeselected) ∧
    (s.seq.opl = some i.core → (uprog s.cfg i).length < s.seq.upc → exec i s = .fault .sequencerPastEnd) ∧
    (∀ f, exec i s = .fault f →
      (∃ m, s.isAt i m ∧ m.isXfer = true ∧ s.csN = .high) ∨
        (s.seq.opl = some i.core ∧ (uprog s.cfg i).length < s.seq.upc))

/-- 70_reset_and_hazards R215 (D24), 43_transaction_primitives R139 (D15): an idle controller refuses an operation exactly
when chip-select is in the wrong state for it or its length is above its capacity unchecked or, the model's own refusal
(log 9), above `LEN_MAX`. That chip-select is looked at before the length is the model's order too (log 9). -/
def Obligations.AcceptanceRefusesExactlyTheBreaches : Prop :=
  ∀ (i : Instr) (s : State), s.seq.opl = none →
    (¬ mayStartWith i s.csN →
      exec i s = .refused (if i = .deselect then .chipSelectClosed else .chipSelectOpen)) ∧
    (∀ len capacity, mayStartWith i s.csN → lengthAndCapacity i = some (len, capacity) →
      (s.cfg.lenMax < len → exec i s = .refused (.lengthAboveLenMax len)) ∧
      (len ≤ s.cfg.lenMax → capacity < len → s.cfg.checkLength = false →
        exec i s = .refused (.lengthAboveCapacity len capacity))) ∧
    (∀ r, exec i s = .refused r → ¬ mayStartWith i s.csN ∨
      ∃ len capacity, lengthAndCapacity i = some (len, capacity) ∧
        (s.cfg.lenMax < len ∨ (capacity < len ∧ s.cfg.checkLength = false)))

/-! ## Whole operations, from acceptance to response -/

/-- 41_bus_line_control R111, R112: SELECT and DESELECT, whatever the device answers. -/
def Obligations.BareChipSelectOperationsRun : Prop :=
  (∀ s : State, s.IsIdle → s.csN = .high →
    ∃ t, execFor 5 .select s = .next t ∧ t.csN = .low ∧ t.IsIdle ∧
      t.trace = s.trace ++ ([.req .select] ++ csEvents .low ++ [.resp (.done 0 [])]) ∧
      t.mode = s.mode ∧ t.resetN = s.resetN ∧ t.dbgTx = s.dbgTx ∧ t.dbgRx = s.dbgRx ∧
      t.env.busy = s.env.busy ∧ t.env.rx = s.env.rx) ∧
  (∀ s : State, s.IsIdle → s.csN = .low →
    ∃ t, execFor 5 .deselect s = .next t ∧ t.csN = .high ∧ t.IsIdle ∧
      t.trace = s.trace ++ ([.req .deselect] ++ csEvents .high ++ [.resp (.done 0 [])]) ∧
      t.mode = s.mode ∧ t.resetN = s.resetN ∧ t.dbgTx = s.dbgTx ∧ t.dbgRx = s.dbgRx ∧
      t.env.busy = s.env.busy ∧ t.env.rx = s.env.rx)

/-- 42_ready_handshake R120 (sample first: D12): WAIT_READY against a device busy for `n` polls: its events, and `CS_N`,
`MODE`, `RESET_N`, the debug lines, the queues, the configuration and the bytes to come kept. `OUT` and `STATUS_OUT` are
not kept: they are cleared at acceptance (10_state R30) and unspecified after the response (log 4). -/
def Obligations.WaitReadyRuns : Prop :=
  ∀ (s : State) (n : Nat) (rest : List Level), s.IsIdle → s.csN = .high → waitFits s.cfg n →
    s.env.busy = List.replicate n .high ++ .low :: rest →
    ∃ t, execFor (n + 3) .waitReady s = .next t ∧ t.csN = .high ∧ t.IsIdle ∧
      t.trace = s.trace ++ ([.req .waitReady] ++ waitEvents s.cfg n ++ [.resp (.done 0 [])]) ∧
      t.mode = s.mode ∧ t.resetN = s.resetN ∧ t.dbgTx = s.dbgTx ∧ t.dbgRx = s.dbgRx ∧
      t.requests = s.requests ∧ t.cfg = s.cfg ∧ t.env.busy = rest ∧ t.env.rx = s.env.rx

/-- 43_transaction_primitives R130 to R138, R141, R142, 41_bus_line_control R113, 30_encoding R86: every primitive and
wrapper, with every operand, against a device busy for `a` polls before and `b` polls after, that returns any bytes: one
handshake, one chip-select rise and fall around exactly the bytes of the frame, one handshake, the response. Which
received byte is the status byte is the spec's decision D9, the order of data bytes D11, the filler byte D8. -/
def Obligations.PrimitiveRunsFromHandshakeToHandshake : Prop :=
  ∀ (i : Instr) (s : State) (a b : Nat) (received : List Byte) (busy' : List Level) (rx' : List Byte),
    isPrimitive i = true → s.IsIdle → s.csN = .high → lengthFits s.cfg i →
    waitFits s.cfg a → waitFits s.cfg b →
    s.env.busy = List.replicate a .high ++ .low :: (List.replicate b .high ++ .low :: busy') →
    s.env.rx = received ++ rx' → received.length = frameLength i →
    ∃ t, execFor (a + b + frameLength i + 10) i s = .next t ∧
      t.trace = s.trace ++ ([.req i.core] ++ waitEvents s.cfg a ++ csEvents .low ++
        frameEvents (sentBytes s.cfg i) received ++ csEvents .high ++ waitEvents s.cfg b ++
        [.resp (returned i received)]) ∧
      t.csN = .high ∧ t.IsIdle ∧ t.mode = s.mode ∧ t.resetN = s.resetN ∧ t.dbgTx = s.dbgTx ∧
      t.dbgRx = s.dbgRx ∧ t.requests = s.requests ∧ t.env.busy = busy' ∧ t.env.rx = rx'

/-- 42_ready_handshake R122, 43_transaction_primitives R142, 60_exceptions R187, R194 (D14, D17): a primitive of the
hardened variant that meets a device busy for `MAX_POLL_ITER` polls: a fault in the leading wait leaves no `CsWrite` and
no exchange at all, a fault in the trailing wait both edges and the whole frame; `CS_N = 1` in both. -/
def Obligations.HardenedPrimitiveFaultsInEitherWait : Prop :=
  ∀ (i : Instr) (s : State) (m : Nat), isPrimitive i = true → s.IsIdle → s.csN = .high →
    lengthFits s.cfg i → s.cfg.maxPollIter = some m → 1 ≤ m →
    (∀ rest, s.env.busy = List.replicate m .high ++ rest →
      ∃ t, execFor (m + 1) i s = .next t ∧
        t.trace = s.trace ++ ([.req i.core] ++ failedWaitEvents s.cfg m ++
          [.resp (.fault (.deviceNotResponding m))]) ∧
        t.csN = .high ∧ t.IsIdle ∧ t.mode = s.mode) ∧
    (∀ (a : Nat) (received : List Byte) (rest : List Level) (rx' : List Byte), a < m →
      s.env.busy = List.replicate a .high ++ .low :: (List.replicate m .high ++ rest) →
      s.env.rx = received ++ rx' → received.length = frameLength i →
      ∃ t, execFor (a + m + frameLength i + 8) i s = .next t ∧
        t.trace = s.trace ++ ([.req i.core] ++ waitEvents s.cfg a ++ csEvents .low ++
          frameEvents (sentBytes s.cfg i) received ++ csEvents .high ++ failedWaitEvents s.cfg m ++
          [.resp (.fault (.deviceNotResponding m))]) ∧
        t.csN = .high ∧ t.IsIdle ∧ t.mode = s.mode)

/-- 44_mode_tracker R160, R163 (either order: D21; the model's free order: log 5): SET_MODE with `DEBUG_EN = 1`. After
three steps exactly one of the two lines is written, the other still at its old level; at the end both show the mode. -/
def Obligations.SetModeMirrorsInEitherOrder : Prop :=
  ∀ (mode : OperatingMode) (s : State) (d : DbgSignal), s.IsIdle → s.cfg.debugEn = true →
    s.env.nextDbgFirst.1 = d →
    (∃ u, execFor 3 (.setMode mode) s = .next u ∧ u.mode = mode ∧ u.dbgLine d = dbgLevel mode d ∧
      u.dbgLine d.other = s.dbgLine d.other ∧
      u.trace = s.trace ++ [.req (.setMode mode), .dbgWrite d (dbgLevel mode d)]) ∧
    ∃ t, execFor 5 (.setMode mode) s = .next t ∧ t.mode = mode ∧ (t.dbgTx, t.dbgRx) = dbg mode ∧
      t.trace = s.trace ++ [.req (.setMode mode), .dbgWrite d (dbgLevel mode d),
        .dbgWrite d.other (dbgLevel mode d.other), .resp (.done 0 [])] ∧
      t.IsIdle ∧ t.csN = s.csN ∧ t.resetN = s.resetN ∧ t.requests = s.requests ∧
      t.env.busy = s.env.busy ∧ t.env.rx = s.env.rx

/-- 44_mode_tracker R160, R164: SET_MODE with `DEBUG_EN = 0` is the register write alone. -/
def Obligations.SetModeWithoutMirrorWritesModeAlone : Prop :=
  ∀ (mode : OperatingMode) (s : State), s.IsIdle → s.cfg.debugEn = false →
    ∃ t, execFor 4 (.setMode mode) s = .next t ∧ t.mode = mode ∧
      t.trace = s.trace ++ [.req (.setMode mode), .resp (.done 0 [])] ∧
      t.dbgTx = s.dbgTx ∧ t.dbgRx = s.dbgRx ∧ t.IsIdle ∧ t.csN = s.csN ∧ t.resetN = s.resetN ∧
      t.requests = s.requests ∧ t.env.busy = s.env.busy ∧ t.env.rx = s.env.rx

/-- 44_mode_tracker R161, 45_startup_sequencer R170: GET_MODE returns the stored value, GET_OSC_WAKEUP_MS the constant,
each "with no side effect" on any line, register or device. -/
def Obligations.QueriesReturnTheirValue : Prop :=
  ∀ s : State, s.IsIdle →
    (∃ t, execFor 2 .getMode s = .next t ∧
      t.trace = s.trace ++ [.req .getMode, .resp (.done (s.mode.toBits.zeroExtend 16) [])] ∧
      t.IsIdle ∧ t.mode = s.mode ∧ t.csN = s.csN ∧ t.resetN = s.resetN ∧ t.dbgTx = s.dbgTx ∧
      t.dbgRx = s.dbgRx ∧ t.requests = s.requests ∧ t.env.busy = s.env.busy ∧ t.env.rx = s.env.rx) ∧
    (∃ t, execFor 2 .getOscWakeupMs s = .next t ∧
      t.trace = s.trace ++ [.req .getOscWakeupMs, .resp (.done s.cfg.oscWakeupMs [])] ∧
      t.IsIdle ∧ t.mode = s.mode ∧ t.csN = s.csN ∧ t.resetN = s.resetN ∧ t.dbgTx = s.dbgTx ∧
      t.dbgRx = s.dbgRx ∧ t.requests = s.requests ∧ t.env.busy = s.env.busy ∧ t.env.rx = s.env.rx)

/-- 45_startup_sequencer R172, R173, R175: RESET_DEVICE pulses the line with both delays at least 10 ms under a valid
configuration, whatever BUSY reads, and leaves `MODE`, `CS_N` and the debug lines. -/
def Obligations.ResetDevicePulsesTheResetLine : Prop :=
  ∀ s : State, s.IsIdle → s.csN = .high →
    (s.cfg.valid = true → 10 ≤ s.cfg.tResetLowMs ∧ 10 ≤ s.cfg.tResetReleaseMs) ∧
    ∃ t, execFor 7 .resetDevice s = .next t ∧
      t.trace = s.trace ++ [.req .resetDevice, .rstWrite .high, .rstWrite .low, .delayMs s.cfg.tResetLowMs,
        .rstWrite .high, .delayMs s.cfg.tResetReleaseMs, .resp (.done 0 [])] ∧
      t.resetN = .high ∧ t.IsIdle ∧ t.mode = s.mode ∧ t.csN = s.csN ∧ t.dbgTx = s.dbgTx ∧
      t.dbgRx = s.dbgRx ∧ t.cfg = s.cfg ∧ t.env.busy = s.env.busy ∧ t.env.rx = s.env.rx

/-- 45_startup_sequencer R171, R174, 30_encoding R87(e): INIT_OSC_CTRL sends the oscillator frame and then the calibration
frame, each with its own two handshakes, and responds once. The payload layout is the spec's decision D18. -/
def Obligations.InitOscCtrlSendsItsTwoFrames : Prop :=
  ∀ (s : State) (a b c d : Nat) (got1 got2 : List Byte) (busy' : List Level) (rx' : List Byte),
    s.IsIdle → s.csN = .high →
    waitFits s.cfg a → waitFits s.cfg b → waitFits s.cfg c → waitFits s.cfg d →
    s.env.busy = List.replicate a .high ++ .low :: (List.replicate b .high ++ .low ::
      (List.replicate c .high ++ .low :: (List.replicate d .high ++ .low :: busy'))) →
    s.env.rx = got1 ++ (got2 ++ rx') → got1.length = 5 → got2.length = 2 →
    ∃ t, execFor (a + b + c + d + 25) .initOscCtrl s = .next t ∧
      t.trace = s.trace ++ ([.req .initOscCtrl] ++
        waitEvents s.cfg a ++ csEvents .low ++
        frameEvents [s.cfg.opcSetOscCtrl, s.cfg.oscVoltageCode, (wakeup s.cfg).extractLsb' 16 8,
          (wakeup s.cfg).extractLsb' 8 8, (wakeup s.cfg).extractLsb' 0 8] got1 ++
        csEvents .high ++ waitEvents s.cfg b ++
        waitEvents s.cfg c ++ csEvents .low ++
        frameEvents [s.cfg.opcCalibrate, s.cfg.calAll] got2 ++
        csEvents .high ++ waitEvents s.cfg d ++ [.resp (.done 0 [])]) ∧
      t.csN = .high ∧ t.IsIdle ∧ t.mode = s.mode ∧ t.resetN = s.resetN ∧ t.dbgTx = s.dbgTx ∧
      t.dbgRx = s.dbgRx ∧ t.requests = s.requests ∧ t.env.busy = busy' ∧ t.env.rx = rx'

/-! ## The handshake -/

/-- 42_ready_handshake R124, for every wait of every operation: it returns only on a sample that reads low, taken in this
wait; every other sample it goes on from reads high and is followed by exactly one delay; a device busy for the first `n`
samples gives `n` delays and then the wait ends with no further one. -/
def Obligations.WaitReturnsOnlyAfterALowSample : Prop :=
  (∀ (i : Instr) (s t : State), s.isAt i .wait → exec i s = .next t → t.seq.upc = s.seq.upc + 1 →
    t.trace = s.trace ++ [.busySample .low]) ∧
  (∀ (i : Instr) (s t : State), s.isAt i .wait → exec i s = .next t → t.seq.opl = s.seq.opl →
    t.seq.upc = s.seq.upc → t.trace = s.trace ++ [.busySample .high, .delayUs s.cfg.pollIntervalUs]) ∧
  (∀ (i : Instr) (s : State) (n : Nat) (rest : List Level), s.isAt i .wait → s.seq.pollCnt = 0 →
    waitFits s.cfg n → s.env.busy = List.replicate n .high ++ .low :: rest →
    (∀ k ≤ n, ∃ t, execFor k i s = .next t ∧ t.seq.opl = s.seq.opl ∧ t.seq.upc = s.seq.upc ∧
      t.trace = s.trace ++ busyPolls s.cfg k) ∧
    execFor (n + 1) i s = .next { s with
      seq := { s.seq with upc := s.seq.upc + 1 }
      env := { s.env with busy := rest }
      trace := s.trace ++ waitEvents s.cfg n })

/-- 42_ready_handshake R121: with `MAX_POLL_ITER = unbounded` a wait has no exit but a low sample: a device that stays busy
keeps the controller sampling and delaying, with no response and no other request accepted, for as long as it stays so. -/
def Obligations.UnboundedWaitNeverGivesUp : Prop :=
  (∀ (i : Instr) (s : State), s.isAt i .wait → s.cfg.maxPollIter = none →
    ∃ t, step s = .next t ∧ t.seq.opl = s.seq.opl ∧
      (s.env.nextBusy.1 = .high → t.seq.upc = s.seq.upc) ∧
      (s.env.nextBusy.1 = .low → t.seq.upc = s.seq.upc + 1)) ∧
  (∀ (i : Instr) (s : State) (n : Nat) (rest : List Level), s.isAt i .wait → s.cfg.maxPollIter = none →
    s.env.busy = List.replicate n .high ++ rest →
    ∃ t, stepFor n s = .next t ∧ t.seq.opl = s.seq.opl ∧ t.seq.upc = s.seq.upc ∧
      t.trace = s.trace ++ busyPolls s.cfg n ∧ t.requests = s.requests ∧ t.csN = s.csN ∧ t.mode = s.mode ∧
      t.env.busy = rest)

/-- 60_exceptions R187, R190, R194, 42_ready_handshake R122 (D14, D16, D17): the bounded wait, in every wait of every
operation: after `MAX_POLL_ITER` busy samples the operation ends with the fault, the sequencer idle, `MODE` and all the
lines as they were. -/
def Obligations.BoundedWaitTakesTheFault : Prop :=
  ∀ (i : Instr) (s : State) (m : Nat) (rest : List Level), s.isAt i .wait → s.seq.pollCnt = 0 →
    s.cfg.maxPollIter = some m → 1 ≤ m → s.env.busy = List.replicate m .high ++ rest →
    ∃ t, execFor m i s = .next t ∧
      t.trace = s.trace ++ (failedWaitEvents s.cfg m ++ [.resp (.fault (.deviceNotResponding m))]) ∧
      t.seq = ⟨none, 0, 0⟩ ∧ t.mode = s.mode ∧ t.csN = s.csN ∧ t.resetN = s.resetN ∧ t.dbgTx = s.dbgTx ∧
      t.dbgRx = s.dbgRx ∧ t.env.busy = rest ∧
      (Result.fault (.deviceNotResponding m)).word = 0x01000000#32

/-! ## Faults -/

/-- 60_exceptions R188, R193, R194, 43_transaction_primitives R139 (D15, D16): with `CHECK_LENGTH = 1` a length above the
capacity faults at acceptance, before any pin or bus event and before the device is sampled. -/
def Obligations.CheckedLengthFaultsAtAcceptance : Prop :=
  ∀ (i : Instr) (s : State) (len capacity : Nat), s.seq.opl = none → mayStartWith i s.csN →
    lengthAndCapacity i = some (len, capacity) → capacity < len → len ≤ s.cfg.lenMax →
    s.cfg.checkLength = true →
    ∃ t, exec i s = .next t ∧
      t.trace = s.trace ++ [.req i.core, .resp (.fault (.invalidArgument len capacity))] ∧
      t.seq = ⟨none, 0, 0⟩ ∧ t.mode = s.mode ∧ t.csN = s.csN ∧ t.resetN = s.resetN ∧ t.dbgTx = s.dbgTx ∧
      t.dbgRx = s.dbgRx ∧ t.env.busy = s.env.busy ∧ t.env.rx = s.env.rx ∧
      (Result.fault (.invalidArgument len capacity)).word = 0x02000000#32

/-- 60_exceptions R185: in the base contract "no operation ever raises a fault: every response is `Done`". -/
def Obligations.BaseContractRespondsOnlyDone : Prop :=
  ∀ (s t : State) (es : List Event), s.cfg.base = true → step s = .next t → t.trace = s.trace ++ es →
    ∀ f, Event.resp (.fault f) ∉ es

/-- 30_encoding R85, 60_exceptions R190 (D5, D16): the response word. -/
def Obligations.ResponseWordHasItsFields : Prop :=
  ∀ r : Result, r.word.extractLsb' 24 8 = r.code ∧ r.word.extractLsb' 16 8 = 0 ∧
    r.word.extractLsb' 0 16 = r.value ∧
    (∀ value data, r = .done value data → r.code = 0x00 ∧ r.value = value ∧ r.data = data) ∧
    (∀ n, r = .fault (.deviceNotResponding n) → r.code = 0x01 ∧ r.value = 0 ∧ r.data = []) ∧
    (∀ len capacity, r = .fault (.invalidArgument len capacity) → r.code = 0x02 ∧ r.value = 0 ∧ r.data = [])

/-! ## Frames: what an operation leaves unchanged -/

/-- 43_transaction_primitives R130, 42_ready_handshake R120, 45_startup_sequencer R171: every step of a primitive, of
WAIT_READY and of INIT_OSC_CTRL leaves `MODE`, `RESET_N`, the debug lines, the configuration and the queues; `CS_N`
changes only at a `CS` entry, to its level. -/
def Obligations.TransactionsLeaveEverythingButChipSelectAndStaging : Prop :=
  ∀ (i : Instr) (s t : State), (isPrimitive i = true ∨ i = .waitReady ∨ i = .initOscCtrl) →
    exec i s = .next t →
    t.mode = s.mode ∧ t.resetN = s.resetN ∧ t.dbgTx = s.dbgTx ∧ t.dbgRx = s.dbgRx ∧
      t.dbgRest = s.dbgRest ∧ t.cfg = s.cfg ∧ t.requests = s.requests ∧
      (t.csN = s.csN ∨ ∃ l, s.isAt i (.cs l) ∧ t.csN = l)

/-- 41_bus_line_control R111, R112, 10_state R30: every step of SELECT or DESELECT leaves `MODE`, `RESET_N`, the debug lines,
the configuration and the queues; the device is neither sampled nor sent a byte; `CS_N` changes only at the `CS` entry:
low for SELECT, high for DESELECT. `OUT` and `STATUS_OUT` stand while the operation is in flight; `OUT` is emptied at
acceptance, and after the response both are unspecified (log 4). -/
def Obligations.BareChipSelectLeavesEverythingButChipSelectAndStaging : Prop :=
  ∀ (i : Instr) (s t : State) (l : Level), ((i = .select ∧ l = .low) ∨ (i = .deselect ∧ l = .high)) →
    exec i s = .next t →
    t.mode = s.mode ∧ t.resetN = s.resetN ∧ t.dbgTx = s.dbgTx ∧ t.dbgRx = s.dbgRx ∧
      t.dbgRest = s.dbgRest ∧ t.cfg = s.cfg ∧ t.requests = s.requests ∧ t.env.busy = s.env.busy ∧
      t.env.rx = s.env.rx ∧ (t.csN = s.csN ∨ (s.isAt i (.cs l) ∧ t.csN = l)) ∧
      (s.seq.opl = none → t.out = []) ∧
      (s.seq.opl ≠ none → t.seq.opl ≠ none → t.out = s.out ∧ t.statusOut = s.statusOut)

/-- 44_mode_tracker R160, R161, R164: every step of SET_MODE leaves `CS_N`, `RESET_N` and the device, and without
`DEBUG_EN` the debug lines; every step of GET_MODE leaves `MODE` and the debug lines too. -/
def Obligations.ModeTrackerLeavesBusAndLines : Prop :=
  (∀ (mode : OperatingMode) (s t : State), exec (.setMode mode) s = .next t →
    t.csN = s.csN ∧ t.resetN = s.resetN ∧ t.cfg = s.cfg ∧ t.requests = s.requests ∧
      t.env.busy = s.env.busy ∧ t.env.rx = s.env.rx ∧ (t.mode = s.mode ∨ t.mode = mode) ∧
      (s.cfg.debugEn = false → t.dbgTx = s.dbgTx ∧ t.dbgRx = s.dbgRx)) ∧
  (∀ s t : State, exec .getMode s = .next t →
    t.csN = s.csN ∧ t.resetN = s.resetN ∧ t.cfg = s.cfg ∧ t.requests = s.requests ∧
      t.env.busy = s.env.busy ∧ t.env.rx = s.env.rx ∧ t.mode = s.mode ∧ t.dbgTx = s.dbgTx ∧
      t.dbgRx = s.dbgRx)

/-- 45_startup_sequencer R170, R172, R173, R175, 10_state R30: every step of RESET_DEVICE or GET_OSC_WAKEUP_MS leaves `MODE`,
`CS_N`, the debug lines, the configuration, the queues and the device; `RESET_N` changes only at an `RST` entry, to its
level. `OUT` and `STATUS_OUT` stand while the operation is in flight; `OUT` is emptied at acceptance, and after the
response both are unspecified (log 4). -/
def Obligations.ResetDeviceLeavesEverythingButTheResetLineAndStaging : Prop :=
  ∀ (i : Instr) (s t : State), (i = .resetDevice ∨ i = .getOscWakeupMs) → exec i s = .next t →
    t.mode = s.mode ∧ t.csN = s.csN ∧ t.dbgTx = s.dbgTx ∧ t.dbgRx = s.dbgRx ∧ t.dbgRest = s.dbgRest ∧
      t.cfg = s.cfg ∧ t.requests = s.requests ∧ t.env.busy = s.env.busy ∧ t.env.rx = s.env.rx ∧
      (t.resetN = s.resetN ∨ ∃ l, s.isAt i (.rst l) ∧ t.resetN = l) ∧
      (s.seq.opl = none → t.out = []) ∧
      (s.seq.opl ≠ none → t.seq.opl ≠ none → t.out = s.out ∧ t.statusOut = s.statusOut)

/-- 10_state R30, 30_encoding R96: while an operation stays in flight, `OUT` changes only at an `RX` entry and
`STATUS_OUT` only at a `TXS` entry. -/
def Obligations.StagingChangesOnlyWhereBytesAreReceived : Prop :=
  ∀ (i : Instr) (s t : State) (m : MicroOp), s.isAt i m → exec i s = .next t → t.seq.opl = s.seq.opl →
    ((∀ k, m ≠ .rx k) → t.out = s.out) ∧ ((∀ b, m ≠ .txs b) → t.statusOut = s.statusOut)

/-- 42_ready_handshake R123, 60_exceptions R187: SELECT, DESELECT, SET_MODE, GET_MODE, RESET_DEVICE and GET_OSC_WAKEUP_MS
sample no busy level, exchange no byte and never respond with a fault. -/
def Obligations.OperationsWithoutWaitNeverTouchTheDevice : Prop :=
  ∀ (i : Instr) (s t : State), neverWaits i = true → exec i s = .next t →
    t.env.busy = s.env.busy ∧ t.env.rx = s.env.rx ∧
      ∃ es, t.trace = s.trace ++ es ∧ (∀ l, Event.busySample l ∉ es) ∧ (∀ x y, Event.xfer x y ∉ es) ∧
        ∀ f, Event.resp (.fault f) ∉ es

/-! ## Rules about the whole machine -/

/-- 44_mode_tracker R166: nothing but the store of a SET_MODE in flight changes `MODE`, whatever the operation, its
operands, or a fault it takes. -/
def Obligations.OnlySetModeWritesMode : Prop :=
  ∀ (i : Instr) (s t : State), exec i s = .next t →
    t.mode = s.mode ∨ ∃ mode, i = .setMode mode ∧ s.isAt i (.modeW mode) ∧ t.mode = mode

/-- 10_state R21, 43_transaction_primitives R140: no operation but SET_MODE and GET_MODE reads or writes `MODE`: started
with any other value of it, it does the same and leaves that value. -/
def Obligations.OperationsAreModeAgnostic : Prop :=
  ∀ (i : Instr) (s : State) (mode : OperatingMode), modeCarried i = none → i ≠ .getMode →
    exec i { s with mode := mode } = mapNext (fun t => { t with mode := mode }) (exec i s)

/-- 30_encoding R86, 93 U14: a byte received in a header, filler or payload exchange is discarded: two devices that differ
in it leave states that differ only in the trace's record of it. -/
def Obligations.DiscardedBytesAffectNothing : Prop :=
  ∀ (i : Instr) (s : State) (b x y : Byte) (rest : List Byte), s.isAt i (.tx b) → s.csN = .low →
    ∃ t : State, exec i { s with env := { s.env with rx := x :: rest } } =
        .next { t with trace := s.trace ++ [.xfer b x] } ∧
      exec i { s with env := { s.env with rx := y :: rest } } =
        .next { t with trace := s.trace ++ [.xfer b y] }

/-- 44_mode_tracker R162: the debug output mux, all eight modes, its logic on the encoding, never both lines high; and
SET_MODE leaves the two lines so. -/
def Obligations.DebugMuxShowsTransmittingOrReceiving : Prop :=
  (∀ m : OperatingMode, ((dbg m).1 = .high ↔ m = .tx) ∧ ((dbg m).2 = .high ↔ m = .rx ∨ m = .rxDutyCycle) ∧
    ((dbg m).1 = .high ↔ m.toBits = 4) ∧ ((dbg m).2 = .high ↔ m.toBits = 5 ∨ m.toBits = 6) ∧
    ¬ ((dbg m).1 = .high ∧ (dbg m).2 = .high)) ∧
  (∀ (m : OperatingMode) (s : State), s.IsIdle → s.cfg.debugEn = true →
    ∃ t, execFor 5 (.setMode m) s = .next t ∧ t.IsIdle ∧ t.dbgLines = some (dbg m))

/-- 43_transaction_primitives R137, R138: the two wrappers are exactly the ranged primitives with length 1: the same steps
from every state, the same request, one frame of four and of five exchanges; READ_REG returns the one byte `OUT[0]`. -/
def Obligations.WrappersAreRangedPrimitivesOfLengthOne : Prop :=
  ∀ (addr : BitVec 16) (v : Byte) (s : State),
    exec (.writeReg addr v) s = exec (.writeRegs addr [v] 1) s ∧
    exec (.readReg addr) s = exec (.readRegs addr 1 1) s ∧
    encode (.writeReg addr v) = encode (.writeRegs addr [v] 1) ∧
    encode (.readReg addr) = encode (.readRegs addr 1 1) ∧
    uprog s.cfg (.writeReg addr v) = transaction
      [.tx s.cfg.opcWriteRegister, .tx (addr.extractLsb' 8 8), .tx (addr.extractLsb' 0 8), .tx v] ∧
    uprog s.cfg (.readReg addr) = transaction
      [.tx s.cfg.opcReadRegister, .tx (addr.extractLsb' 8 8), .tx (addr.extractLsb' 0 8), .tx s.cfg.nopByte, .rx 0] ∧
    (∀ b, s.out = [b] → responseOf (.readReg addr) s = .done 0 [b])

/-- 30_encoding R97, 10_state R26: the length of every micro-program: `8 + L` for a primitive, 23 for INIT_OSC_CTRL, at
most `LEN_MAX + 12` in all. -/
def Obligations.MicroProgramLengths : Prop :=
  ∀ (cfg : Config) (i : Instr), lengthFits cfg i →
    (isPrimitive i = true → (uprog cfg i).length = 8 + frameLength i) ∧
    (uprog cfg .initOscCtrl).length = 23 ∧
    (11 ≤ cfg.lenMax → (uprog cfg i).length ≤ cfg.lenMax + 12)

/-- 30_encoding R87(e): the wakeup parameter is the host milliseconds times 64 and never overflows its 24 bits; with the
reference value it is 320. -/
def Obligations.WakeupIsSixtyFourthsOfAMillisecond : Prop :=
  ∀ cfg : Config, cfg.oscScaleShift = 6 →
    (wakeup cfg).toNat = cfg.oscWakeupMs.toNat * 64 ∧ cfg.oscWakeupMs.toNat * 64 < 2 ^ 24 ∧
      (cfg.oscWakeupMs = 5 → wakeup cfg = 0x000140#24)

/-! ## Encoding -/

/-- 30_encoding R81 to R83, R93: decoding the request of a well-formed operation gives it back, every operand at every
value, in the spelling R93 allows, which is the same core operation. The words are the spec's decision D5; which of the
two spellings the decoder takes is the model's choice (log 7). -/
def Obligations.DecodeOfEncodeIsTheOperation : Prop :=
  ∀ i : Instr, i.wellFormed = true → decode (encode i) = .ok i.respell ∧ i.respell.core = i.core

/-- 30_encoding R81 to R83: what the decoder accepts is the encoding of what it answers: no bit of an accepted word is
dropped, nor a byte of the payload of ISSUE_CMD, WRITE_REGS, WRITE_BUF and WRITE_REG, nor the capacity of READ_CMD,
READ_REGS, READ_BUF and READ_REG. The words are the spec's decision D5; that payload and capacity stand beside the word is
the model's request record (log 7). -/
def Obligations.EncodeOfDecodeIsTheWord : Prop :=
  ∀ (r : Request) (i : Instr), decode r = .ok i →
    (encode i).word = r.word ∧ i.wellFormed = true ∧
      (∀ payload, payloadOf i = some payload → payload = r.payload ∧ (encode i).payload = r.payload) ∧
      (∀ cap, capacityOf i = some cap → cap = r.cap ∧ (encode i).cap = r.cap)

/-- 30_encoding R82, R83, R90, R93 (D5, D23): the decoder accepts exactly the words that belong to a row of the opcode
table, each as an operation of such a row; no word belongs to two rows with selectors of their own. -/
def Obligations.DecoderAcceptsExactlyTheTable : Prop :=
  (∀ r : Request, (∃ i, decode r = .ok i) ↔ ∃ row ∈ opcodeTable, row.covers r.word = true) ∧
  (∀ (r : Request) (i : Instr), decode r = .ok i →
    ∃ row ∈ opcodeTable, row.mnemonic = i.mnemonic ∧ row.covers r.word = true) ∧
  (∀ w : BitVec 40, ∀ row ∈ coreRows, ∀ row' ∈ coreRows, row.covers w = true → row'.covers w = true → row = row')

/-- 95_test_vectors, the decoder's vectors and family tables: words written out in the spec decode to the operations they
stand for, or to `invalid`. -/
def Obligations.WordsOfTheVectorsDecode : Prop :=
  decode ⟨0x0100000000, [], 0⟩ = .ok .select ∧
  decode ⟨0x0300000000, [], 0⟩ = .ok .waitReady ∧
  decode ⟨0x10008C0003, [0x11, 0x22, 0x33], 0⟩ = .ok (.issueCmd 0x8C [0x11, 0x22, 0x33] 3) ∧
  decode ⟨0x1100170002, [], 2⟩ = .ok (.readCmd 0x17 2 2) ∧
  decode ⟨0x1207400002, [0x34, 0x44], 0⟩ = .ok (.writeRegs 0x0740 [0x34, 0x44] 2) ∧
  decode ⟨0x12FFFF0001, [0xFF], 0⟩ = .ok (.writeReg 0xFFFF 0xFF) ∧
  decode ⟨0x2000060000, [], 0⟩ = .ok (.setMode .rxDutyCycle) ∧
  decode ⟨0x3100000000, [], 0⟩ = .ok .initOscCtrl ∧
  decode ⟨0x1001800001, [0], 0⟩ = .error .argNotZero ∧
  decode ⟨0x2000070001, [], 0⟩ = .error .lenNotZero ∧
  decode ⟨0x1600000000, [], 0⟩ = .error (.reservedOp 0x16)

/-! ## Against the simulated device -/

/-- 20_memory R67 against the device of 95_test_vectors Part 2 (the spec's decision D26; no law of the real device):
"`writeRegister(addr, v)` followed by `readRegister(addr)` returns `v`, for all addresses and all byte values". -/
def Obligations.RegisterRoundTripOnTheSimulatedDevice : Prop :=
  ∀ (s : State) (d : SimDevice) (addr : BitVec 16) (v : Byte), s.IsIdle → s.csN = .high → 1 ≤ s.cfg.lenMax →
    SimDevice.tellsApart s.cfg = true → Memory.wf d.reg = true → d.busyScript = [] → d.stuckBusy = false →
    ∃ s1 d1 s2 d2, simRun 14 (.writeReg addr v) (s, d) = some (s1, d1) ∧
      simRun 15 (.readReg addr) (s1, d1) = some (s2, d2) ∧
      s1.trace.getLast? = some (.resp (.done 0 [])) ∧ s2.trace.getLast? = some (.resp (.done 0 [v]))

/-- 20_memory R67, the buffer scenario (95_test_vectors S7) for every offset and every four bytes, against the device of
95_test_vectors Part 2 (D26: offsets wrap). -/
def Obligations.BufferRoundTripOnTheSimulatedDevice : Prop :=
  ∀ (s : State) (d : SimDevice) (off b0 b1 b2 b3 : Byte), s.IsIdle → s.csN = .high → 4 ≤ s.cfg.lenMax →
    SimDevice.tellsApart s.cfg = true → Memory.wf d.buf = true → d.busyScript = [] → d.stuckBusy = false →
    ∃ s1 d1 s2 d2, simRun 16 (.writeBuf off [b0, b1, b2, b3] 4) (s, d) = some (s1, d1) ∧
      simRun 17 (.readBuf off 4 4) (s1, d1) = some (s2, d2) ∧
      s1.trace.getLast? = some (.resp (.done 0 [])) ∧
      s2.trace.getLast? = some (.resp (.done 0 [b0, b1, b2, b3]))
end

