-- ==== Sys2Proof/Laws/Encoding.lean ====
section
/-! SUPPORT. The fields of request and response words, and belonging to a row of the opcode table field by field. -/

namespace Sys2Proof

/-- A field of the lower part of an append. -/
theorem extract_append_low {n m k : Nat} (a : BitVec n) (b : BitVec m) (h : k ≤ m) :
    (a ++ b).extractLsb' 0 k = b.extractLsb' 0 k := by
  apply BitVec.eq_of_getLsbD_eq
  intro i hi
  simp [BitVec.getLsbD_append, hi, show i < m by omega]

/-- A field of the upper part of an append. -/
theorem extract_append_high {n m : Nat} (a : BitVec n) (b : BitVec m) (j k : Nat) :
    (a ++ b).extractLsb' (m + j) k = a.extractLsb' j k := by
  apply BitVec.eq_of_getLsbD_eq
  intro i hi
  have e : m + j + i - m = j + i := by omega
  simp [BitVec.getLsbD_append, hi, show ¬ (m + j + i < m) by omega, e]

/-- `OP` of an assembled word. -/
@[simp] theorem opField_mkWord (op : BitVec 8) (arg len : BitVec 16) : opField (mkWord op arg len) = op := by
  have e : opField (mkWord op arg len) = (op ++ arg).extractLsb' 16 8 := extract_append_high (op ++ arg) len 16 8
  rw [e]
  have e := extract_append_high op arg 0 8
  simpa using e

/-- `ARG` of an assembled word. -/
@[simp] theorem argField_mkWord (op : BitVec 8) (arg len : BitVec 16) : argField (mkWord op arg len) = arg := by
  have e : argField (mkWord op arg len) = (op ++ arg).extractLsb' 0 16 := extract_append_high (op ++ arg) len 0 16
  rw [e]
  have e := extract_append_low op arg (Nat.le_refl 16)
  simpa using e

/-- `LEN` of an assembled word. -/
@[simp] theorem lenField_mkWord (op : BitVec 8) (arg len : BitVec 16) : lenField (mkWord op arg len) = len := by
  have e := extract_append_low (op ++ arg) len (Nat.le_refl 16)
  simpa [mkWord, lenField] using e

/-- The must-be-zero byte of a one-byte operand. -/
@[simp] theorem byteArg_high (b : Byte) : (byteArg b).extractLsb' 8 8 = 0 := by
  have e := extract_append_high (0 : BitVec 8) b 0 8
  simpa [byteArg] using e

/-- The operand byte of a one-byte operand. -/
@[simp] theorem byteArg_low (b : Byte) : (byteArg b).extractLsb' 0 8 = b := by
  have e := extract_append_low (0 : BitVec 8) b (Nat.le_refl 8)
  simpa [byteArg] using e

/-- The must-be-zero bits of a mode operand. -/
@[simp] theorem modeArg_high (m : OperatingMode) : (modeArg m).extractLsb' 3 13 = 0 := by
  cases m <;> rfl

/-- The mode of a mode operand. -/
@[simp] theorem modeArg_low (m : OperatingMode) : (modeArg m).extractLsb' 0 3 = m.toBits := by
  cases m <;> rfl

/-- A mode is read back from its number. -/
@[simp] theorem ofBits_toBits (m : OperatingMode) : OperatingMode.ofBits m.toBits = m := by cases m <;> rfl

/-- Every 3-bit value is the number of its mode. -/
@[simp] theorem toBits_ofBits (b : BitVec 3) : (OperatingMode.ofBits b).toBits = b := by
  revert b; decide

/-- A request word is its three fields. -/
theorem mkWord_fields (w : BitVec 40) : mkWord (opField w) (argField w) (lenField w) = w := by
  apply BitVec.eq_of_getLsbD_eq
  intro i hi
  have e : (mkWord (opField w) (argField w) (lenField w)).getLsbD i =
      ((opField w ++ argField w) ++ lenField w).getLsbD i := rfl
  rw [e, BitVec.getLsbD_append, BitVec.getLsbD_append]
  by_cases h1 : i < 16
  · simp [h1, lenField]
  · by_cases h2 : i - 16 < 16
    · simp [h1, h2, argField, show 16 + (i - 16) = i by omega]
    · simp [h1, h2, opField, show 32 + (i - 16 - 16) = i by omega, show i - 16 - 16 < 8 by omega]

/-- A one-byte operand field is its low byte when its high byte is zero. -/
theorem byteArg_of_high {a : BitVec 16} (h : a.extractLsb' 8 8 = 0) : byteArg (a.extractLsb' 0 8) = a := by
  apply BitVec.eq_of_getLsbD_eq
  intro i hi
  have e : (byteArg (a.extractLsb' 0 8)).getLsbD i = ((0 : BitVec 8) ++ a.extractLsb' 0 8).getLsbD i := rfl
  rw [e, BitVec.getLsbD_append]
  by_cases h1 : i < 8
  · simp [h1]
  · have := congrArg (fun b => b.getLsbD (i - 8)) h
    simp [show i - 8 < 8 by omega, show 8 + (i - 8) = i by omega] at this
    simp [h1, this]

/-- A mode operand field is its mode when the bits above it are zero. -/
theorem modeArg_of_high {a : BitVec 16} (h : a.extractLsb' 3 13 = 0) :
    modeArg (OperatingMode.ofBits (a.extractLsb' 0 3)) = a := by
  apply BitVec.eq_of_getLsbD_eq
  intro i hi
  have e : (modeArg (OperatingMode.ofBits (a.extractLsb' 0 3))).getLsbD i =
    ((0 : BitVec 13) ++ (OperatingMode.ofBits (a.extractLsb' 0 3)).toBits).getLsbD i := rfl
  rw [e, BitVec.getLsbD_append, toBits_ofBits]
  by_cases h1 : i < 3
  · simp [h1]
  · have := congrArg (fun b => b.getLsbD (i - 3)) h
    simp [show i - 3 < 13 by omega, show 3 + (i - 3) = i by omega] at this
    simp [h1, this]

namespace Machine

/-- `RSP.CODE` of the response word. -/
theorem word_code (r : Result) : r.word.extractLsb' 24 8 = r.code := by
  have e : r.word.extractLsb' 24 8 = (r.code ++ (0 : BitVec 8)).extractLsb' 8 8 :=
    extract_append_high (r.code ++ (0 : BitVec 8)) r.value 8 8
  rw [e]
  have e := extract_append_high r.code (0 : BitVec 8) 0 8
  simpa using e

/-- The zero byte of the response word. -/
theorem word_reserved (r : Result) : r.word.extractLsb' 16 8 = 0 := by
  have e : r.word.extractLsb' 16 8 = (r.code ++ (0 : BitVec 8)).extractLsb' 0 8 :=
    extract_append_high (r.code ++ (0 : BitVec 8)) r.value 0 8
  rw [e]
  have e := extract_append_low r.code (0 : BitVec 8) (Nat.le_refl 8)
  simpa using e

/-- `RSP.VALUE` of the response word. -/
theorem word_value (r : Result) : r.word.extractLsb' 0 16 = r.value := by
  have e := extract_append_low (r.code ++ (0 : BitVec 8)) r.value (Nat.le_refl 16)
  simpa [Result.word] using e

/-- The response word of a device that does not respond. -/
theorem word_deviceNotResponding (n : Nat) : (Result.fault (.deviceNotResponding n)).word = 0x01000000#32 := by
  have e : (Result.fault (.deviceNotResponding n)).word = (0x01#8 ++ 0#8 ++ 0#16 : BitVec 32) := rfl
  rw [e]; decide

/-- The response word of an invalid argument. -/
theorem word_invalidArgument (a b : Nat) : (Result.fault (.invalidArgument a b)).word = 0x02000000#32 := by
  have e : (Result.fault (.invalidArgument a b)).word = (0x02#8 ++ 0#8 ++ 0#16 : BitVec 32) := rfl
  rw [e]; decide

end Machine

/-- `OP` of a masked word. -/
theorem opField_and (v w : BitVec 40) : opField (v &&& w) = opField v &&& opField w := by
  apply BitVec.eq_of_getLsbD_eq
  intro i hi
  simp [opField, hi]

/-- `ARG` of a masked word. -/
theorem argField_and (v w : BitVec 40) : argField (v &&& w) = argField v &&& argField w := by
  apply BitVec.eq_of_getLsbD_eq
  intro i hi
  simp [argField, hi]

/-- `LEN` of a masked word. -/
theorem lenField_and (v w : BitVec 40) : lenField (v &&& w) = lenField v &&& lenField w := by
  apply BitVec.eq_of_getLsbD_eq
  intro i hi
  simp [lenField, hi]

/-- Two words are equal when their three fields are. -/
theorem word_ext {v w : BitVec 40} (h1 : opField v = opField w) (h2 : argField v = argField w)
    (h3 : lenField v = lenField w) : v = w := by
  rw [← mkWord_fields v, ← mkWord_fields w, h1, h2, h3]

/-- Belonging to a row, field by field. -/
theorem covers_iff (row : TableRow) (w : BitVec 40) : row.covers w = true ↔
    opField w &&& opField row.mask = opField row.pattern ∧
      argField w &&& argField row.mask = argField row.pattern ∧
      lenField w &&& lenField row.mask = lenField row.pattern := by
  simp only [TableRow.covers, decide_eq_true_eq]
  constructor
  · intro h
    rw [← h, opField_and, argField_and, lenField_and]
    exact ⟨rfl, rfl, rfl⟩
  · rintro ⟨h1, h2, h3⟩
    apply word_ext
    · rw [opField_and, h1]
    · rw [argField_and, h2]
    · rw [lenField_and, h3]

/-- The mask of `ARG[15:8]`. -/
theorem and_argHigh (a : BitVec 16) : a &&& 0xFF00 = 0 ↔ a.extractLsb' 8 8 = 0 := by
  constructor
  · intro h
    apply BitVec.eq_of_getLsbD_eq
    intro i hi
    have := congrArg (fun b => b.getLsbD (8 + i)) h
    simp at this ⊢
    have hc := (by decide : ∀ i : Fin 8, (65280#16).getLsbD (8 + i.val) = true) ⟨i, hi⟩
    simp only at hc
    simp_all
  · intro h
    apply BitVec.eq_of_getLsbD_eq
    intro i hi
    have := congrArg (fun b => b.getLsbD (i - 8)) h
    by_cases h8 : 8 ≤ i
    · simp [show i - 8 < 8 by omega, show 8 + (i - 8) = i by omega] at this
      simp [this]
    · have : ∀ i : Fin 8, (65280#16).getLsbD i.val = false := by decide
      have := this ⟨i, by omega⟩
      simp at this
      simp [this]

/-- The mask of `ARG[15:3]`. -/
theorem and_argAboveMode (a : BitVec 16) : a &&& 0xFFF8 = 0 ↔ a.extractLsb' 3 13 = 0 := by
  constructor
  · intro h
    apply BitVec.eq_of_getLsbD_eq
    intro i hi
    have := congrArg (fun b => b.getLsbD (3 + i)) h
    simp at this ⊢
    have hc := (by decide : ∀ i : Fin 13, (65528#16).getLsbD (3 + i.val) = true) ⟨i, hi⟩
    simp only at hc
    simp_all
  · intro h
    apply BitVec.eq_of_getLsbD_eq
    intro i hi
    have := congrArg (fun b => b.getLsbD (i - 3)) h
    by_cases h8 : 3 ≤ i
    · simp [show i - 3 < 13 by omega, show 3 + (i - 3) = i by omega] at this
      simp [this]
    · have : ∀ i : Fin 3, (65528#16).getLsbD i.val = false := by decide
      have := this ⟨i, by omega⟩
      simp at this
      simp [this]

end Sys2Proof
end

