-- ==== Sys2Proof/Laws/Memory.lean ====
section
/-! SUPPORT. The spaces of the simulated device: a read after a write, the canonical form kept, equal reads mean equal memories. -/

namespace Sys2Proof.Machine.Memory

/-- The empty memory is canonical. -/
theorem wf_nil : wf [] = true := rfl

/-- A canonical memory, cell by cell. -/
theorem wf_cons {k : Nat} {v : Byte} {m : Memory} : wf ((k, v) :: m) = true ↔
    (∀ c ∈ m, k < c.1) ∧ v ≠ 0 ∧ wf m = true := by
  simp [wf, List.pairwise_cons]
  grind

/-- Below every listed address, memory reads as unlisted. -/
theorem read_of_lt {a : Nat} {m : Memory} (h : ∀ c ∈ m, a < c.1) : read m a = 0 := by
  induction m with
  | nil => rfl
  | cons c m ih =>
    obtain ⟨k, v⟩ := c
    have := h (k, v) (by simp)
    simp only [read]
    rw [if_neg (by omega)]
    exact ih (fun c hc => h c (by simp [hc]))

/-- A read past a cell put in front. -/
theorem read_consCell {a b : Nat} {v : Byte} {m : Memory} (h : ∀ c ∈ m, a < c.1) :
    read (cons a v m) b = if a = b then v else read m b := by
  unfold cons
  split
  · split
    · subst_vars; exact read_of_lt h
    · rfl
  · rfl

/-- A write lists no new address but its own. -/
theorem mem_write {m : Memory} {a : Nat} {b : Byte} {c : Host.Cell} (h : c ∈ write m a b) : c.1 = a ∨ c ∈ m := by
  induction m with
  | nil =>
    simp only [write, cons] at h
    split at h <;> simp at h
    simp [h]
  | cons c0 m ih =>
    obtain ⟨k, v⟩ := c0
    simp only [write, cons] at h
    split at h
    · split at h <;> simp at h ⊢ <;> grind
    · split at h
      · split at h <;> simp at h ⊢ <;> grind
      · simp at h ⊢; grind

/-- A read after a write: the byte written there, every other byte as before. -/
theorem read_write {m : Memory} (h : wf m = true) (a : Nat) (b : Byte) (a' : Nat) :
    read (write m a b) a' = if a = a' then b else read m a' := by
  induction m with
  | nil => simp only [write]; exact read_consCell (by simp)
  | cons c m ih =>
    obtain ⟨k, v⟩ := c
    obtain ⟨h1, h2, h3⟩ := wf_cons.mp h
    simp only [write]
    split
    · exact read_consCell (by simp; exact ⟨‹_›, fun x y hc => by have := h1 _ hc; simp at this; omega⟩)
    · split
      · subst_vars
        rw [read_consCell h1]
        simp only [read]
        split <;> rfl
      · simp only [read, ih h3]
        split <;> split <;> first | rfl | omega

/-- A write keeps the canonical form. -/
theorem wf_write {m : Memory} (h : wf m = true) (a : Nat) (b : Byte) : wf (write m a b) = true := by
  have key : ∀ rest : Memory, wf rest = true → (∀ c ∈ rest, a < c.1) → wf (cons a b rest) = true := by
    intro rest h1 h2
    unfold cons
    split
    · exact h1
    · exact wf_cons.mpr ⟨h2, ‹_›, h1⟩
  induction m with
  | nil => exact key _ rfl (by simp)
  | cons c m ih =>
    obtain ⟨k, v⟩ := c
    obtain ⟨h1, h2, h3⟩ := wf_cons.mp h
    simp only [write]
    split
    · exact key _ h (by simp; exact ⟨‹_›, fun x y hc => by have := h1 _ hc; simp at this; omega⟩)
    · split
      · subst_vars; exact key _ h3 h1
      · refine wf_cons.mpr ⟨fun c hc => ?_, h2, ih h3⟩
        rcases mem_write hc with e | e
        · omega
        · exact h1 _ e

/-- Two canonical memories that read alike are equal. -/
theorem eq_of_read {m n : Memory} (hm : wf m = true) (hn : wf n = true) (h : ∀ a, read m a = read n a) : m = n := by
  induction m generalizing n with
  | nil =>
    cases n with
    | nil => rfl
    | cons c n =>
      obtain ⟨k, v⟩ := c
      have := h k
      simp [read] at this
      exact absurd this.symm (wf_cons.mp hn).2.1
  | cons c m ih =>
    obtain ⟨k, v⟩ := c
    obtain ⟨h1, h2, h3⟩ := wf_cons.mp hm
    cases n with
    | nil =>
      have := h k
      simp [read] at this
      exact absurd this h2
    | cons c' n =>
      obtain ⟨k', v'⟩ := c'
      obtain ⟨g1, g2, g3⟩ := wf_cons.mp hn
      have hk : k = k' := by
        rcases Nat.lt_trichotomy k k' with hlt | heq | hgt
        · have := h k
          simp only [read, if_true] at this
          rw [if_neg (by omega), read_of_lt (fun c hc => by have := g1 c hc; omega)] at this
          exact absurd this h2
        · exact heq
        · have := h k'
          simp only [read, if_true] at this
          rw [if_neg (by omega), read_of_lt (fun c hc => by have := h1 c hc; omega)] at this
          exact absurd this.symm g2
      subst hk
      have hv : v = v' := by simpa [read] using h k
      subst hv
      rw [ih h3 g3]
      intro a
      have := h a
      simp only [read] at this
      by_cases e : k = a
      · subst e
        rw [read_of_lt h1, read_of_lt g1]
      · simpa [e] using this

end Sys2Proof.Machine.Memory
end

