-- ==== Sys2Proof/Laws/State.lean ====
section
/-! SUPPORT. What each update of the state does to each field it could touch: true by rfl, so that no later proof unfolds a record update. -/

namespace Sys2Proof.Machine.State

variable (s : State) (es : List Event) (l : Level) (b : Byte) (i : Nat) (r : Result) (op : Instr)

@[simp] theorem emit_cfg : (s.emit es).cfg = s.cfg := rfl
@[simp] theorem emit_mode : (s.emit es).mode = s.mode := rfl
@[simp] theorem emit_csN : (s.emit es).csN = s.csN := rfl
@[simp] theorem emit_resetN : (s.emit es).resetN = s.resetN := rfl
@[simp] theorem emit_dbgTx : (s.emit es).dbgTx = s.dbgTx := rfl
@[simp] theorem emit_dbgRx : (s.emit es).dbgRx = s.dbgRx := rfl
@[simp] theorem emit_seq : (s.emit es).seq = s.seq := rfl
@[simp] theorem emit_out : (s.emit es).out = s.out := rfl
@[simp] theorem emit_statusOut : (s.emit es).statusOut = s.statusOut := rfl
@[simp] theorem emit_dbgRest : (s.emit es).dbgRest = s.dbgRest := rfl
@[simp] theorem emit_requests : (s.emit es).requests = s.requests := rfl
@[simp] theorem emit_grant : (s.emit es).grant = s.grant := rfl
@[simp] theorem emit_env : (s.emit es).env = s.env := rfl
@[simp] theorem emit_trace : (s.emit es).trace = s.trace ++ es := rfl

@[simp] theorem advance_cfg : s.advance.cfg = s.cfg := rfl
@[simp] theorem advance_mode : s.advance.mode = s.mode := rfl
@[simp] theorem advance_csN : s.advance.csN = s.csN := rfl
@[simp] theorem advance_resetN : s.advance.resetN = s.resetN := rfl
@[simp] theorem advance_dbgTx : s.advance.dbgTx = s.dbgTx := rfl
@[simp] theorem advance_dbgRx : s.advance.dbgRx = s.dbgRx := rfl
@[simp] theorem advance_opl : s.advance.seq.opl = s.seq.opl := rfl
@[simp] theorem advance_upc : s.advance.seq.upc = s.seq.upc + 1 := rfl
@[simp] theorem advance_pollCnt : s.advance.seq.pollCnt = s.seq.pollCnt := rfl
@[simp] theorem advance_out : s.advance.out = s.out := rfl
@[simp] theorem advance_statusOut : s.advance.statusOut = s.statusOut := rfl
@[simp] theorem advance_dbgRest : s.advance.dbgRest = s.dbgRest := rfl
@[simp] theorem advance_requests : s.advance.requests = s.requests := rfl
@[simp] theorem advance_grant : s.advance.grant = s.grant := rfl
@[simp] theorem advance_env : s.advance.env = s.env := rfl
@[simp] theorem advance_trace : s.advance.trace = s.trace := rfl

@[simp] theorem driveCs_eq : s.driveCs l = { s with csN := l }.emit [.csWrite l] := rfl
@[simp] theorem driveReset_eq : s.driveReset l = { s with resetN := l }.emit [.rstWrite l] := rfl
@[simp] theorem driveDbg_tx : s.driveDbg .tx l = { s with dbgTx := l }.emit [.dbgWrite .tx l] := rfl
@[simp] theorem driveDbg_rx : s.driveDbg .rx l = { s with dbgRx := l }.emit [.dbgWrite .rx l] := rfl

@[simp] theorem sampleBusy_level : s.sampleBusy.1 = s.env.nextBusy.1 := rfl
@[simp] theorem sampleBusy_state :
    s.sampleBusy.2 = { s with env := s.env.nextBusy.2 }.emit [.busySample s.env.nextBusy.1] := rfl
@[simp] theorem exchange_byte : (s.exchange b).1 = s.env.nextRx.1 := rfl
@[simp] theorem exchange_state :
    (s.exchange b).2 = { s with env := s.env.nextRx.2 }.emit [.xfer b s.env.nextRx.1] := rfl

@[simp] theorem storeOut_cfg : (s.storeOut i b).cfg = s.cfg := rfl
@[simp] theorem storeOut_mode : (s.storeOut i b).mode = s.mode := rfl
@[simp] theorem storeOut_csN : (s.storeOut i b).csN = s.csN := rfl
@[simp] theorem storeOut_resetN : (s.storeOut i b).resetN = s.resetN := rfl
@[simp] theorem storeOut_dbgTx : (s.storeOut i b).dbgTx = s.dbgTx := rfl
@[simp] theorem storeOut_dbgRx : (s.storeOut i b).dbgRx = s.dbgRx := rfl
@[simp] theorem storeOut_seq : (s.storeOut i b).seq = s.seq := rfl
@[simp] theorem storeOut_out : (s.storeOut i b).out = s.out.take i ++ b :: s.out.drop (i + 1) := rfl
@[simp] theorem storeOut_statusOut : (s.storeOut i b).statusOut = s.statusOut := rfl
@[simp] theorem storeOut_dbgRest : (s.storeOut i b).dbgRest = s.dbgRest := rfl
@[simp] theorem storeOut_requests : (s.storeOut i b).requests = s.requests := rfl
@[simp] theorem storeOut_grant : (s.storeOut i b).grant = s.grant := rfl
@[simp] theorem storeOut_env : (s.storeOut i b).env = s.env := rfl
@[simp] theorem storeOut_trace : (s.storeOut i b).trace = s.trace := rfl

@[simp] theorem forgetOut_cfg : s.forgetOut.cfg = s.cfg := rfl
@[simp] theorem forgetOut_mode : s.forgetOut.mode = s.mode := rfl
@[simp] theorem forgetOut_csN : s.forgetOut.csN = s.csN := rfl
@[simp] theorem forgetOut_resetN : s.forgetOut.resetN = s.resetN := rfl
@[simp] theorem forgetOut_dbgTx : s.forgetOut.dbgTx = s.dbgTx := rfl
@[simp] theorem forgetOut_dbgRx : s.forgetOut.dbgRx = s.dbgRx := rfl
@[simp] theorem forgetOut_seq : s.forgetOut.seq = s.seq := rfl
@[simp] theorem forgetOut_statusOut : s.forgetOut.statusOut = s.statusOut := rfl
@[simp] theorem forgetOut_dbgRest : s.forgetOut.dbgRest = s.dbgRest := rfl
@[simp] theorem forgetOut_requests : s.forgetOut.requests = s.requests := rfl
@[simp] theorem forgetOut_grant : s.forgetOut.grant = s.grant := rfl
@[simp] theorem forgetOut_trace : s.forgetOut.trace = s.trace := rfl
@[simp] theorem forgetOut_busy : s.forgetOut.env.busy = s.env.busy := rfl
@[simp] theorem forgetOut_rx : s.forgetOut.env.rx = s.env.rx := rfl
@[simp] theorem forgetOut_dbgFirst : s.forgetOut.env.dbgFirst = s.env.dbgFirst := rfl
@[simp] theorem forgetOut_grants : s.forgetOut.env.grants = s.env.grants := rfl

@[simp] theorem forgetStatus_cfg : s.forgetStatus.cfg = s.cfg := rfl
@[simp] theorem forgetStatus_mode : s.forgetStatus.mode = s.mode := rfl
@[simp] theorem forgetStatus_csN : s.forgetStatus.csN = s.csN := rfl
@[simp] theorem forgetStatus_resetN : s.forgetStatus.resetN = s.resetN := rfl
@[simp] theorem forgetStatus_dbgTx : s.forgetStatus.dbgTx = s.dbgTx := rfl
@[simp] theorem forgetStatus_dbgRx : s.forgetStatus.dbgRx = s.dbgRx := rfl
@[simp] theorem forgetStatus_seq : s.forgetStatus.seq = s.seq := rfl
@[simp] theorem forgetStatus_out : s.forgetStatus.out = s.out := rfl
@[simp] theorem forgetStatus_dbgRest : s.forgetStatus.dbgRest = s.dbgRest := rfl
@[simp] theorem forgetStatus_requests : s.forgetStatus.requests = s.requests := rfl
@[simp] theorem forgetStatus_grant : s.forgetStatus.grant = s.grant := rfl
@[simp] theorem forgetStatus_trace : s.forgetStatus.trace = s.trace := rfl
@[simp] theorem forgetStatus_busy : s.forgetStatus.env.busy = s.env.busy := rfl
@[simp] theorem forgetStatus_rx : s.forgetStatus.env.rx = s.env.rx := rfl
@[simp] theorem forgetStatus_dbgFirst : s.forgetStatus.env.dbgFirst = s.env.dbgFirst := rfl
@[simp] theorem forgetStatus_grants : s.forgetStatus.env.grants = s.env.grants := rfl

@[simp] theorem respond_cfg : (s.respond r).cfg = s.cfg := rfl
@[simp] theorem respond_mode : (s.respond r).mode = s.mode := rfl
@[simp] theorem respond_csN : (s.respond r).csN = s.csN := rfl
@[simp] theorem respond_resetN : (s.respond r).resetN = s.resetN := rfl
@[simp] theorem respond_dbgTx : (s.respond r).dbgTx = s.dbgTx := rfl
@[simp] theorem respond_dbgRx : (s.respond r).dbgRx = s.dbgRx := rfl
@[simp] theorem respond_seq : (s.respond r).seq = Seq.idle := rfl
@[simp] theorem respond_out : (s.respond r).out = s.out := rfl
@[simp] theorem respond_statusOut : (s.respond r).statusOut = s.statusOut := rfl
@[simp] theorem respond_dbgRest : (s.respond r).dbgRest = s.dbgRest := rfl
@[simp] theorem respond_requests : (s.respond r).requests = s.requests := rfl
@[simp] theorem respond_grant : (s.respond r).grant = none := rfl
@[simp] theorem respond_env : (s.respond r).env = s.env := rfl
@[simp] theorem respond_trace : (s.respond r).trace = s.trace ++ [.resp r] := rfl

@[simp] theorem latch_cfg : (s.latch op).cfg = s.cfg := rfl
@[simp] theorem latch_mode : (s.latch op).mode = s.mode := rfl
@[simp] theorem latch_csN : (s.latch op).csN = s.csN := rfl
@[simp] theorem latch_resetN : (s.latch op).resetN = s.resetN := rfl
@[simp] theorem latch_dbgTx : (s.latch op).dbgTx = s.dbgTx := rfl
@[simp] theorem latch_dbgRx : (s.latch op).dbgRx = s.dbgRx := rfl
@[simp] theorem latch_seq : (s.latch op).seq = ⟨some op, 0, 0⟩ := rfl
@[simp] theorem latch_out : (s.latch op).out = [] := rfl
@[simp] theorem latch_dbgRest : (s.latch op).dbgRest = s.dbgRest := rfl
@[simp] theorem latch_requests : (s.latch op).requests = s.requests := rfl
@[simp] theorem latch_grant : (s.latch op).grant = s.grant := rfl
@[simp] theorem latch_env : (s.latch op).env = s.env := rfl
@[simp] theorem latch_trace : (s.latch op).trace = s.trace ++ [.req op] := rfl

end Sys2Proof.Machine.State
end

