-- ==== Sys2Proof/Laws/Ops.lean ====
section
/-! SUPPORT. What the shared operations can do, once each: the inversion of a meaning, of acceptance, of a micro-operation, of a poll; the provers cite these instead of unfolding. -/

namespace Sys2Proof.Machine

/-! Every meaning performs its operation. -/

theorem exec_eq_perform (i : Instr) (s : State) : exec i s = perform (operation s.cfg i) s := by
  cases i <;> rfl

@[simp] theorem core_core (i : Instr) : i.core.core = i.core := by cases i <;> rfl

@[simp] theorem operation_request (cfg : Config) (i : Instr) : (operation cfg i).request = i.core := by
  cases i <;> rfl

@[simp] theorem operation_core (cfg : Config) (i : Instr) : operation cfg i.core = operation cfg i := by
  cases i <;> rfl

@[simp] theorem uprog_core (cfg : Config) (i : Instr) : uprog cfg i.core = uprog cfg i := by
  simp [uprog]

theorem operation_program (cfg : Config) (i : Instr) : (operation cfg i).program = uprog cfg i := rfl

@[simp] theorem operation_length (cfg : Config) (i : Instr) : (operation cfg i).length = lengthAndCapacity i := by
  cases i <;> rfl

@[simp] theorem lengthAndCapacity_core (i : Instr) : lengthAndCapacity i.core = lengthAndCapacity i := by
  cases i <;> rfl

@[simp] theorem lengthFits_core (cfg : Config) (i : Instr) : lengthFits cfg i.core = lengthFits cfg i := by
  simp [lengthFits]

@[simp] theorem mayStartWith_core (i : Instr) (l : Level) : mayStartWith i.core l = mayStartWith i l := by
  cases i <;> rfl

/-- Acceptance refuses exactly the chip-select levels the operation may not start with. -/
theorem operation_refusal (cfg : Config) (i : Instr) (l : Level) :
    ((operation cfg i).chipSelect.refusal l = none ∧ mayStartWith i l) ∨
      ((operation cfg i).chipSelect.refusal l =
        some (if i = .deselect then .chipSelectClosed else .chipSelectOpen) ∧ ¬ mayStartWith i l) := by
  cases i <;> cases l <;>
    simp [operation, opSelect, opDeselect, opWaitReady, opIssueCmd, opReadCmd, opWriteRegs, opReadRegs, opWriteBuf,
      opReadBuf, opSetMode, opGetMode, opResetDevice, opInitOscCtrl, opGetOscWakeupMs, opWriteReg, opReadReg,
      primitive, mayStartWith, ChipSelectRule.refusal]

/-- The `Done` result is the one of 30_encoding R85. -/
theorem operation_result (i : Instr) (s : State) : (operation s.cfg i).reply.result s = responseOf i s := by
  cases i <;> rfl

/-! Where the sequencer stands decides what a meaning does. -/

theorem exec_idle (i : Instr) (s : State) (h : s.seq.opl = none) : exec i s = accept (operation s.cfg i) s := by
  rw [exec_eq_perform]; simp [perform, h]

theorem exec_isAt {i : Instr} {s : State} {m : MicroOp} (h : s.isAt i m) : exec i s = microStep m s := by
  obtain ⟨ho, hm⟩ := h
  rw [exec_eq_perform]
  simp [perform, ho, proceed, operation_program, hm]

theorem exec_atEnd {i : Instr} {s : State} (ho : s.seq.opl = some i.core)
    (hu : s.seq.upc = (uprog s.cfg i).length) : exec i s = .next (finish (operation s.cfg i).reply s) := by
  rw [exec_eq_perform]
  simp [perform, ho, proceed, operation_program, hu]

theorem exec_pastEnd {i : Instr} {s : State} (ho : s.seq.opl = some i.core)
    (hu : (uprog s.cfg i).length < s.seq.upc) : exec i s = .fault .sequencerPastEnd := by
  have hm : (uprog s.cfg i)[s.seq.upc]? = none := by simp; omega
  rw [exec_eq_perform]
  simp [perform, ho, proceed, operation_program, hm, Nat.ne_of_gt hu]

theorem exec_other {i : Instr} {s : State} {op : Instr} (ho : s.seq.opl = some op) (hne : op ≠ i.core) :
    exec i s = .refused .operationInFlight := by
  rw [exec_eq_perform]
  simp [perform, ho, hne]

/-- The four places the sequencer can stand with this operation in flight. -/
theorem inFlight_cases (i : Instr) (s : State) :
    (∃ m, (uprog s.cfg i)[s.seq.upc]? = some m) ∨ s.seq.upc = (uprog s.cfg i).length ∨
      (uprog s.cfg i).length < s.seq.upc := by
  rcases Nat.lt_trichotomy s.seq.upc (uprog s.cfg i).length with h | h | h
  · exact .inl ⟨_, List.getElem?_eq_getElem h⟩
  · exact .inr (.inl h)
  · exact .inr (.inr h)

/-- Everything acceptance can do. -/
theorem accept_cases (i : Instr) (s : State) :
    (¬ mayStartWith i s.csN ∧ accept (operation s.cfg i) s =
        .refused (if i = .deselect then .chipSelectClosed else .chipSelectOpen)) ∨
      (mayStartWith i s.csN ∧ lengthFits s.cfg i ∧
        accept (operation s.cfg i) s = .next (s.latch i.core)) ∨
      (mayStartWith i s.csN ∧ ∃ len capacity, lengthAndCapacity i = some (len, capacity) ∧ s.cfg.lenMax < len ∧
        accept (operation s.cfg i) s = .refused (.lengthAboveLenMax len)) ∨
      (mayStartWith i s.csN ∧ ∃ len capacity, lengthAndCapacity i = some (len, capacity) ∧ len ≤ s.cfg.lenMax ∧
        capacity < len ∧ s.cfg.checkLength = true ∧ accept (operation s.cfg i) s =
          .next ((s.latch i.core).raise (.invalidArgument len capacity))) ∨
      (mayStartWith i s.csN ∧ ∃ len capacity, lengthAndCapacity i = some (len, capacity) ∧ len ≤ s.cfg.lenMax ∧
        capacity < len ∧ s.cfg.checkLength = false ∧
        accept (operation s.cfg i) s = .refused (.lengthAboveCapacity len capacity)) := by
  rcases operation_refusal s.cfg i s.csN with ⟨hr, hm⟩ | ⟨hr, hm⟩
  · rcases hl : lengthAndCapacity i with _ | ⟨len, capacity⟩
    · refine .inr (.inl ⟨hm, fun _ _ h => by simp [hl] at h, ?_⟩)
      simp [accept, hr, admitLength, hl]
    · by_cases h1 : s.cfg.lenMax < len
      · exact .inr (.inr (.inl ⟨hm, len, capacity, rfl, h1, by simp [accept, hr, admitLength, hl, h1]⟩))
      · by_cases h2 : len ≤ capacity
        · refine .inr (.inl ⟨hm, fun l c h => ?_, by simp [accept, hr, admitLength, hl, h1, h2]⟩)
          simp only [hl, Option.some.injEq, Prod.mk.injEq] at h
          omega
        · cases h3 : s.cfg.checkLength
          · exact .inr (.inr (.inr (.inr ⟨hm, len, capacity, rfl, by omega, by omega, rfl,
              by simp [accept, hr, admitLength, hl, h1, h2, h3]⟩)))
          · exact .inr (.inr (.inr (.inl ⟨hm, len, capacity, rfl, by omega, by omega, rfl,
              by simp [accept, hr, admitLength, hl, h1, h2, h3]⟩)))
  · exact .inl ⟨hm, by simp [accept, hr]⟩

/-- Everything a meaning that answers a next state has done: it accepted the operation, it took the length fault, it ran
the entry at `UPC`, or it responded. -/
theorem exec_next_cases {i : Instr} {s t : State} (h : exec i s = .next t) :
    (s.seq.opl = none ∧ mayStartWith i s.csN ∧ lengthFits s.cfg i ∧ t = s.latch i.core) ∨
      (s.seq.opl = none ∧ mayStartWith i s.csN ∧ s.cfg.checkLength = true ∧ ∃ len capacity,
        lengthAndCapacity i = some (len, capacity) ∧ len ≤ s.cfg.lenMax ∧ capacity < len ∧
        t = (s.latch i.core).raise (.invalidArgument len capacity)) ∨
      (∃ m, s.isAt i m ∧ microStep m s = .next t) ∨
      (s.seq.opl = some i.core ∧ s.seq.upc = (uprog s.cfg i).length ∧
        t = finish (operation s.cfg i).reply s) := by
  rcases ho : s.seq.opl with _ | op
  · rw [exec_idle i s ho] at h
    rcases accept_cases i s with ⟨_, e⟩ | ⟨hm, hl, e⟩ | ⟨_, _, _, _, _, e⟩ | ⟨hm, len, cap, hl, h1, h2, h3, e⟩ |
      ⟨_, _, _, _, _, _, _, e⟩ <;> rw [e] at h <;> cases h
    · exact .inl ⟨rfl, hm, hl, rfl⟩
    · exact .inr (.inl ⟨rfl, hm, h3, len, cap, hl, h1, h2, rfl⟩)
  · by_cases hop : op = i.core
    · subst hop
      rcases inFlight_cases i s with ⟨m, hm⟩ | hu | hu
      · exact .inr (.inr (.inl ⟨m, ⟨ho, hm⟩, by rw [← exec_isAt ⟨ho, hm⟩, h]⟩))
      · rw [exec_atEnd ho hu] at h
        cases h
        exact .inr (.inr (.inr ⟨rfl, hu, rfl⟩))
      · rw [exec_pastEnd ho hu] at h
        cases h
    · rw [exec_other ho hop] at h
      cases h

/-! One micro-operation. -/

/-- A transfer entry with chip-select low. -/
theorem transfer_low (s : State) (b : Byte) (store : Byte → State → State) (h : s.csN = .low) :
    transfer s b store = .next (store (s.exchange b).1 (s.exchange b).2).advance := by
  simp [transfer, h]

/-- A transfer that answered next had chip-select low. -/
theorem transfer_next {s t : State} {b : Byte} {store : Byte → State → State} (h : transfer s b store = .next t) :
    s.csN = .low ∧ t = (store (s.exchange b).1 (s.exchange b).2).advance := by
  unfold transfer at h
  split at h
  · cases h; exact ⟨‹_›, rfl⟩
  · cases h

/-- A poll that reads low ends the wait. -/
theorem poll_low (s : State) (h : s.env.nextBusy.1 = .low) :
    s.poll = { s with
      seq := ⟨s.seq.opl, s.seq.upc + 1, 0⟩, env := s.env.nextBusy.2, trace := s.trace ++ [.busySample .low] } := by
  simp [State.poll, h, State.emit]

/-- The state in which a poll has read high and counted it. -/
def State.counted (s : State) : State :=
  { s with seq := ⟨s.seq.opl, s.seq.upc, s.seq.pollCnt + 1⟩, env := s.env.nextBusy.2,
           trace := s.trace ++ [.busySample .high] }

/-- A poll that reads high counts it, and faults at the limit or sleeps. -/
theorem poll_high (s : State) (h : s.env.nextBusy.1 = .high) :
    s.poll = if s.counted.pollLimitReached then s.counted.raise (.deviceNotResponding (s.seq.pollCnt + 1))
      else s.counted.emit [.delayUs s.cfg.pollIntervalUs] := by
  simp [State.poll, h, State.counted, State.emit]

/-- Everything a poll can do. -/
theorem poll_cases (s : State) :
    (s.env.nextBusy.1 = .low ∧ s.poll = { s with
        seq := ⟨s.seq.opl, s.seq.upc + 1, 0⟩, env := s.env.nextBusy.2, trace := s.trace ++ [.busySample .low] }) ∨
      (s.env.nextBusy.1 = .high ∧ (∃ m, s.cfg.maxPollIter = some m ∧ m ≤ s.seq.pollCnt + 1) ∧
        s.poll = s.counted.raise (.deviceNotResponding (s.seq.pollCnt + 1))) ∨
      (s.env.nextBusy.1 = .high ∧ (∀ m, s.cfg.maxPollIter = some m → s.seq.pollCnt + 1 < m) ∧
        s.poll = s.counted.emit [.delayUs s.cfg.pollIntervalUs]) := by
  rcases hb : s.env.nextBusy.1 with _ | _
  · exact .inl ⟨rfl, poll_low s hb⟩
  · rw [poll_high s hb]
    rcases hm : s.cfg.maxPollIter with _ | m
    · exact .inr (.inr ⟨rfl, fun _ h => by (cases h), by simp [State.pollLimitReached, State.counted, hm]⟩)
    · by_cases hc : m ≤ s.seq.pollCnt + 1
      · exact .inr (.inl ⟨rfl, ⟨m, rfl, hc⟩, by simp [State.pollLimitReached, State.counted, hm, hc]⟩)
      · exact .inr (.inr ⟨rfl, fun _ h => by (cases h; omega),
          by simp [State.pollLimitReached, State.counted, hm, hc]⟩)

/-- Everything one entry can do when it answers a next state. -/
theorem microStep_next_cases {m : MicroOp} {s t : State} (h : microStep m s = .next t) :
    (m = .wait ∧ t = s.poll) ∨ (m = .settle ∧ t = (s.emit [.settle]).advance) ∨
      (∃ l, m = .cs l ∧ t = (s.driveCs l).advance) ∨
      (∃ b, m = .tx b ∧ s.csN = .low ∧ t = (s.exchange b).2.advance) ∨
      (∃ b, m = .txs b ∧ s.csN = .low ∧
        t = ({ (s.exchange b).2 with statusOut := s.env.nextRx.1 } : State).advance) ∨
      (∃ k, m = .rx k ∧ s.csN = .low ∧
        t = ((s.exchange s.cfg.nopByte).2.storeOut k s.env.nextRx.1).advance) ∨
      (∃ l, m = .rst l ∧ t = (s.driveReset l).advance) ∨
      (∃ n, m = .dlyMs n ∧ t = (s.emit [.delayMs n]).advance) ∨
      (∃ mode, m = .modeW mode ∧ t = ({ s with mode := mode } : State).advance) ∨
      (∃ mode, m = .dbgW mode ∧ t = s.mirror mode) := by
  cases m with
  | wait => cases h; exact .inl ⟨rfl, rfl⟩
  | settle => cases h; exact .inr (.inl ⟨rfl, rfl⟩)
  | cs l => cases h; exact .inr (.inr (.inl ⟨l, rfl, rfl⟩))
  | tx b =>
    simp only [microStep] at h
    obtain ⟨hc, rfl⟩ := transfer_next h
    exact .inr (.inr (.inr (.inl ⟨b, rfl, hc, rfl⟩)))
  | txs b =>
    simp only [microStep] at h
    obtain ⟨hc, rfl⟩ := transfer_next h
    exact .inr (.inr (.inr (.inr (.inl ⟨b, rfl, hc, rfl⟩))))
  | rx k =>
    simp only [microStep] at h
    obtain ⟨hc, rfl⟩ := transfer_next h
    exact .inr (.inr (.inr (.inr (.inr (.inl ⟨k, rfl, hc, rfl⟩)))))
  | rst l => cases h; exact .inr (.inr (.inr (.inr (.inr (.inr (.inl ⟨l, rfl, rfl⟩))))))
  | dlyMs n => cases h; exact .inr (.inr (.inr (.inr (.inr (.inr (.inr (.inl ⟨n, rfl, rfl⟩)))))))
  | modeW mode => cases h; exact .inr (.inr (.inr (.inr (.inr (.inr (.inr (.inr (.inl ⟨mode, rfl, rfl⟩))))))))
  | dbgW mode => cases h; exact .inr (.inr (.inr (.inr (.inr (.inr (.inr (.inr (.inr ⟨mode, rfl, rfl⟩))))))))

/-- Everything the mirror can do: skipped, the first write, the second. -/
theorem mirror_cases (s : State) (mode : OperatingMode) :
    (s.cfg.debugEn = false ∧ s.mirror mode = s.advance) ∨
      (s.cfg.debugEn = true ∧ s.dbgRest = none ∧ s.mirror mode =
        { s.driveDbg s.env.nextDbgFirst.1 (dbgLevel mode s.env.nextDbgFirst.1) with
          env := s.env.nextDbgFirst.2, dbgRest := some s.env.nextDbgFirst.1.other }) ∨
      (s.cfg.debugEn = true ∧ ∃ d, s.dbgRest = some d ∧ s.mirror mode =
        ({ s.driveDbg d (dbgLevel mode d) with dbgRest := none } : State).advance) := by
  rcases he : s.cfg.debugEn with _ | _
  · exact .inl ⟨rfl, by simp [State.mirror, he]⟩
  · rcases hd : s.dbgRest with _ | d
    · exact .inr (.inl ⟨rfl, rfl, by simp [State.mirror, he, hd]⟩)
    · exact .inr (.inr ⟨rfl, d, rfl, by simp [State.mirror, he, hd]⟩)

/-- A meaning stops with a fault of the machine only at a transfer with chip-select high or past the end. -/
theorem exec_fault_cases {i : Instr} {s : State} {f : Fault} (h : exec i s = .fault f) :
    (∃ m, s.isAt i m ∧ m.isXfer = true ∧ s.csN = .high) ∨
      (s.seq.opl = some i.core ∧ (uprog s.cfg i).length < s.seq.upc) := by
  rcases ho : s.seq.opl with _ | op
  · rw [exec_idle i s ho] at h
    rcases accept_cases i s with ⟨_, e⟩ | ⟨_, _, e⟩ | ⟨_, _, _, _, _, e⟩ | ⟨_, _, _, _, _, _, _, e⟩ |
      ⟨_, _, _, _, _, _, _, e⟩ <;> rw [e] at h <;> cases h
  · by_cases hop : op = i.core
    · subst hop
      rcases inFlight_cases i s with ⟨m, hm⟩ | hu | hu
      · rw [exec_isAt ⟨ho, hm⟩] at h
        have hx : m.isXfer = true ∧ s.csN = .high := by
          cases hc : s.csN <;> cases m <;> simp_all [microStep, transfer, MicroOp.isXfer]
        exact .inl ⟨m, ⟨ho, hm⟩, hx⟩
      · rw [exec_atEnd ho hu] at h
        cases h
      · exact .inr ⟨rfl, hu⟩
    · rw [exec_other ho hop] at h
      cases h

end Sys2Proof.Machine
end

