-- ==== Sys2Proof/Laws/PerInstr.lean ====
section
/-! SUPPORT. Statements made per operation: the request word of every operation carries its selector (30_encoding R82). -/

namespace Sys2Proof.Laws.Selector

/-- `REQ[39:32]` of the operation's word is its selector. -/
def Statement (i : Instr) : Prop := opField (encode i).word = i.selector

theorem select : Statement .select := opField_mkWord _ _ _
theorem deselect : Statement .deselect := opField_mkWord _ _ _
theorem waitReady : Statement .waitReady := opField_mkWord _ _ _
theorem issueCmd (opc : Byte) (payload : List Byte) (len : Nat) : Statement (.issueCmd opc payload len) := opField_mkWord _ _ _
theorem readCmd (opc : Byte) (len cap : Nat) : Statement (.readCmd opc len cap) := opField_mkWord _ _ _
theorem writeRegs (addr : BitVec 16) (payload : List Byte) (len : Nat) : Statement (.writeRegs addr payload len) := opField_mkWord _ _ _
theorem readRegs (addr : BitVec 16) (len cap : Nat) : Statement (.readRegs addr len cap) := opField_mkWord _ _ _
theorem writeBuf (off : Byte) (payload : List Byte) (len : Nat) : Statement (.writeBuf off payload len) := opField_mkWord _ _ _
theorem readBuf (off : Byte) (len cap : Nat) : Statement (.readBuf off len cap) := opField_mkWord _ _ _
theorem setMode (mode : OperatingMode) : Statement (.setMode mode) := opField_mkWord _ _ _
theorem getMode : Statement .getMode := opField_mkWord _ _ _
theorem resetDevice : Statement .resetDevice := opField_mkWord _ _ _
theorem initOscCtrl : Statement .initOscCtrl := opField_mkWord _ _ _
theorem getOscWakeupMs : Statement .getOscWakeupMs := opField_mkWord _ _ _
theorem writeReg (addr : BitVec 16) (v : Byte) : Statement (.writeReg addr v) := opField_mkWord _ _ _
theorem readReg (addr : BitVec 16) : Statement (.readReg addr) := opField_mkWord _ _ _

end Sys2Proof.Laws.Selector
end

