-- ==== Sys2Proof/Laws/Programs.lean ====
section
/-! SUPPORT. The shape of the micro-programs (30_encoding R97): what a prefix does to the two lines, which entries exchange bytes, where chip-select stands at them, at a wait and at the end, and how many data bytes a prefix receives. -/

namespace Sys2Proof.Machine

/-! The folds over a micro-program. -/

theorem csAfterOps_append (l : Level) (p q : List MicroOp) :
    csAfterOps l (p ++ q) = csAfterOps (csAfterOps l p) q := by
  induction p generalizing l with
  | nil => rfl
  | cons m p ih => cases m <;> exact ih _

theorem resetAfterOps_append (l : Level) (p q : List MicroOp) :
    resetAfterOps l (p ++ q) = resetAfterOps (resetAfterOps l p) q := by
  induction p generalizing l with
  | nil => rfl
  | cons m p ih => cases m <;> exact ih _

theorem dataCount_append (p q : List MicroOp) : dataCount (p ++ q) = dataCount p + dataCount q := by
  induction p with
  | nil => simp [dataCount]
  | cons m p ih => cases m <;> grind [dataCount]

/-- An entry that drives no line. -/
def drivesNothing : MicroOp → Bool
  | .cs _ => false
  | .rst _ => false
  | _ => true

/-- An entry that is no `RST`, `MODEW` or `DBGW`: everything a transaction is made of. -/
def ofTransaction : MicroOp → Bool
  | .rst _ => false
  | .modeW _ => false
  | .dbgW _ => false
  | .dlyMs _ => false
  | _ => true

theorem csAfterOps_of_drivesNothing {p : List MicroOp} (h : ∀ m ∈ p, m.isXfer = true) (l : Level) :
    csAfterOps l p = l := by
  induction p with
  | nil => rfl
  | cons m p ih =>
    have hm := h m (by simp)
    have hp := ih fun m' hm' => h m' (by simp [hm'])
    cases m <;> first | exact hp | simp [MicroOp.isXfer] at hm

theorem resetAfterOps_of_transaction {p : List MicroOp} (h : ∀ m ∈ p, ofTransaction m = true) (l : Level) :
    resetAfterOps l p = l := by
  induction p with
  | nil => rfl
  | cons m p ih =>
    have hm := h m (by simp)
    have hp := ih fun m' hm' => h m' (by simp [hm'])
    cases m <;> first | exact hp | simp [ofTransaction] at hm

/-- One more entry taken. -/
theorem take_succ_of_at {p : List MicroOp} {k : Nat} {m : MicroOp} (h : p[k]? = some m) :
    p.take (k + 1) = p.take k ++ [m] := by
  rw [List.take_add_one, h]; rfl

theorem mem_of_at {p : List MicroOp} {k : Nat} {m : MicroOp} (h : p[k]? = some m) : m ∈ p :=
  List.mem_of_getElem? h

/-! Frames. -/

theorem send_isXfer (bs : List Byte) : ∀ m ∈ send bs, m.isXfer = true := by
  intro m hm
  simp only [send, List.mem_map] at hm
  obtain ⟨b, _, rfl⟩ := hm
  rfl

theorem receive_isXfer (len : Nat) : ∀ m ∈ receive len, m.isXfer = true := by
  intro m hm
  simp only [receive, List.mem_map] at hm
  obtain ⟨b, _, rfl⟩ := hm
  rfl

@[simp] theorem send_length (bs : List Byte) : (send bs).length = bs.length := by simp [send]
@[simp] theorem receive_length (len : Nat) : (receive len).length = len := by simp [receive]

@[simp] theorem dataCount_send (bs : List Byte) : dataCount (send bs) = 0 := by
  induction bs with
  | nil => rfl
  | cons b bs ih => exact ih

theorem take_send (k : Nat) (bs : List Byte) : (send bs).take k = send (bs.take k) := by
  simp [send, List.map_take]

theorem take_receive (k len : Nat) : (receive len).take k = receive (min k len) := by
  simp only [receive, ← List.map_take, List.take_range]

theorem receive_succ (n : Nat) : receive (n + 1) = receive n ++ [.rx n] := by
  simp [receive, List.range_succ]

@[simp] theorem dataCount_receive (len : Nat) : dataCount (receive len) = len := by
  induction len with
  | zero => rfl
  | succ n ih => rw [receive_succ, dataCount_append, ih]; rfl

/-- The frame of each primitive (30_encoding R86). -/
def frameOf (cfg : Config) : Instr → List MicroOp
  | .issueCmd opc payload len => frameCmdW opc payload len
  | .readCmd opc len _ => frameCmdR opc len
  | .writeRegs addr payload len => frameRegW cfg addr payload len
  | .readRegs addr len _ => frameRegR cfg addr len
  | .writeBuf off payload len => frameBufW cfg off payload len
  | .readBuf off len _ => frameBufR cfg off len
  | .writeReg addr v => frameRegW cfg addr [v] 1
  | .readReg addr => frameRegR cfg addr 1
  | .select => []
  | .deselect => []
  | .waitReady => []
  | .setMode _ => []
  | .getMode => []
  | .resetDevice => []
  | .initOscCtrl => []
  | .getOscWakeupMs => []

/-- A primitive's micro-program is its frame in a transaction. -/
theorem uprog_primitive {i : Instr} (h : isPrimitive i = true) (cfg : Config) :
    uprog cfg i = transaction (frameOf cfg i) := by
  cases i <;> first | rfl | simp [isPrimitive] at h

theorem frameCmdW_isXfer (opc : Byte) (p : List Byte) (n : Nat) : ∀ m ∈ frameCmdW opc p n, m.isXfer = true := by
  intro m hm
  simp only [frameCmdW, sendPayload, List.mem_cons] at hm
  rcases hm with rfl | hm
  · rfl
  · exact send_isXfer _ m hm

theorem frameOf_isXfer (cfg : Config) (i : Instr) : ∀ m ∈ frameOf cfg i, m.isXfer = true := by
  intro m hm
  cases i <;>
    simp only [frameOf, frameCmdW, frameCmdR, frameRegW, frameRegR, frameBufW, frameBufR, sendPayload, List.mem_cons,
      List.mem_append, List.not_mem_nil] at hm <;>
    grind [send_isXfer, receive_isXfer, MicroOp.isXfer]

/-- In a frame the `k`th data byte is received where `k` have been received before. -/
theorem frameOf_rx {cfg : Config} {i : Instr} {j k : Nat} (h : (frameOf cfg i)[j]? = some (.rx k)) :
    k = dataCount ((frameOf cfg i).take j) := by
  have hs : ∀ (bs : List Byte) (j : Nat), (send bs)[j]? ≠ some (.rx k) := by
    intro bs j hj
    simp [send] at hj
  have hr : ∀ (n j : Nat), (receive n)[j]? = some (.rx k) → k = dataCount ((receive n).take j) := by
    intro n j hj
    simp only [receive, List.getElem?_map, Option.map_eq_some_iff, MicroOp.rx.injEq] at hj
    obtain ⟨a, ha, rfl⟩ := hj
    have hj : j < n := by
      by_contra hc
      rw [List.getElem?_eq_none (by simpa using hc)] at ha
      cases ha
    rw [List.getElem?_range hj] at ha
    cases ha
    rw [take_receive, dataCount_receive]; omega
  cases i with
  | issueCmd opc p n =>
    cases j with
    | zero => simp [frameOf, frameCmdW] at h
    | succ j => simp [frameOf, frameCmdW, sendPayload] at h; exact absurd h (hs _ _)
  | readCmd opc n c =>
    cases j with
    | zero => simp [frameOf, frameCmdR] at h
    | succ j => simp [frameOf, frameCmdR] at h ⊢; simpa [dataCount] using hr _ _ h
  | writeRegs a p n =>
    rcases j with _ | _ | _ | j <;> simp [frameOf, frameRegW, addrBytes, send] at h
    exact absurd h (hs (p.take n) j)
  | writeReg a v =>
    rcases j with _ | _ | _ | j <;> simp [frameOf, frameRegW, addrBytes, send] at h
    exact absurd h (hs [v] j)
  | readRegs a n c =>
    rcases j with _ | _ | _ | _ | j <;> simp [frameOf, frameRegR, addrBytes, send] at h ⊢
    simpa [dataCount] using hr _ _ h
  | readReg a =>
    rcases j with _ | _ | _ | _ | j <;> simp [frameOf, frameRegR, addrBytes, send] at h ⊢
    simpa [dataCount] using hr _ _ h
  | writeBuf a p n =>
    rcases j with _ | _ | j <;> simp [frameOf, frameBufW] at h
    exact absurd h (hs (p.take n) j)
  | readBuf a n c =>
    rcases j with _ | _ | _ | j <;> simp [frameOf, frameBufR] at h ⊢
    simpa [dataCount] using hr _ _ h
  | _ => simp [frameOf] at h

/-- Where an entry of a transaction stands. -/
theorem transaction_at {frame : List MicroOp} {k : Nat} {m : MicroOp} (h : (transaction frame)[k]? = some m) :
    (k < 4 ∧ m.isXfer = false) ∨
      (∃ j, k = j + 4 ∧ frame[j]? = some m ∧
        (transaction frame).take k = [.wait, .settle, .cs .low, .settle] ++ frame.take j) ∨
      (frame.length + 4 ≤ k ∧ m.isXfer = false) := by
  have e : transaction frame = [.wait, .settle, .cs .low, .settle] ++ (frame ++ [.settle, .cs .high, .settle, .wait]) := by
    simp [transaction, sel, desel]
  rw [e] at h ⊢
  by_cases h4 : k < 4
  · rcases k with _ | _ | _ | _ | k
    · simp at h; exact .inl ⟨by omega, by simp [← h, MicroOp.isXfer]⟩
    · simp at h; exact .inl ⟨by omega, by simp [← h, MicroOp.isXfer]⟩
    · simp at h; exact .inl ⟨by omega, by simp [← h, MicroOp.isXfer]⟩
    · simp at h; exact .inl ⟨by omega, by simp [← h, MicroOp.isXfer]⟩
    · omega
  · obtain ⟨j, rfl⟩ : ∃ j, k = j + 4 := ⟨k - 4, by omega⟩
    simp only [List.cons_append, List.nil_append, List.getElem?_cons_succ] at h
    by_cases hj : j < frame.length
    · rw [List.getElem?_append_left hj] at h
      refine .inr (.inl ⟨j, rfl, h, ?_⟩)
      simp [List.take_append_of_le_length (Nat.le_of_lt hj)]
    · rw [List.getElem?_append_right (by omega)] at h
      refine .inr (.inr ⟨by omega, ?_⟩)
      rcases hd : j - frame.length with _ | _ | _ | _ | d <;> rw [hd] at h <;> simp at h <;>
        simp [← h, MicroOp.isXfer]

theorem transaction_length (frame : List MicroOp) : (transaction frame).length = frame.length + 8 := by
  simp [transaction, sel, desel]

/-- A transaction ends with chip-select high. -/
theorem csAfterOps_transaction (frame : List MicroOp) (l : Level) : csAfterOps l (transaction frame) = .high := by
  have e : transaction frame = ([.wait] ++ sel ++ frame ++ [.settle]) ++ [.cs .high, .settle, .wait] := by
    simp [transaction, desel]
  rw [e, csAfterOps_append]; rfl

/-- In a transaction chip-select is low at every exchange. -/
theorem csAfterOps_at_xfer {frame : List MicroOp} (hf : ∀ m ∈ frame, m.isXfer = true) {k : Nat} {m : MicroOp}
    (h : (transaction frame)[k]? = some m) (hx : m.isXfer = true) (l : Level) :
    csAfterOps l ((transaction frame).take k) = .low := by
  rcases transaction_at h with ⟨_, hn⟩ | ⟨j, _, _, ht⟩ | ⟨_, hn⟩
  · simp [hn] at hx
  · rw [ht, csAfterOps_append]
    exact csAfterOps_of_drivesNothing (fun m' hm' => hf m' (List.mem_of_mem_take hm')) _
  · simp [hn] at hx

theorem ofTransaction_of_mem {frame : List MicroOp} (hf : ∀ m ∈ frame, m.isXfer = true) :
    ∀ m ∈ transaction frame, ofTransaction m = true := by
  intro m hm
  simp only [transaction, sel, desel, List.mem_cons, List.mem_append, List.not_mem_nil, or_false] at hm
  have key : m ∈ frame → ofTransaction m = true := fun h => by
    have := hf m h
    cases m <;> simp_all [MicroOp.isXfer, ofTransaction]
  grind [ofTransaction]

/-! Every micro-program at once. -/

/-- The two transactions of INIT_OSC_CTRL (45_startup_sequencer R171). -/
theorem uprog_initOscCtrl (cfg : Config) : uprog cfg .initOscCtrl =
    transaction (frameCmdW cfg.opcSetOscCtrl (oscCtrlPayload cfg) 4) ++
      transaction (frameCmdW cfg.opcCalibrate [cfg.calAll] 1) := rfl

theorem dataCount_frameCmdW (opc : Byte) (p : List Byte) (n : Nat) : dataCount (frameCmdW opc p n) = 0 := by
  simp [frameCmdW, sendPayload, dataCount]

/-- Chip-select is low at every exchange of every micro-program, whatever it was at acceptance. -/
theorem uprog_at_xfer {cfg : Config} {i : Instr} {k : Nat} {m : MicroOp} (h : (uprog cfg i)[k]? = some m)
    (hx : m.isXfer = true) (l : Level) : csAfterOps l ((uprog cfg i).take k) = .low := by
  by_cases hp : isPrimitive i = true
  · rw [uprog_primitive hp] at h ⊢
    exact csAfterOps_at_xfer (frameOf_isXfer cfg i) h hx l
  · by_cases hi : i = .initOscCtrl
    · subst hi
      rw [uprog_initOscCtrl] at h ⊢
      by_cases hk : k < (transaction (frameCmdW cfg.opcSetOscCtrl (oscCtrlPayload cfg) 4)).length
      · rw [List.getElem?_append_left hk] at h
        rw [List.take_append_of_le_length (Nat.le_of_lt hk)]
        exact csAfterOps_at_xfer (frameCmdW_isXfer _ _ _) h hx l
      · rw [List.getElem?_append_right (by omega)] at h
        rw [List.take_append, List.take_of_length_le (by omega), csAfterOps_append]
        exact csAfterOps_at_xfer (frameCmdW_isXfer _ _ _) h hx _
    · have hm := mem_of_at h
      cases i <;> simp_all [isPrimitive, uprog, operation, opSelect, opDeselect, opWaitReady, opSetMode, opGetMode,
        opResetDevice, opGetOscWakeupMs, sel, desel] <;> grind [MicroOp.isXfer]

/-- A data byte is received where as many as its index have been received before. -/
theorem uprog_at_rx {cfg : Config} {i : Instr} {k j : Nat} (h : (uprog cfg i)[k]? = some (.rx j)) :
    j = dataCount ((uprog cfg i).take k) := by
  by_cases hp : isPrimitive i = true
  · rw [uprog_primitive hp] at h ⊢
    rcases transaction_at h with ⟨_, hn⟩ | ⟨j', _, hj, ht⟩ | ⟨_, hn⟩
    · simp [MicroOp.isXfer] at hn
    · rw [ht, dataCount_append]
      simpa [dataCount] using frameOf_rx hj
    · simp [MicroOp.isXfer] at hn
  · have hm := mem_of_at h
    cases i <;> simp_all [isPrimitive, uprog, operation, opSelect, opDeselect, opWaitReady, opSetMode, opGetMode,
      opResetDevice, opGetOscWakeupMs, opInitOscCtrl, transaction, frameCmdW, sendPayload, send, sel, desel]
    grind

/-- The entries of every micro-program but SET_MODE's and RESET_DEVICE's are those of a transaction. -/
theorem uprog_ofTransaction {cfg : Config} {i : Instr} (h1 : modeCarried i = none) (h2 : i ≠ .resetDevice) :
    ∀ m ∈ uprog cfg i, ofTransaction m = true := by
  by_cases hp : isPrimitive i = true
  · rw [uprog_primitive hp]
    exact ofTransaction_of_mem (frameOf_isXfer cfg i)
  · by_cases hi : i = .initOscCtrl
    · subst hi
      rw [uprog_initOscCtrl]
      intro m hm
      rcases List.mem_append.mp hm with hm | hm
      · exact ofTransaction_of_mem (frameCmdW_isXfer _ _ _) m hm
      · exact ofTransaction_of_mem (frameCmdW_isXfer _ _ _) m hm
    · intro m hm
      cases i <;> simp_all [isPrimitive, modeCarried, uprog, operation, opSelect, opDeselect, opWaitReady, opGetMode,
        opGetOscWakeupMs, sel, desel] <;> grind [ofTransaction]

/-- `RESET_N` is high at every wait and at every end. -/
theorem uprog_reset {cfg : Config} {i : Instr} {k : Nat}
    (h : (uprog cfg i)[k]? = some .wait ∨ k = (uprog cfg i).length) :
    resetAfterOps .high ((uprog cfg i).take k) = .high := by
  by_cases h1 : modeCarried i = none
  · by_cases h2 : i = .resetDevice
    · subst h2
      rcases h with h | rfl
      · have := mem_of_at h
        simp [uprog, operation, opResetDevice] at this
      · simp [uprog, operation, opResetDevice, resetAfterOps]
    · exact resetAfterOps_of_transaction
        (fun m hm => uprog_ofTransaction h1 h2 m (List.mem_of_mem_take hm)) _
  · cases i <;> simp [modeCarried] at h1
    rcases h with h | rfl
    · have := mem_of_at h
      simp [uprog, operation, opSetMode] at this
    · rfl

/-- In a transaction that starts with chip-select high, it is high at every wait. -/
theorem csAfterOps_at_wait {frame : List MicroOp} (hf : ∀ m ∈ frame, m.isXfer = true) {k : Nat}
    (h : (transaction frame)[k]? = some .wait) : csAfterOps .high ((transaction frame).take k) = .high := by
  have e : transaction frame = .wait :: (sel ++ frame ++ desel ++ [.wait]) := by simp [transaction]
  rcases Nat.eq_zero_or_pos k with rfl | hk
  · simp [csAfterOps]
  · have hlen := transaction_length frame
    have hlt : k < (transaction frame).length := by
      by_contra hc
      rw [List.getElem?_eq_none (by omega)] at h
      cases h
    have hend : k = frame.length + 7 := by
      by_contra hne
      obtain ⟨j, rfl⟩ : ∃ j, k = j + 1 := ⟨k - 1, by omega⟩
      rw [e, List.getElem?_cons_succ, List.getElem?_append_left (by simp [sel, desel]; omega)] at h
      have hm := mem_of_at h
      simp only [sel, desel, List.mem_append, List.mem_cons, List.not_mem_nil, or_false, reduceCtorEq, false_or] at hm
      have := hf _ hm
      cases this
    have ht : (transaction frame).take k ++ [.wait] = transaction frame := by
      rw [← take_succ_of_at h, List.take_of_length_le (by omega)]
    have := csAfterOps_transaction frame .high
    rw [← ht, csAfterOps_append] at this
    exact this

/-- Where a whole micro-program leaves chip-select: SELECT low, DESELECT high, every other where it was accepted. -/
theorem uprog_cs_end {cfg : Config} {i : Instr} {l : Level} (h : mayStartWith i l) :
    csAfterOps l (uprog cfg i) = chipSelectLeft l [.req i.core] := by
  by_cases hp : isPrimitive i = true
  · rw [uprog_primitive hp, csAfterOps_transaction]
    cases i <;> simp [isPrimitive] at hp <;> exact h.symm
  · by_cases hi : i = .initOscCtrl
    · subst hi
      rw [uprog_initOscCtrl, csAfterOps_append, csAfterOps_transaction]
      exact h.symm
    · cases i <;> first | exact absurd rfl hi | rfl | exact absurd rfl hp

/-- At every wait chip-select is where the whole micro-program leaves it: waits stand outside the selected part
(42_ready_handshake R123). -/
theorem uprog_cs_at_wait {cfg : Config} {i : Instr} {l : Level} (hl : mayStartWith i l) {k : Nat}
    (h : (uprog cfg i)[k]? = some .wait) : csAfterOps l ((uprog cfg i).take k) = csAfterOps l (uprog cfg i) := by
  by_cases hp : isPrimitive i = true
  · obtain rfl : l = .high := by cases i <;> simp [isPrimitive] at hp <;> exact hl
    rw [uprog_primitive hp] at h ⊢
    rw [csAfterOps_at_wait (frameOf_isXfer cfg i) h, csAfterOps_transaction]
  · by_cases hi : i = .initOscCtrl
    · subst hi
      obtain rfl : l = .high := hl
      rw [uprog_initOscCtrl] at h ⊢
      rw [csAfterOps_append .high (transaction _), csAfterOps_transaction]
      by_cases hk : k < (transaction (frameCmdW cfg.opcSetOscCtrl (oscCtrlPayload cfg) 4)).length
      · rw [List.getElem?_append_left hk] at h
        rw [List.take_append_of_le_length (Nat.le_of_lt hk)]
        exact csAfterOps_at_wait (frameCmdW_isXfer _ _ _) h
      · rw [List.getElem?_append_right (by omega)] at h
        rw [List.take_append, List.take_of_length_le (by omega), csAfterOps_append, csAfterOps_transaction]
        exact csAfterOps_at_wait (frameCmdW_isXfer _ _ _) h
    · have hm := mem_of_at h
      cases i <;> simp_all [isPrimitive, uprog, operation, opSelect, opDeselect, opWaitReady, opSetMode, opGetMode,
        opResetDevice, opGetOscWakeupMs, sel, desel]
      obtain rfl : k = 0 := by
        by_contra hk
        rw [List.getElem?_eq_none (by simp; omega)] at h
        cases h
      rfl

/-- `MODEW` and `DBGW` stand in SET_MODE's micro-program only, at 0 and 1. -/
theorem uprog_at_mode {cfg : Config} {i : Instr} {k : Nat} {mode : OperatingMode} :
    ((uprog cfg i)[k]? = some (.modeW mode) → i = .setMode mode ∧ k = 0) ∧
      ((uprog cfg i)[k]? = some (.dbgW mode) → i = .setMode mode ∧ k = 1) := by
  by_cases h1 : modeCarried i = none
  · have key : ∀ m, m ∈ uprog cfg i → m ≠ .modeW mode ∧ m ≠ .dbgW mode := by
      intro m hm
      by_cases h2 : i = .resetDevice
      · subst h2
        simp [uprog, operation, opResetDevice] at hm
        grind
      · have := uprog_ofTransaction h1 h2 m hm
        constructor <;> rintro rfl <;> simp [ofTransaction] at this
    exact ⟨fun h => absurd rfl (key _ (mem_of_at h)).1, fun h => absurd rfl (key _ (mem_of_at h)).2⟩
  · cases i <;> simp [modeCarried] at h1
    rename_i m
    have e : uprog cfg (.setMode m) = [.modeW m, .dbgW m] := rfl
    rw [e]
    rcases k with _ | _ | k <;> simp

end Sys2Proof.Machine
end

