-- ==== Sys2Proof/Laws/Step.lean ====
section
/-! SUPPORT. What one step can do: the inversion of `step`, of the arbiter's grant, and what every meaning does to the configuration and the trace. -/

namespace Sys2Proof.Machine

/-- Everything a step that answers a next state has done: it ran the operation in flight, it idled with no request, or
the meaning of the decoded request ran. -/
theorem step_next_cases {s t : State} (h : step s = .next t) :
    (∃ op, s.seq.opl = some op ∧ exec op s = .next t) ∨
      (s.seq.opl = none ∧ s.grantNext = none ∧ t = s) ∨
      (s.seq.opl = none ∧ ∃ r g i, s.grantNext = some (r, g) ∧ decode r = .ok i ∧ exec i g = .next t) := by
  unfold step at h
  split at h
  · exact .inl ⟨_, ‹_›, h⟩
  · split at h
    · cases h; exact .inr (.inl ⟨‹_›, ‹_›, rfl⟩)
    · split at h
      · exact .inr (.inr ⟨‹_›, _, _, _, ‹_›, ‹_›, h⟩)
      · cases h

/-- The arbiter's choice is one of those waiting, and touches only its own script and the count of free values. -/
theorem choose_some {e env : Environment} {w : List Nat} {q : Nat} (h : e.choose w = some (q, env)) :
    q ∈ w ∧ env.busy = e.busy ∧ env.rx = e.rx ∧ env.dbgFirst = e.dbgFirst := by
  unfold Environment.choose at h
  split at h
  · cases h
  · cases h; simp
  · rename_i q0 rest _
    simp only [Option.some.injEq, Prod.mk.injEq] at h
    obtain ⟨rfl, rfl⟩ := h
    refine ⟨?_, ?_, ?_, ?_⟩
    · rw [List.getD_eq_getElem _ _ (by simpa using Nat.mod_lt _ (Nat.succ_pos _))]
      exact List.getElem_mem _
    all_goals (unfold Environment.nextChoice; split <;> rfl)

/-- What the grant of a request changes: the granted queue, the grant, and the arbiter's part of the answers. -/
theorem grantNext_some {s g : State} {r : Request} (h : s.grantNext = some (r, g)) :
    ∃ q ∈ s.waiting, ∃ rest env, s.requests.getD q [] = r :: rest ∧
      g = { s with requests := s.requests.set q rest, grant := some q, env := env } ∧
      env.busy = s.env.busy ∧ env.rx = s.env.rx ∧ env.dbgFirst = s.env.dbgFirst := by
  unfold State.grantNext at h
  split at h
  · cases h
  · rename_i q env hc
    split at h
    · cases h
    · rename_i r' rest hq
      cases h
      obtain ⟨hw, hb⟩ := choose_some hc
      exact ⟨q, hw, rest, env, hq, rfl, hb⟩

/-- No entry changes the configuration, and every entry appends to the trace events that are no request. -/
theorem microStep_cfg_trace {m : MicroOp} {s t : State} (h : microStep m s = .next t) :
    t.cfg = s.cfg ∧ ∃ es, t.trace = s.trace ++ es ∧ ∀ j, Event.req j ∉ es := by
  rcases microStep_next_cases h with ⟨rfl, rfl⟩ | ⟨rfl, rfl⟩ | ⟨l, rfl, rfl⟩ | ⟨b, rfl, _, rfl⟩ |
    ⟨b, rfl, _, rfl⟩ | ⟨k, rfl, _, rfl⟩ | ⟨l, rfl, rfl⟩ | ⟨n, rfl, rfl⟩ | ⟨mo, rfl, rfl⟩ | ⟨mo, rfl, rfl⟩
  · rcases poll_cases s with ⟨_, e⟩ | ⟨_, _, e⟩ | ⟨_, _, e⟩ <;> rw [e]
    · exact ⟨rfl, [.busySample .low], rfl, by simp⟩
    · exact ⟨rfl, [.busySample .high, .resp _], by simp [State.raise, State.counted]; rfl, by simp⟩
    · exact ⟨rfl, [.busySample .high, .delayUs _], by simp [State.counted]; rfl, by simp⟩
  · exact ⟨rfl, [.settle], rfl, by simp⟩
  · exact ⟨rfl, [.csWrite l], rfl, by simp⟩
  · exact ⟨rfl, [.xfer _ _], rfl, by simp⟩
  · exact ⟨rfl, [.xfer _ _], rfl, by simp⟩
  · exact ⟨rfl, [.xfer _ _], rfl, by simp⟩
  · exact ⟨rfl, [.rstWrite l], rfl, by simp⟩
  · exact ⟨rfl, [.delayMs n], rfl, by simp⟩
  · exact ⟨rfl, [], by simp, by simp⟩
  · rcases mirror_cases s mo with ⟨_, e⟩ | ⟨_, _, e⟩ | ⟨_, d, _, e⟩ <;> rw [e]
    · exact ⟨rfl, [], by simp, by simp⟩
    · cases s.env.nextDbgFirst.1 <;> exact ⟨rfl, [.dbgWrite _ _], rfl, by simp⟩
    · cases d <;> exact ⟨rfl, [.dbgWrite _ _], rfl, by simp⟩

/-- No meaning changes the configuration, and every meaning only appends to the trace. -/
theorem exec_cfg_trace {i : Instr} {s t : State} (h : exec i s = .next t) :
    t.cfg = s.cfg ∧ ∃ es, t.trace = s.trace ++ es := by
  rcases exec_next_cases h with ⟨_, _, _, rfl⟩ | ⟨_, _, _, _, _, _, _, _, rfl⟩ | ⟨m, _, hm⟩ | ⟨_, _, rfl⟩
  · exact ⟨rfl, _, rfl⟩
  · exact ⟨rfl, _, by simp [State.raise]; rfl⟩
  · obtain ⟨hc, es, he, _⟩ := microStep_cfg_trace hm
    exact ⟨hc, es, he⟩
  · refine ⟨?_, [.resp ((operation s.cfg i).reply.result s)], ?_⟩ <;>
      cases (operation s.cfg i).reply <;> rfl

end Sys2Proof.Machine
end

