-- ==== Sys2Proof/Laws/Runs.lean ====
section
/-! SUPPORT. Runs of one operation, piece by piece: acceptance, polls, waits, chip-select, frames, whole transactions, the response; what a frame sends and what it leaves in the staging registers. -/

namespace Sys2Proof.Machine

/-- Runs of one operation compose. -/
theorem execFor_add {a b : Nat} {i : Instr} {s t : State} (h : execFor a i s = .next t) :
    execFor (a + b) i s = execFor b i t := by
  induction a generalizing s with
  | zero => cases h; simp
  | succ a ih =>
    rw [show a + 1 + b = (a + b) + 1 by omega]
    simp only [execFor] at h ⊢
    split at h
    · exact ih h
    · cases h
    · cases h

/-- One step is a run of one. -/
theorem execFor_one {i : Instr} {s t : State} (h : exec i s = .next t) : execFor 1 i s = .next t := by
  simp [execFor, h]

/-- The entry that stands first in what is left of the micro-program is the one the sequencer is at. -/
theorem isAt_of_drop {i : Instr} {s : State} {m : MicroOp} {rest : List MicroOp} (ho : s.seq.opl = some i.core)
    (h : (uprog s.cfg i).drop s.seq.upc = m :: rest) :
    s.isAt i m ∧ (uprog s.cfg i).drop (s.seq.upc + 1) = rest := by
  have h0 : ((uprog s.cfg i).drop s.seq.upc)[0]? = some m := by rw [h]; rfl
  refine ⟨⟨ho, by simpa using h0⟩, ?_⟩
  rw [← List.drop_drop, h]; rfl

/-- Nothing left of the micro-program. -/
theorem atEnd_of_drop {p : List MicroOp} {k : Nat} (hk : k ≤ p.length) (h : p.drop k = []) : k = p.length := by
  have := List.drop_eq_nil_iff.mp h
  omega

/-- The byte a transfer entry sends. -/
def byteSent (cfg : Config) : MicroOp → Byte
  | .tx b => b
  | .txs b => b
  | .rx _ => cfg.nopByte
  | _ => 0

/-- What `OUT` and `STATUS_OUT` are after transfer entries that received these bytes. -/
def received : List MicroOp → List Byte → List Byte × Byte → List Byte × Byte
  | .tx _ :: ms, _ :: bs, x => received ms bs x
  | .txs _ :: ms, b :: bs, x => received ms bs (x.1, b)
  | .rx k :: ms, b :: bs, x => received ms bs (x.1.take k ++ b :: x.1.drop (k + 1), x.2)
  | _, _, x => x

/-- A run of transfer entries with chip-select low. -/
theorem run_frame {i : Instr} {rx' : List Byte} {rest : List MicroOp} :
    ∀ (ms : List MicroOp) (got : List Byte) (s : State), (∀ m ∈ ms, m.isXfer = true) → s.seq.opl = some i.core →
      (uprog s.cfg i).drop s.seq.upc = ms ++ rest → s.csN = .low → s.env.rx = got ++ rx' → got.length = ms.length →
      execFor ms.length i s = .next { s with
        seq := { s.seq with upc := s.seq.upc + ms.length }
        out := (received ms got (s.out, s.statusOut)).1
        statusOut := (received ms got (s.out, s.statusOut)).2
        env := { s.env with rx := rx' }
        trace := s.trace ++ List.zipWith Event.xfer (ms.map (byteSent s.cfg)) got } := by
  intro ms
  induction ms with
  | nil =>
    intro got s _ _ _ _ hr hg
    obtain rfl : got = [] := by simpa using hg
    simp only [List.nil_append] at hr
    simp [execFor, received, ← hr]
  | cons m ms ih =>
    intro got s hx ho hd hc hr hg
    obtain ⟨b, got, rfl⟩ : ∃ b g, got = b :: g := by
      cases got with
      | nil => simp at hg
      | cons b g => exact ⟨b, g, rfl⟩
    obtain ⟨hat, hd'⟩ := isAt_of_drop (rest := ms ++ rest) ho hd
    have hb : s.env.nextRx = (b, { s.env with rx := got ++ rx' }) := by
      simp [Environment.nextRx, hr]
    have hm := hx m (by simp)
    have e1 : ∃ t, exec i s = .next t ∧ t = { s with
        seq := { s.seq with upc := s.seq.upc + 1 }
        out := (received [m] [b] (s.out, s.statusOut)).1
        statusOut := (received [m] [b] (s.out, s.statusOut)).2
        env := { s.env with rx := got ++ rx' }
        trace := s.trace ++ [Event.xfer (byteSent s.cfg m) b] } := by
      rw [exec_isAt hat]
      cases m <;> first | (cases hm; done) | skip
      all_goals
        simp only [microStep]
        rw [transfer_low _ _ _ hc]
        refine ⟨_, rfl, ?_⟩
        simp [hb, received, byteSent, State.emit, State.advance, State.storeOut, hc]
    obtain ⟨t, e1, rfl⟩ := e1
    rw [show (m :: ms).length = 1 + ms.length by simp; omega, execFor_add (execFor_one e1)]
    refine (ih got _ (fun m' h => hx m' (by simp [h])) ?_ ?_ ?_ rfl (by simpa using hg)).trans ?_
    · exact ho
    · exact hd'
    · exact hc
    have e2 : ∀ x, received (m :: ms) (b :: got) x = received ms got (received [m] [b] x) := by
      intro x; cases m <;> first | (cases hm; done) | rfl
    simp [e2, Nat.add_comm, Nat.add_left_comm]

/-- Entries that neither wait nor touch the device, `MODE` or the debug lines. -/
def drivesLines : MicroOp → Bool
  | .settle => true
  | .cs _ => true
  | .rst _ => true
  | .dlyMs _ => true
  | .wait => false
  | .tx _ => false
  | .txs _ => false
  | .rx _ => false
  | .modeW _ => false
  | .dbgW _ => false

/-- The event of such an entry. -/
def lineEvent : MicroOp → Event
  | .cs l => .csWrite l
  | .rst l => .rstWrite l
  | .dlyMs n => .delayMs n
  | _ => .settle

/-- A run of such entries: the lines where they put them, one event each. -/
theorem run_lines {i : Instr} {rest : List MicroOp} :
    ∀ (ms : List MicroOp) (s : State), (∀ m ∈ ms, drivesLines m = true) → s.seq.opl = some i.core →
      (uprog s.cfg i).drop s.seq.upc = ms ++ rest →
      execFor ms.length i s = .next { s with
        csN := csAfterOps s.csN ms
        resetN := resetAfterOps s.resetN ms
        seq := { s.seq with upc := s.seq.upc + ms.length }
        trace := s.trace ++ ms.map lineEvent } := by
  intro ms
  induction ms with
  | nil => intro s _ _ _; simp [execFor, csAfterOps, resetAfterOps]
  | cons m ms ih =>
    intro s hx ho hd
    obtain ⟨hat, hd'⟩ := isAt_of_drop (rest := ms ++ rest) ho hd
    have hm := hx m (by simp)
    have e1 : exec i s = .next { s with
        csN := csAfterOps s.csN [m]
        resetN := resetAfterOps s.resetN [m]
        seq := { s.seq with upc := s.seq.upc + 1 }
        trace := s.trace ++ [lineEvent m] } := by
      rw [exec_isAt hat]
      cases m <;> first | (cases hm; done) | rfl
    rw [show (m :: ms).length = 1 + ms.length by simp; omega]
    refine (execFor_add (execFor_one e1)).trans ((ih _ (fun m' h => hx m' (by simp [h])) ?_ ?_).trans ?_)
    · exact ho
    · exact hd'
    · have a1 : csAfterOps s.csN (m :: ms) = csAfterOps (csAfterOps s.csN [m]) ms := csAfterOps_append _ [m] ms
      have a2 : resetAfterOps s.resetN (m :: ms) = resetAfterOps (resetAfterOps s.resetN [m]) ms :=
        resetAfterOps_append _ [m] ms
      simp [a1, a2, Nat.add_comm, Nat.add_left_comm]

/-- `SEL` or `DESEL`. -/
theorem run_chipSelect {i : Instr} {s : State} {l : Level} {rest : List MicroOp} (ho : s.seq.opl = some i.core)
    (hd : (uprog s.cfg i).drop s.seq.upc = .settle :: .cs l :: .settle :: rest) :
    execFor 3 i s = .next { s with
      csN := l
      seq := { s.seq with upc := s.seq.upc + 3 }
      trace := s.trace ++ csEvents l } := by
  exact run_lines [.settle, .cs l, .settle] s (by simp [drivesLines]) ho hd

/-- One busy poll below the bound. -/
theorem exec_poll_high {i : Instr} {s : State} {rest : List Level} (hat : s.isAt i .wait)
    (hb : s.env.busy = .high :: rest) (hm : waitFits s.cfg (s.seq.pollCnt + 1)) :
    exec i s = .next { s with
      seq := { s.seq with pollCnt := s.seq.pollCnt + 1 }
      env := { s.env with busy := rest }
      trace := s.trace ++ [.busySample .high, .delayUs s.cfg.pollIntervalUs] } := by
  have hn : s.env.nextBusy = (.high, { s.env with busy := rest }) := by simp [Environment.nextBusy, hb]
  rw [exec_isAt hat]
  simp only [microStep]
  rcases poll_cases s with ⟨h, _⟩ | ⟨_, ⟨m, h1, h2⟩, _⟩ | ⟨_, _, e⟩
  · rw [hn] at h; cases h
  · have := hm m h1; omega
  · rw [e]; simp [State.counted, State.emit, hn]

/-- `k` busy polls below the bound. -/
theorem run_polls {i : Instr} : ∀ (k : Nat) (s : State) (rest : List Level), s.isAt i .wait →
    s.env.busy = List.replicate k .high ++ rest → waitFits s.cfg (s.seq.pollCnt + k) →
    execFor k i s = .next { s with
      seq := { s.seq with pollCnt := s.seq.pollCnt + k }
      env := { s.env with busy := rest }
      trace := s.trace ++ busyPolls s.cfg k } := by
  intro k
  induction k with
  | zero =>
    intro s rest _ hb _
    simp only [List.replicate_zero, List.nil_append] at hb
    simp [execFor, busyPolls, ← hb]
  | succ k ih =>
    intro s rest hat hb hm
    have e1 := exec_poll_high hat (rest := List.replicate k .high ++ rest) (by simpa [List.replicate_succ] using hb)
      (fun m h => by have := hm m h; omega)
    rw [show k + 1 = 1 + k by omega, execFor_add (execFor_one e1)]
    refine (ih _ rest ?_ ?_ (fun m h => ?_)).trans ?_
    · exact hat
    · rfl
    · have := hm m h
      show s.seq.pollCnt + 1 + k < m
      omega
    simp [busyPolls, show 1 + k = k + 1 by omega, Nat.add_assoc]

/-- A wait that sees `n` busy samples and then a ready one. -/
theorem run_wait {i : Instr} {s : State} {n : Nat} {rest : List Level} (hat : s.isAt i .wait)
    (hp : s.seq.pollCnt = 0) (hm : waitFits s.cfg n) (hb : s.env.busy = List.replicate n .high ++ .low :: rest) :
    execFor (n + 1) i s = .next { s with
      seq := { s.seq with upc := s.seq.upc + 1 }
      env := { s.env with busy := rest }
      trace := s.trace ++ waitEvents s.cfg n } := by
  rw [execFor_add (run_polls n s (.low :: rest) hat hb (by simpa [hp] using hm))]
  refine execFor_one ((exec_isAt (i := i) (m := .wait) ?_).trans ?_)
  · exact hat
  simp only [microStep]
  rw [poll_low _ (by simp [Environment.nextBusy])]
  simp [Environment.nextBusy, waitEvents, hp]

/-- A wait that takes all its `m` samples busy ends the operation with the fault. -/
theorem run_failedWait {i : Instr} {s : State} {m : Nat} {rest : List Level} (hat : s.isAt i .wait)
    (hp : s.seq.pollCnt = 0) (hm : s.cfg.maxPollIter = some m) (h1 : 1 ≤ m)
    (hb : s.env.busy = List.replicate m .high ++ rest) :
    ∃ t, execFor m i s = .next t ∧
      t.trace = s.trace ++ (failedWaitEvents s.cfg m ++ [.resp (.fault (.deviceNotResponding m))]) ∧
      t.seq = ⟨none, 0, 0⟩ ∧ t.mode = s.mode ∧ t.csN = s.csN ∧ t.resetN = s.resetN ∧ t.dbgTx = s.dbgTx ∧
      t.dbgRx = s.dbgRx ∧ t.dbgRest = s.dbgRest ∧ t.requests = s.requests ∧ t.cfg = s.cfg ∧ t.env.busy = rest ∧
      t.env.rx = s.env.rx := by
  obtain ⟨k, rfl⟩ : ∃ k, m = k + 1 := ⟨m - 1, by omega⟩
  rw [execFor_add (run_polls k s (.high :: rest) hat (by rw [hb, List.replicate_succ']; simp)
    (fun m' h => by rw [hm] at h; cases h; omega))]
  refine ⟨State.raise (State.counted { s with
      seq := { s.seq with pollCnt := s.seq.pollCnt + k }
      env := { s.env with busy := .high :: rest }
      trace := s.trace ++ busyPolls s.cfg k }) (.deviceNotResponding (k + 1)),
    execFor_one ((exec_isAt (i := i) (m := .wait) ?_).trans ?_), ?_⟩
  · exact hat
  · simp only [microStep]
    rw [poll_high _ (by simp [Environment.nextBusy])]
    simp [State.counted, State.pollLimitReached, hm, hp]
  · refine ⟨?_, rfl, rfl, rfl, rfl, rfl, rfl, rfl, rfl, rfl, rfl, rfl⟩
    simp [State.raise, State.counted, failedWaitEvents, Environment.nextBusy]

/-- The response at the end of the micro-program. -/
theorem run_response {i : Instr} {s : State} (ho : s.seq.opl = some i.core)
    (hu : s.seq.upc = (uprog s.cfg i).length) :
    ∃ t, execFor 1 i s = .next t ∧ t.trace = s.trace ++ [.resp (responseOf i s)] ∧ t.seq = ⟨none, 0, 0⟩ ∧
      t.mode = s.mode ∧ t.csN = s.csN ∧ t.resetN = s.resetN ∧ t.dbgTx = s.dbgTx ∧ t.dbgRx = s.dbgRx ∧
      t.dbgRest = s.dbgRest ∧ t.requests = s.requests ∧ t.cfg = s.cfg ∧ t.env.busy = s.env.busy ∧
      t.env.rx = s.env.rx := by
  refine ⟨_, execFor_one (exec_atEnd ho hu), ?_⟩
  rw [← operation_result]
  cases (operation s.cfg i).reply <;> exact ⟨rfl, rfl, rfl, rfl, rfl, rfl, rfl, rfl, rfl, rfl, rfl, rfl⟩

/-- The acceptance. -/
theorem run_accept {i : Instr} {s : State} (ho : s.seq.opl = none) (hm : mayStartWith i s.csN)
    (hl : lengthFits s.cfg i) : execFor 1 i s = .next (s.latch i.core) := by
  refine execFor_one ?_
  rw [exec_idle i s ho]
  rcases accept_cases i s with ⟨h, _⟩ | ⟨_, _, e⟩ | ⟨_, l, c, h, h', _⟩ | ⟨_, l, c, h, h1, h2, _⟩ |
      ⟨_, l, c, h, _, h', _⟩
  · exact absurd hm h
  · exact e
  · have := (hl _ _ h).1; omega
  · have := (hl _ _ h).2; omega
  · have := (hl _ _ h).2; omega

/-- A transaction up to its trailing wait, from anywhere in a micro-program. -/
theorem run_toTrailingWait {i : Instr} {s : State} {frame rest : List MicroOp} {a : Nat} {got : List Byte}
    {busy' : List Level} {rx' : List Byte} (hf : ∀ m ∈ frame, m.isXfer = true) (ho : s.seq.opl = some i.core)
    (hd : (uprog s.cfg i).drop s.seq.upc = transaction frame ++ rest) (hp : s.seq.pollCnt = 0)
    (ha : waitFits s.cfg a) (hbusy : s.env.busy = List.replicate a .high ++ .low :: busy')
    (hrx : s.env.rx = got ++ rx') (hg : got.length = frame.length) :
    execFor (a + frame.length + 7) i s = .next { s with
      csN := .high
      seq := { s.seq with upc := s.seq.upc + (frame.length + 7) }
      out := (received frame got (s.out, s.statusOut)).1
      statusOut := (received frame got (s.out, s.statusOut)).2
      env := { s.env with busy := busy', rx := rx' }
      trace := s.trace ++ (waitEvents s.cfg a ++ csEvents .low ++
        frameEvents (frame.map (byteSent s.cfg)) got ++ csEvents .high) } ∧
      (uprog s.cfg i).drop (s.seq.upc + (frame.length + 7)) = .wait :: rest := by
  have hd0 : (uprog s.cfg i).drop s.seq.upc = .wait :: .settle :: .cs .low :: .settle ::
      (frame ++ (.settle :: .cs .high :: .settle :: (.wait :: rest))) := by
    rw [hd]; simp [transaction, sel, desel]
  obtain ⟨hat, hd1⟩ := isAt_of_drop ho hd0
  have hd4 : (uprog s.cfg i).drop (s.seq.upc + 1 + 3) =
      frame ++ (.settle :: .cs .high :: .settle :: (.wait :: rest)) := by
    rw [← List.drop_drop, hd1]; rfl
  have hd5 : (uprog s.cfg i).drop (s.seq.upc + 1 + 3 + frame.length) =
      .settle :: .cs .high :: .settle :: (.wait :: rest) := by
    rw [← List.drop_drop, hd4]; simp
  have hd6 : (uprog s.cfg i).drop (s.seq.upc + 1 + 3 + frame.length + 3) = .wait :: rest := by
    rw [← List.drop_drop, hd5]; rfl
  have e : s.seq.upc + 1 + 3 + frame.length + 3 = s.seq.upc + (frame.length + 7) := by omega
  refine ⟨?_, by rw [← e]; exact hd6⟩
  rw [show a + frame.length + 7 = (a + 1) + (3 + (frame.length + 3)) by omega]
  refine (execFor_add (run_wait hat hp ha hbusy)).trans ?_
  refine (execFor_add (run_chipSelect (l := .low)
    (rest := frame ++ (.settle :: .cs .high :: .settle :: (.wait :: rest))) ?_ ?_)).trans ?_
  · exact ho
  · exact hd1
  refine (execFor_add (run_frame (rest := .settle :: .cs .high :: .settle :: (.wait :: rest)) (rx' := rx')
    frame got _ hf ?_ ?_ ?_ ?_ hg)).trans ?_
  · exact ho
  · exact hd4
  · rfl
  · exact hrx
  refine (run_chipSelect (l := .high) (rest := .wait :: rest) ?_ ?_).trans ?_
  · exact ho
  · exact hd5
  simp [frameEvents, ← e]

/-- One whole transaction (43_transaction_primitives R130), from anywhere in a micro-program. -/
theorem run_transaction {i : Instr} {s : State} {frame rest : List MicroOp} {a b : Nat} {got : List Byte}
    {busy' : List Level} {rx' : List Byte} (hf : ∀ m ∈ frame, m.isXfer = true) (ho : s.seq.opl = some i.core)
    (hd : (uprog s.cfg i).drop s.seq.upc = transaction frame ++ rest) (hp : s.seq.pollCnt = 0)
    (ha : waitFits s.cfg a) (hb : waitFits s.cfg b)
    (hbusy : s.env.busy = List.replicate a .high ++ .low :: (List.replicate b .high ++ .low :: busy'))
    (hrx : s.env.rx = got ++ rx') (hg : got.length = frame.length) :
    execFor (a + b + frame.length + 8) i s = .next { s with
      csN := .high
      seq := { s.seq with upc := s.seq.upc + (frame.length + 8) }
      out := (received frame got (s.out, s.statusOut)).1
      statusOut := (received frame got (s.out, s.statusOut)).2
      env := { s.env with busy := busy', rx := rx' }
      trace := s.trace ++ (waitEvents s.cfg a ++ csEvents .low ++
        frameEvents (frame.map (byteSent s.cfg)) got ++ csEvents .high ++ waitEvents s.cfg b) } ∧
      (uprog s.cfg i).drop (s.seq.upc + (frame.length + 8)) = rest := by
  obtain ⟨e1, hd1⟩ := run_toTrailingWait hf ho hd hp ha hbusy hrx hg
  obtain ⟨hat, hd2⟩ := isAt_of_drop (s := { s with
      csN := .high
      seq := { s.seq with upc := s.seq.upc + (frame.length + 7) }
      out := (received frame got (s.out, s.statusOut)).1
      statusOut := (received frame got (s.out, s.statusOut)).2
      env := { s.env with busy := List.replicate b .high ++ .low :: busy', rx := rx' }
      trace := s.trace ++ (waitEvents s.cfg a ++ csEvents .low ++
        frameEvents (frame.map (byteSent s.cfg)) got ++ csEvents .high) }) ho hd1
  refine ⟨?_, hd2⟩
  rw [show a + b + frame.length + 8 = (a + frame.length + 7) + (b + 1) by omega]
  refine (execFor_add e1).trans ((run_wait hat hp hb rfl).trans ?_)
  simp [Nat.add_assoc]


/-- Received bytes over an append of entries. -/
theorem received_append {ms1 ms2 : List MicroOp} {g1 g2 : List Byte} (hx : ∀ m ∈ ms1, m.isXfer = true)
    (h : g1.length = ms1.length) (x : List Byte × Byte) :
    received (ms1 ++ ms2) (g1 ++ g2) x = received ms2 g2 (received ms1 g1 x) := by
  induction ms1 generalizing g1 x with
  | nil =>
    obtain rfl : g1 = [] := by simpa using h
    cases ms2 <;> simp [received]
  | cons m ms ih =>
    cases g1 with
    | nil => simp at h
    | cons b g1 =>
      have hm := hx m (by simp)
      have ih := fun x => ih (g1 := g1) (fun m h => hx m (by simp [h])) (by simpa using h) x
      cases m <;> first | (cases hm; done) | exact ih _

/-- Bytes sent leave the staging registers. -/
theorem received_send (bs : List Byte) (g : List Byte) (x : List Byte × Byte) : received (send bs) g x = x := by
  induction bs generalizing g with
  | nil => cases g <;> rfl
  | cons b bs ih =>
    cases g with
    | nil => rfl
    | cons y g => exact ih g

/-- Data bytes stand in `OUT` in index order. -/
theorem received_receive (g : List Byte) (st : Byte) : received (receive g.length) g ([], st) = (g, st) := by
  induction g using List.reverseRecOn with
  | nil => rfl
  | append_singleton g b ih =>
    rw [List.length_append, List.length_singleton, receive_succ,
      received_append (receive_isXfer _) (by simp), ih]
    simp [received]

/-- A frame sends the bytes of 30_encoding R86. -/
theorem frameOf_sent {cfg : Config} {i : Instr} (h : isPrimitive i = true) :
    (frameOf cfg i).map (byteSent cfg) = sentBytes cfg i := by
  have e : ∀ bs : List Byte, (send bs).map (byteSent cfg) = bs := by
    intro bs; simp [send, Function.comp_def, byteSent]
  have e2 : ∀ len, (receive len).map (byteSent cfg) = List.replicate len cfg.nopByte := by
    intro len; simp [receive, Function.comp_def, byteSent, List.map_const']
  cases i <;> simp [isPrimitive] at h <;>
    simp [frameOf, frameCmdW, frameCmdR, frameRegW, frameRegR, frameBufW, frameBufR, sendPayload, addrBytes, sentBytes,
      e, e2, byteSent]

/-- A frame is as long as 30_encoding R86 says. -/
theorem frameOf_length {cfg : Config} {i : Instr} (h : lengthFits cfg i) :
    (frameOf cfg i).length = frameLength i := by
  have hl : ∀ len cap, lengthAndCapacity i = some (len, cap) → len ≤ cap := fun _ _ e => (h _ _ e).2
  cases i <;> simp [lengthAndCapacity] at hl <;>
    simp [frameOf, frameCmdW, frameCmdR, frameRegW, frameRegR, frameBufW, frameBufR, sendPayload, addrBytes,
      frameLength] <;> omega

/-- A primitive that has run its frame responds with what the device returned. -/
theorem responseOf_frame {i : Instr} (h : isPrimitive i = true) {cfg : Config} {got : List Byte} {s : State} {st : Byte}
    (hg : got.length = frameLength i) (ho : s.out = (received (frameOf cfg i) got ([], st)).1)
    (hs : s.statusOut = (received (frameOf cfg i) got ([], st)).2) : responseOf i s = returned i got := by
  cases i <;> simp [isPrimitive] at h <;> try rfl
  case readCmd opc len cap =>
    cases got with
    | nil => simp [frameLength] at hg; omega
    | cons b g =>
      obtain rfl : len = g.length := by simp [frameLength] at hg; omega
      simp only [frameOf, frameCmdR, received, received_receive] at ho hs
      simp [responseOf, returned, ho, hs]
  case readRegs addr len cap =>
    rcases got with _ | ⟨b1, _ | ⟨b2, _ | ⟨b3, _ | ⟨b4, g⟩⟩⟩⟩ <;> simp [frameLength] at hg <;> try omega
    obtain rfl : len = g.length := by omega
    simp only [frameOf, frameRegR, addrBytes, send, List.map, List.cons_append, List.nil_append, received,
      received_receive] at ho
    simp [responseOf, returned, ho]
  case readBuf addr len cap =>
    rcases got with _ | ⟨b1, _ | ⟨b2, _ | ⟨b3, g⟩⟩⟩ <;> simp [frameLength] at hg <;> try omega
    obtain rfl : len = g.length := by omega
    simp only [frameOf, frameBufR, received, received_receive] at ho
    simp [responseOf, returned, ho]
  case readReg addr =>
    rcases got with _ | ⟨b1, _ | ⟨b2, _ | ⟨b3, _ | ⟨b4, g⟩⟩⟩⟩ <;> simp [frameLength] at hg
    have e : 1 = g.length := by omega
    simp only [frameOf, e, frameRegR, addrBytes, send, List.map, List.cons_append, List.nil_append, received,
      received_receive] at ho
    simp [responseOf, returned, ho]

end Sys2Proof.Machine
end

