-- ==== Sys2Proof/Laws/SimRuns.lean ====
section
/-! SUPPORT. Runs beside the simulated device of 95_test_vectors Part 2 while it is not busy. -/

namespace Sys2Proof.Machine

/-- A device with no busy level to give. -/
def SimDevice.quiet (d : SimDevice) : Prop := d.busyScript = [] ∧ d.stuckBusy = false

/-- What a run beside the simulated device is known by. -/
structure SimAt (s : State) (i : Instr) (upc : Nat) (cs : Level) (cfg : Config) (out : List Byte × Byte) : Prop where
  opl : s.seq.opl = some i.core
  upc : s.seq.upc = upc
  poll : s.seq.pollCnt = 0
  csN : s.csN = cs
  cfg : s.cfg = cfg
  out : (s.out, s.statusOut) = out
  dbg : s.dbgRest = none

/-- One step of a run beside the device. -/
theorem simRun_succ {n : Nat} {i : Instr} {x y : State × SimDevice} (h : simExec i x = some y) :
    simRun (n + 1) i x = simRun n i y := by simp [simRun, h]

/-- One entry beside the device. -/
theorem simExec_at {i : Instr} {s t : State} {d : SimDevice} {m : MicroOp} (hat : s.isAt i m)
    (h : microStep m { s with env := (d.react s.cfg m s.env).1 } = .next t) :
    simExec i (s, d) = some (t, (d.react s.cfg m s.env).2) := by
  have e : exec i { s with env := (d.react s.cfg m s.env).1 } = .next t :=
    (exec_isAt (s := { s with env := (d.react s.cfg m s.env).1 }) hat).trans h
  simp only [simExec, hat.1, hat.2, e]

/-- A wait of a device that is not busy. -/
theorem sim_wait {i : Instr} {s : State} {d : SimDevice} {k cs cfg out} (h : SimAt s i k cs cfg out) (hq : d.quiet)
    (hm : (uprog cfg i)[k]? = some .wait) : ∃ t, simExec i (s, d) = some (t, d) ∧ SimAt t i (k + 1) cs cfg out := by
  obtain ⟨h1, h2, h3, h4, h5, h6, h7⟩ := h
  subst h5 h2
  have hs : d.sample = (.low, d) := by simp [SimDevice.sample, hq.1, hq.2]
  refine ⟨({ s with env := { s.env with busy := [.low] } } : State).poll, ?_, ?_⟩
  · have := simExec_at (d := d) (t := ({ s with env := { s.env with busy := [.low] } } : State).poll) ⟨h1, hm⟩
      (by simp [microStep, SimDevice.react, hs])
    rw [this]; simp [SimDevice.react, hs]
  · rw [poll_low _ (by simp [Environment.nextBusy])]
    exact ⟨h1, rfl, rfl, h4, rfl, h6, h7⟩

/-- A settling delay or a chip-select edge. -/
theorem sim_line {i : Instr} {s : State} {d : SimDevice} {k cs cfg out m} (h : SimAt s i k cs cfg out)
    (hm : (uprog cfg i)[k]? = some m) (hd : m = .settle ∨ ∃ l, m = .cs l) :
    ∃ t, simExec i (s, d) = some (t, if m = .cs .low then { d with k := 0 } else d) ∧
      SimAt t i (k + 1) (csAfterOps cs [m]) cfg out := by
  obtain ⟨h1, h2, h3, h4, h5, h6, h7⟩ := h
  subst h5 h2
  rcases hd with rfl | ⟨l, rfl⟩
  · exact ⟨_, simExec_at ⟨h1, hm⟩ rfl, ⟨h1, rfl, h3, h4, rfl, h6, h7⟩⟩
  · cases l
    · exact ⟨_, simExec_at ⟨h1, hm⟩ rfl, ⟨h1, rfl, h3, rfl, rfl, h6, h7⟩⟩
    · exact ⟨_, simExec_at ⟨h1, hm⟩ rfl, ⟨h1, rfl, h3, rfl, rfl, h6, h7⟩⟩

/-- One exchange. -/
theorem sim_xfer {i : Instr} {s : State} {d : SimDevice} {k cfg out m} (h : SimAt s i k .low cfg out)
    (hm : (uprog cfg i)[k]? = some m) (hx : m.isXfer = true) :
    ∃ t, simExec i (s, d) = some (t, (d.xfer cfg (byteSent cfg m)).2) ∧
      SimAt t i (k + 1) .low cfg (received [m] [(d.xfer cfg (byteSent cfg m)).1] out) := by
  obtain ⟨h1, h2, h3, h4, h5, h6, h7⟩ := h
  subst h5 h2 h6
  cases m <;> first | (cases hx; done) | skip
  case tx b =>
    refine ⟨_, simExec_at ⟨h1, hm⟩ (transfer_low _ b (fun _ t => t) h4), ?_⟩
    exact ⟨h1, rfl, h3, h4, rfl, rfl, h7⟩
  case txs b =>
    refine ⟨_, simExec_at ⟨h1, hm⟩ (transfer_low _ b (fun rx t => { t with statusOut := rx }) h4), ?_⟩
    exact ⟨h1, rfl, h3, h4, rfl, rfl, h7⟩
  case rx k =>
    refine ⟨_, simExec_at ⟨h1, hm⟩ (transfer_low _ s.cfg.nopByte (fun rx t => t.storeOut k rx) h4), ?_⟩
    exact ⟨h1, rfl, h3, h4, rfl, rfl, h7⟩

/-- What the device returns over a list of sent bytes, and its state after. -/
def SimDevice.xfers (cfg : Config) : SimDevice → List Byte → List Byte × SimDevice
  | d, [] => ([], d)
  | d, b :: bs => ((d.xfer cfg b).1 :: ((d.xfer cfg b).2.xfers cfg bs).1, ((d.xfer cfg b).2.xfers cfg bs).2)

/-- An exchange leaves the busy script. -/
theorem xfer_quiet {cfg} {d : SimDevice} (b) (h : d.quiet) : (d.xfer cfg b).2.quiet := by
  unfold SimDevice.quiet at *
  obtain ⟨h1, h2⟩ := h
  unfold SimDevice.xfer SimDevice.xferInFrame
  split
  · exact ⟨h1, h2⟩
  · simp only
    split
    · unfold SimDevice.writeRegister; split <;> exact ⟨h1, h2⟩
    · split
      · unfold SimDevice.readRegister; split <;> exact ⟨h1, h2⟩
      · split
        · unfold SimDevice.writeBuffer; split <;> exact ⟨h1, h2⟩
        · split
          · unfold SimDevice.readBuffer; split <;> exact ⟨h1, h2⟩
          · exact ⟨h1, h2⟩

/-- A run of exchanges. -/
theorem sim_frame {i : Instr} {cfg} {rest : List MicroOp} :
    ∀ (ms : List MicroOp) (s : State) (d : SimDevice) (k out), (∀ m ∈ ms, m.isXfer = true) →
    SimAt s i k .low cfg out → (uprog cfg i).drop k = ms ++ rest → d.quiet →
    ∃ t, (∀ n, simRun (ms.length + n) i (s, d) = simRun n i (t, (d.xfers cfg (ms.map (byteSent cfg))).2)) ∧
      SimAt t i (k + ms.length) .low cfg (received ms (d.xfers cfg (ms.map (byteSent cfg))).1 out) ∧
      (d.xfers cfg (ms.map (byteSent cfg))).2.quiet := by
  intro ms
  induction ms with
  | nil =>
    intro s d k out _ h _ hq
    exact ⟨s, by simp [SimDevice.xfers], by simpa [received] using h, hq⟩
  | cons m ms ih =>
    intro s d k out hx h hd hq
    have hm : (uprog cfg i)[k]? = some m := by
      have : ((uprog cfg i).drop k)[0]? = some m := by rw [hd]; rfl
      simpa using this
    have hd' : (uprog cfg i).drop (k + 1) = ms ++ rest := by rw [← List.drop_drop, hd]; rfl
    obtain ⟨t, h1, h2⟩ := sim_xfer (d := d) h hm (hx m (by simp))
    obtain ⟨u, h3, h4, h5⟩ := ih t (d.xfer cfg (byteSent cfg m)).2 (k + 1) _
      (fun m h => hx m (by simp [h])) h2 hd' (xfer_quiet _ hq)
    refine ⟨u, ?_, ?_, h5⟩
    · intro n
      rw [show (m :: ms).length + n = (ms.length + n) + 1 by simp; omega, simRun_succ h1, h3]
      rfl
    · have e2 : ∀ b bs x, received (m :: ms) (b :: bs) x = received ms bs (received [m] [b] x) := by
        have hm := hx m (by simp)
        intro b bs x; cases m <;> first | (cases hm; done) | rfl
      rw [show k + (m :: ms).length = k + 1 + ms.length by simp; omega]
      simp only [List.map, SimDevice.xfers, e2]
      exact h4

/-- A whole primitive beside a device that is not busy. -/
theorem sim_primitive {i : Instr} (hp : isPrimitive i = true) {s : State} {d : SimDevice}
    (hi : s.IsIdle) (hc : s.csN = .high)
    (hl : lengthFits s.cfg i) (hq : d.quiet) :
    ∃ t, simRun (frameLength i + 10) i (s, d) =
        some (t, (({ d with k := 0 } : SimDevice).xfers s.cfg (sentBytes s.cfg i)).2) ∧
      t.IsIdle ∧ t.csN = .high ∧ t.cfg = s.cfg ∧
      t.trace.getLast? = some (.resp (returned i
        (({ d with k := 0 } : SimDevice).xfers s.cfg (sentBytes s.cfg i)).1)) ∧
      (({ d with k := 0 } : SimDevice).xfers s.cfg (sentBytes s.cfg i)).2.quiet := by
  have hlen := frameOf_length hl
  have ho : s.seq.opl = none := by rw [hi.1]; rfl
  have hst : mayStartWith i s.csN := by rw [hc]; cases i <;> simp [isPrimitive] at hp <;> rfl
  have acc : simExec i (s, d) = some (s.latch i.core, d) := by
    have := run_accept ho hst hl
    have e : exec i s = .next (s.latch i.core) := by
      simp only [execFor] at this
      split at this
      · rename_i hh; cases this; exact hh
      · cases this
      · cases this
    simp only [simExec, ho, e]
  have h0 : SimAt (s.latch i.core) i 0 .high s.cfg ([], 0) := ⟨rfl, rfl, rfl, hc, rfl, rfl, hi.2⟩
  have hu : uprog s.cfg i = .wait :: .settle :: .cs .low :: .settle ::
      (frameOf s.cfg i ++ (.settle :: .cs .high :: .settle :: [.wait])) := by
    rw [uprog_primitive hp]; simp [transaction, sel, desel]
  obtain ⟨t1, e1, h1⟩ := sim_wait h0 hq (by rw [hu]; rfl)
  obtain ⟨t2, e2, h2⟩ := sim_line (d := d) h1 (m := .settle) (by rw [hu]; rfl) (.inl rfl)
  obtain ⟨t3, e3, h3⟩ := sim_line (d := d) h2 (m := .cs .low) (by rw [hu]; rfl) (.inr ⟨_, rfl⟩)
  obtain ⟨t4, e4, h4⟩ := sim_line (d := { d with k := 0 }) h3 (m := .settle) (by rw [hu]; rfl) (.inl rfl)
  obtain ⟨t5, e5, h5, hq5⟩ := sim_frame (rest := .settle :: .cs .high :: .settle :: [.wait])
    (frameOf s.cfg i) t4 { d with k := 0 } 4 _ (frameOf_isXfer _ _) h4 (by rw [hu]; rfl) hq
  rw [frameOf_sent hp] at e5 h5 hq5
  generalize hdd : (({ d with k := 0 } : SimDevice).xfers s.cfg (sentBytes s.cfg i)).2 = d' at *
  have at' : ∀ j m, [MicroOp.settle, .cs .high, .settle, .wait][j]? = some m →
      (uprog s.cfg i)[4 + (frameOf s.cfg i).length + j]? = some m := by
    intro j m h
    rw [hu, show 4 + (frameOf s.cfg i).length + j = ((((frameOf s.cfg i).length + j + 1) + 1) + 1) + 1 by omega]
    simp only [List.getElem?_cons_succ]
    rw [List.getElem?_append_right (by omega)]
    simpa using h
  obtain ⟨t6, e6, h6⟩ := sim_line (d := d') h5 (m := .settle) (at' 0 _ rfl) (.inl rfl)
  obtain ⟨t7, e7, h7⟩ := sim_line (d := d') h6 (m := .cs .high) (at' 1 _ rfl) (.inr ⟨_, rfl⟩)
  obtain ⟨t8, e8, h8⟩ := sim_line (d := d') h7 (m := .settle) (at' 2 _ rfl) (.inl rfl)
  obtain ⟨t9, e9, h9⟩ := sim_wait (d := d') h8 hq5 (at' 3 _ rfl)
  have hlen2 : (uprog s.cfg i).length = 4 + (frameOf s.cfg i).length + 1 + 1 + 1 + 1 := by rw [hu]; simp; omega
  obtain ⟨a1, a2, a3, a4, a5, a6, a7⟩ := h9
  obtain ⟨t, g1, g2, g3, g4, g5, g6, g7, g8, g9, g10, g11, g12, g13⟩ :=
    run_response (i := i) (s := t9) a1 (by rw [a5, hlen2, a2])
  have fin : simExec i (t9, d') = some (t, d') := by
    have e : exec i t9 = .next t := by
      simp only [execFor] at g1
      split at g1
      · rename_i hh; cases g1; exact hh
      · cases g1
      · cases g1
    have hn : (uprog t9.cfg i)[t9.seq.upc]? = none := by rw [a5, a2, ← hlen2]; simp
    simp only [simExec, a1, hn, e]
  refine ⟨t, ?_, ⟨g3, g9.trans a7⟩, g5.trans a4, g11.trans a5, ?_, hq5⟩
  · rw [show frameLength i + 10 = ((((((frameOf s.cfg i).length + (1 + 1 + 1 + 1 + 1)) + 1) + 1) + 1) + 1) + 1 by omega]
    simp only [reduceCtorEq, if_false, if_true, MicroOp.cs.injEq] at e2 e3 e4 e6 e7 e8
    rw [simRun_succ acc, simRun_succ e1, simRun_succ e2, simRun_succ e3, simRun_succ e4]
    rw [e5, simRun_succ e6, simRun_succ e7, simRun_succ e8]
    rw [simRun_succ e9]
    show (simExec i (t9, d')).bind _ = _
    rw [fin]; rfl
  · rw [g2]
    simp only [List.getLast?_append, List.getLast?_singleton, Option.some_or, Option.some.injEq, Event.resp.injEq]
    have hl2 : (({ d with k := 0 } : SimDevice).xfers s.cfg (sentBytes s.cfg i)).1.length = frameLength i := by
      have : ∀ (bs : List Byte) (d : SimDevice), (d.xfers s.cfg bs).1.length = bs.length := by
        intro bs; induction bs with
        | nil => intro d; rfl
        | cons b bs ih => intro d; simp [SimDevice.xfers, ih]
      rw [this, ← frameOf_sent hp, List.length_map, hlen]
    exact responseOf_frame hp (st := 0) (cfg := s.cfg) hl2 (congrArg Prod.fst a6) (congrArg Prod.snd a6)
end Sys2Proof.Machine
end

