-- ==== Sys2Proof/Laws/Trace.lean ====
section
/-! SUPPORT. Replaying a trace event by event: over an append, and over events that do not matter. -/

namespace Sys2Proof.Machine

/-- `CS_N` over an append. -/
theorem csAfter_append (l : Level) (a b : List Event) : csAfter l (a ++ b) = csAfter (csAfter l a) b := by
  induction a generalizing l with
  | nil => rfl
  | cons e a ih => cases e <;> exact ih _

/-- `RESET_N` over an append. -/
theorem resetAfter_append (l : Level) (a b : List Event) : resetAfter l (a ++ b) = resetAfter (resetAfter l a) b := by
  induction a generalizing l with
  | nil => rfl
  | cons e a ih => cases e <;> exact ih _

/-- A debug line over an append. -/
theorem dbgAfter_append (d : DbgSignal) (l : Level) (a b : List Event) :
    dbgAfter d l (a ++ b) = dbgAfter d (dbgAfter d l a) b := by
  induction a generalizing l with
  | nil => rfl
  | cons e a ih =>
    cases e
    case dbgWrite d' l' => simp only [List.cons_append, dbgAfter]; split <;> exact ih _
    all_goals exact ih _

/-- No exchange with chip-select high, over an append. -/
theorem noXferWhileHigh_append (l : Level) (a b : List Event) : noXferWhileHigh l (a ++ b) =
    (noXferWhileHigh l a && noXferWhileHigh (csAfter l a) b) := by
  induction a generalizing l with
  | nil => rfl
  | cons e a ih => cases e <;> simp [noXferWhileHigh, csAfter, ih, Bool.and_assoc]

/-- The last commanded mode over an append. -/
theorem lastCommanded_append (m : OperatingMode) (a b : List Event) : lastCommanded m (a ++ b) =
    lastCommanded (lastCommanded m a) b := by
  induction a generalizing m with
  | nil => rfl
  | cons e a ih =>
    cases e <;> try exact ih _
    rename_i op; cases op <;> exact ih _

/-- Events with no request leave the last commanded mode. -/
theorem lastCommanded_of_noReq (m : OperatingMode) (es : List Event) (h : ∀ j, Event.req j ∉ es) : lastCommanded m es = m := by
  induction es with
  | nil => rfl
  | cons e es ih =>
    have ih := ih (fun j hj => h j (by simp [hj]))
    cases e <;> try exact ih
    rename_i op
    exact absurd (by simp) (h op)

/-- Where the bare operations leave chip-select, over an append. -/
theorem chipSelectLeft_append (l : Level) (a b : List Event) : chipSelectLeft l (a ++ b) =
    chipSelectLeft (chipSelectLeft l a) b := by
  induction a generalizing l with
  | nil => rfl
  | cons e a ih =>
    cases e <;> try exact ih _
    rename_i op; cases op <;> exact ih _

/-- Events with no request leave chip-select where the bare operations left it. -/
theorem chipSelectLeft_of_noReq (l : Level) (es : List Event) (h : ∀ j, Event.req j ∉ es) : chipSelectLeft l es = l := by
  induction es with
  | nil => rfl
  | cons e es ih =>
    have ih := ih (fun j hj => h j (by simp [hj]))
    cases e <;> try exact ih
    rename_i op
    exact absurd (by simp) (h op)

end Sys2Proof.Machine
end

