-- ==== Sys2Proof/Tests/Slice0.lean ====
section
/-! SUPPORT. The model's own tests: the well-formedness smoke, decodings of words written out in 95_test_vectors, one step of each operation, and for each statement with hypotheses a concrete case that meets them. -/

namespace Sys2Proof.Tests

open Sys2Proof Sys2Proof.Machine

/-! The parameter values of 95_test_vectors ("Conventions") and small states. -/

def cfg : Config where
  debugEn := false
  modeReset := .standbyRc
  maxPollIter := none
  pollIntervalUs := 10
  csSettleCycles := 1
  tResetLowMs := 10
  tResetReleaseMs := 10
  oscWakeupMs := 5
  oscScaleShift := 6
  calAll := 0x7F
  oscVoltageCode := 0x01
  opcWriteRegister := 0x0D
  opcReadRegister := 0x1D
  opcWriteBuffer := 0x0E
  opcReadBuffer := 0x1E
  opcSetOscCtrl := 0x97
  opcCalibrate := 0x89
  nopByte := 0x00
  lenMax := 65535
  checkLength := false
  nRequesters := 1

/-- The reset state under those values, chip-select at a level. -/
def idleWith (l : Level) : State := { State.resetWith cfg with csN := l }

/-- An operation in flight at one entry, chip-select low, the device to return one byte and one level. -/
def flying (i : Instr) (upc : Nat) (rx : Byte) : State :=
  { State.resetWith cfg with
    csN := .low
    seq := ⟨some i.core, upc, 0⟩
    env := ⟨[.low], [rx], [.rx], [], 0⟩ }

/-- The reset state with one request queued. -/
def asked (w : BitVec 40) : State := { State.resetWith cfg with requests := [[⟨w, [], 0⟩]] }

/-- The next state's trace, if there is a next state. -/
def traceOf : Outcome → Option (List Event)
  | .next t => some t.trace
  | .fault _ => none
  | .refused _ => none

/-- The next state's sequencer, if there is a next state. -/
def seqOf : Outcome → Option Seq
  | .next t => some t.seq
  | .fault _ => none
  | .refused _ => none

/-- The refusal, if it is one. -/
def refusalOf : Outcome → Option Refusal
  | .next _ => none
  | .fault _ => none
  | .refused r => some r

/-- The instruction decoded, if there is one. -/
def decoded (w : BitVec 40) (payload : List Byte) (cap : Nat) : Option Instr :=
  match decode ⟨w, payload, cap⟩ with
  | .ok i => some i
  | .error _ => none

/-! Well-formedness: an ill-formed term for each check. -/

theorem test_illFormed_issueCmd : (Instr.issueCmd 0x80 [] 65536).wellFormed = false := by decide
theorem test_illFormed_readCmd : (Instr.readCmd 0x80 65536 0).wellFormed = false := by decide
theorem test_illFormed_writeRegs : (Instr.writeRegs 0x0740 [] 65536).wellFormed = false := by decide
theorem test_illFormed_readRegs : (Instr.readRegs 0x0740 65536 0).wellFormed = false := by decide
theorem test_illFormed_writeBuf : (Instr.writeBuf 0xFE [] 65536).wellFormed = false := by decide
theorem test_illFormed_readBuf : (Instr.readBuf 0xFE 65536 0).wellFormed = false := by decide
theorem test_wellFormed_longest : (Instr.writeRegs 0xFFFF [] 65535).wellFormed = true := by decide

/-! Decoding: a word of 95_test_vectors for each operation (its vector named), and the reserved words. -/

theorem test_decode_select : decoded 0x0100000000 [] 0 = some .select := by decide
theorem test_decode_deselect : decoded 0x0200000000 [] 0 = some .deselect := by decide
theorem test_decode_waitReady : decoded 0x0300000000 [] 0 = some .waitReady := by decide
theorem test_decode_issueCmd_T43_3 :
    decoded 0x10008C0003 [0x11, 0x22, 0x33] 0 = some (.issueCmd 0x8C [0x11, 0x22, 0x33] 3) := by decide
theorem test_decode_readCmd_T43_5 : decoded 0x1100170002 [] 2 = some (.readCmd 0x17 2 2) := by decide
theorem test_decode_writeRegs_T43_6 :
    decoded 0x1207400002 [0x34, 0x44] 0 = some (.writeRegs 0x0740 [0x34, 0x44] 2) := by decide
theorem test_decode_readRegs_T43_9 : decoded 0x1307400002 [] 2 = some (.readRegs 0x0740 2 2) := by decide
theorem test_decode_writeBuf_T43_14 :
    decoded 0x1400FE0003 [0x0A, 0x0B, 0x0C] 0 = some (.writeBuf 0xFE [0x0A, 0x0B, 0x0C] 3) := by decide
theorem test_decode_readBuf_T43_15 : decoded 0x1500800000 [] 0 = some (.readBuf 0x80 0 0) := by decide
theorem test_decode_setMode_T44_7 : decoded 0x2000060000 [] 0 = some (.setMode .rxDutyCycle) := by decide
theorem test_decode_getMode : decoded 0x2100000000 [] 0 = some .getMode := by decide
theorem test_decode_resetDevice : decoded 0x3000000000 [] 0 = some .resetDevice := by decide
theorem test_decode_initOscCtrl : decoded 0x3100000000 [] 0 = some .initOscCtrl := by decide
theorem test_decode_getOscWakeupMs : decoded 0x3200000000 [] 0 = some .getOscWakeupMs := by decide
theorem test_decode_writeReg_T43_7 : decoded 0x12FFFF0001 [0xFF] 0 = some (.writeReg 0xFFFF 0xFF) := by decide
theorem test_decode_readReg_T43_8 : decoded 0x13FFFF0001 [] 1 = some (.readReg 0xFFFF) := by decide
theorem test_decode_longest_length :
    decoded 0x12FFFFFFFF [] 0 = some (.writeRegs 0xFFFF [] 65535) := by decide
theorem test_reserved_op_zero : decoded 0x0000000000 [] 0 = none := by decide
theorem test_reserved_op_ones : decoded 0xFFFFFFFFFF [] 0 = none := by decide
theorem test_reserved_op_neighbour : decoded 0x1600000000 [] 0 = none := by decide
theorem test_reserved_select_length : decoded 0x0100000001 [] 0 = none := by decide
theorem test_reserved_issueCmd_arg : decoded 0x1001800001 [0] 0 = none := by decide
theorem test_reserved_writeBuf_arg : decoded 0x1401000000 [] 0 = none := by decide
theorem test_reserved_setMode_arg : decoded 0x2000080000 [] 0 = none := by decide
theorem test_reserved_setMode_length : decoded 0x2000070001 [] 0 = none := by decide

/-! One step of each operation. -/

/-- T41-1: the second event of SELECT. -/
theorem test_select_drives_low : traceOf (exec .select (flying .select 1 0)) = some [.csWrite .low] := by decide
/-- T41-3: a nested SELECT. -/
theorem test_select_nested : refusalOf (exec .select (idleWith .low)) = some .chipSelectOpen := by decide
/-- T41-2. -/
theorem test_deselect_drives_high :
    traceOf (exec .deselect (flying .deselect 1 0)) = some [.csWrite .high] := by decide
/-- T41-4. -/
theorem test_deselect_closed : refusalOf (exec .deselect (idleWith .high)) = some .chipSelectClosed := by decide
/-- T42-6: one busy sample at the bound of one. -/
theorem test_waitReady_bound : traceOf (exec .waitReady
    { flying .waitReady 0 0 with cfg := { cfg with maxPollIter := some 1 }, env := ⟨[.high], [], [], [], 0⟩ }) =
      some [.busySample .high, .resp (.fault (.deviceNotResponding 1))] := by decide
/-- T42-2: a busy sample below the bound. -/
theorem test_waitReady_polls : traceOf (exec .waitReady
    { flying .waitReady 0 0 with env := ⟨[.high], [], [], [], 0⟩ }) =
      some [.busySample .high, .delayUs 10] := by decide
/-- T43-3: the last payload byte. -/
theorem test_issueCmd_last_byte : traceOf (exec (.issueCmd 0x8C [0x11, 0x22, 0x33] 3)
    (flying (.issueCmd 0x8C [0x11, 0x22, 0x33] 3) 7 0xA2)) = some [.xfer 0x33 0xA2] := by decide
/-- T43-5: the response carries the status byte and the data. -/
theorem test_readCmd_response : traceOf (exec (.readCmd 0x17 2 2)
    { flying (.readCmd 0x17 2 2) 11 0 with out := [0x00, 0x20], statusOut := 0xA2 }) =
      some [.resp (.done 0x00A2 [0x00, 0x20])] := by decide
/-- T43-5: the opcode exchange. -/
theorem test_readCmd_opcode : traceOf (exec (.readCmd 0x17 2 2) (flying (.readCmd 0x17 2 2) 4 0xA2)) =
    some [.xfer 0x17 0xA2] := by decide
/-- T43-6: the high address byte comes first. -/
theorem test_writeRegs_high_byte_first : traceOf (exec (.writeRegs 0x0740 [0x34, 0x44] 2)
    (flying (.writeRegs 0x0740 [0x34, 0x44] 2) 5 0)) = some [.xfer 0x07 0] := by decide
/-- T43-20: a length above the capacity, unchecked. -/
theorem test_writeRegs_too_long : refusalOf (exec (.writeRegs 0x0100 [0xAB] 2) (idleWith .high)) =
    some (.lengthAboveCapacity 2 1) := by decide
/-- T43-10: the filler exchange stands even with no data. -/
theorem test_readRegs_filler : traceOf (exec (.readRegs 0x0000 0 0) (flying (.readRegs 0x0000 0 0) 7 0)) =
    some [.xfer 0x00 0] := by decide
/-- T43-9: the first data exchange sends the filler byte. -/
theorem test_readRegs_data : traceOf (exec (.readRegs 0x0740 2 2) (flying (.readRegs 0x0740 2 2) 8 0x34)) =
    some [.xfer 0x00 0x34] := by decide
/-- T43-14. -/
theorem test_writeBuf_offset : traceOf (exec (.writeBuf 0xFE [0x0A, 0x0B, 0x0C] 3)
    (flying (.writeBuf 0xFE [0x0A, 0x0B, 0x0C] 3) 5 0)) = some [.xfer 0xFE 0] := by decide
/-- T43-13: the read-buffer opcode. -/
theorem test_readBuf_opcode : traceOf (exec (.readBuf 0x00 4 4) (flying (.readBuf 0x00 4 4) 4 0)) =
    some [.xfer 0x1E 0] := by decide
/-- T43-7: the value byte. -/
theorem test_writeReg_value : traceOf (exec (.writeReg 0xFFFF 0xFF) (flying (.writeReg 0xFFFF 0xFF) 7 0)) =
    some [.xfer 0xFF 0] := by decide
/-- T43-8: the byte read back. -/
theorem test_readReg_response : traceOf (exec (.readReg 0xFFFF)
    { flying (.readReg 0xFFFF) 13 0 with out := [0xFF] }) = some [.resp (.done 0 [0xFF])] := by decide
/-- 44_mode_tracker R163: the store has no event. -/
theorem test_setMode_store_silent : traceOf (exec (.setMode .tx) (flying (.setMode .tx) 0 0)) = some [] := by decide
/-- T44-6, the receiving line first. -/
theorem test_setMode_rx_line : traceOf (exec (.setMode .rx)
    { flying (.setMode .rx) 1 0 with cfg := { cfg with debugEn := true } }) =
      some [.dbgWrite .rx .high] := by decide
/-- T44-9: the mode after reset. -/
theorem test_getMode_after_reset : traceOf (exec .getMode (flying .getMode 0 0)) =
    some [.resp (.done 0x0001 [])] := by decide
/-- T45-2: the low phase. -/
theorem test_resetDevice_low : traceOf (exec .resetDevice (flying .resetDevice 1 0)) =
    some [.rstWrite .low] := by decide
/-- T45-2: the low phase lasts. -/
theorem test_resetDevice_delay : traceOf (exec .resetDevice (flying .resetDevice 2 0)) =
    some [.delayMs 10] := by decide
/-- T45-3: the low byte of the wakeup value 0x000140. -/
theorem test_initOscCtrl_wakeup : traceOf (exec .initOscCtrl (flying .initOscCtrl 8 0)) =
    some [.xfer 0x40 0] := by decide
/-- T45-3: the calibration byte. -/
theorem test_initOscCtrl_calibrate : traceOf (exec .initOscCtrl (flying .initOscCtrl 18 0)) =
    some [.xfer 0x7F 0] := by decide
/-- T45-1. -/
theorem test_getOscWakeupMs : traceOf (exec .getOscWakeupMs (flying .getOscWakeupMs 0 0)) =
    some [.resp (.done 0x0005 [])] := by decide
/-- T44-12, through the step. -/
theorem test_step_reserved : refusalOf (step (asked 0x2000080000)) = some (.reservedRequest .argNotZero) := by decide
/-- T41-1, through the step: the acceptance. -/
theorem test_step_accepts : seqOf (step (asked 0x0100000000)) = some ⟨some .select, 0, 0⟩ := by decide
/-- T45-5: the wakeup value at the top of its range. -/
theorem test_wakeup_top : wakeup { cfg with oscWakeupMs := 65535 } = 0x3FFFC0 := by decide
/-- T43-14 on the simulated device: the offset wraps. -/
theorem test_device_buffer_wraps : (SimDevice.xfer cfg
    { reg := [], buf := [], busyScript := [], stuckBusy := false, st := 0, cmdResp := [], k := 4, cmd := 0x0E,
      a := 0xFE } 0x0C).2.buf = [(0, 0x0C)] := by decide

/-! Witnesses: for each statement with hypotheses, a concrete case that meets all of them together, and one for each of
its clauses. -/

/-- The reset state with SELECT queued: idle, both clauses of the invariants hold. -/
def queued : State := asked 0x0100000000

theorem queued_inv : MachineInv queued := ⟨rfl, rfl, rfl, rfl, rfl, fun _ => rfl⟩

/-- Between the two debug writes of SET_MODE(TX) after SET_MODE(RX), in the order that shows (1,1) for that instant
(44_mode_tracker R163): DBG_TX already written, DBG_RX still at its old level. -/
def midMirror : State :=
  { flying (.setMode .tx) 1 0 with
    csN := .high, cfg := { cfg with debugEn := true }, mode := .tx, dbgTx := .high, dbgRx := .high, dbgRest := some .rx
    trace := [.req (.setMode .rx), .dbgWrite .tx .low, .dbgWrite .rx .high, .resp (.done 0 []),
      .req (.setMode .tx), .dbgWrite .tx .high] }

theorem midMirror_inv : MachineInv midMirror :=
  ⟨rfl, fun _ _ h => (by cases h), by decide, ⟨.high, trivial, rfl, rfl⟩, rfl, rfl, fun h => absurd rfl h,
    [.req (.setMode .rx), .dbgWrite .tx .low, .dbgWrite .rx .high, .resp (.done 0 [])], [.dbgWrite .tx .high], rfl,
    by simp, rfl, rfl, rfl, rfl⟩

/-- Idle with a bare SELECT left open and GET_MODE queued: `CS_N = 0`, as the invariant has it. -/
def leftOpen : State :=
  { asked 0x2100000000 with
    csN := .low, trace := [.req .select, .settle, .csWrite .low, .settle, .resp (.done 0 [])] }

theorem leftOpen_inv : MachineInv leftOpen := ⟨rfl, rfl, rfl, rfl, rfl, fun _ => rfl⟩

theorem witness_StepKeepsSequencerAndLines :
    (MachineInv queued ∧ ∃ t, step queued = .next t) ∧ (MachineInv leftOpen ∧ ∃ t, step leftOpen = .next t) ∧
      MachineInv midMirror ∧ ∃ t, step midMirror = .next t :=
  ⟨⟨queued_inv, _, rfl⟩, ⟨leftOpen_inv, _, rfl⟩, midMirror_inv, _, rfl⟩

theorem witness_StepKeepsLatchesAndTraceInAgreement : LinesFollowTrace queued ∧ ∃ t, step queued = .next t :=
  ⟨⟨rfl, rfl, rfl, rfl, rfl⟩, _, rfl⟩

/-- SET_MODE(FS) accepted and not yet stored. -/
def justAccepted : State :=
  { flying (.setMode .fs) 0 0 with trace := [.req (.setMode .fs)] }

theorem witness_StepKeepsModeTheLastCommanded :
    (ModeFollowsTrace queued ∧ ∃ t, step queued = .next t) ∧
      ModeFollowsTrace justAccepted ∧ ∃ t, step justAccepted = .next t :=
  ⟨⟨.inr ⟨fun _ h => (by cases h), rfl⟩, _, rfl⟩, .inl ⟨.fs, [], rfl, rfl, rfl⟩, _, rfl⟩

theorem witness_StepFromInvariantNeverFaults : MachineInv queued ∧ MachineInv midMirror :=
  ⟨queued_inv, midMirror_inv⟩

theorem witness_StepAppendsToTheTraceAndKeepsConfiguration : ∃ s t, step s = .next t := ⟨queued, _, rfl⟩

theorem witness_StepRunsTheDecodedOperation :
    (∃ (s t : State) (r : Request) (i : Instr), s.seq.opl = none ∧ s.grantNext = some (r, t) ∧ decode r = .ok i) ∧
    (∃ (s : State) (op : Instr), s.seq.opl = some op) ∧ (∃ s : State, s.seq.opl = none ∧ s.grantNext = none) ∧
    (∃ (s : State) (r : Request) (rest : List Request) (others : List (List Request)), s.cfg.nRequesters = 1 ∧
      s.requests = (r :: rest) :: others) :=
  ⟨⟨queued, _, _, .select, rfl, rfl, rfl⟩, ⟨flying .select 0 0, _, rfl⟩, ⟨idleWith .high, rfl, rfl⟩,
    ⟨queued, _, [], [], rfl, rfl⟩⟩

theorem witness_FetchedWordIsTheNextOperation :
    (idleWith .high).cfg.nRequesters = 1 ∧ decodeTableWord 40 0x0100000000 = some .select ∧
      decodeTableWord 40 0x1200000001 = some (.writeReg 0x0000 0x00) := by decide

theorem witness_ReservedWordsAreRefused :
    ∃ (s t : State) (r : Request), s.seq.opl = none ∧ s.grantNext = some (r, t) ∧
      ∀ row ∈ opcodeTable, row.covers r.word = false :=
  ⟨asked 0x1600000000, _, ⟨0x1600000000, [], 0⟩, rfl, rfl, by decide⟩

/-- Three requesters, the first and the last waiting. -/
def contended : State :=
  { State.resetWith { cfg with nRequesters := 3 } with
    requests := [[⟨0x2100000000, [], 0⟩], [], [⟨0x3200000000, [], 0⟩]], env := ⟨[], [], [], [1], 0⟩ }

theorem witness_ArbiterGrantsAnyWaitingRequester :
    (∃ (t : State) (r : Request), contended.grantNext = some (r, t) ∧ t.grant = some 2) ∧
    (0 ∈ contended.waiting ∧ 2 ∈ contended.waiting ∧ 1 ∉ contended.waiting) ∧
    (∃ t, step (flying .select 0 0) = .next t) ∧ (∃ t, step (flying .getMode 0 0) = .next t) :=
  ⟨⟨_, _, rfl, rfl⟩, by decide, ⟨_, rfl⟩, ⟨_, rfl⟩⟩

theorem witness_NoOperationIsAcceptedInFlight :
    (∃ (s t : State) (op : Instr), s.seq.opl = some op ∧ step s = .next t ∧ s.requests ≠ []) ∧
    (∃ (s : State) (op i : Instr), s.seq.opl = some op ∧ op ≠ i.core) :=
  ⟨⟨{ flying .select 0 0 with requests := [[⟨0x2100000000, [], 0⟩]] }, _, .select, rfl, rfl, by decide⟩,
    ⟨flying .select 0 0, .select, .deselect, rfl, by decide⟩⟩

theorem witness_IdleControllerAccepts :
    ((idleWith .high).seq.opl = none ∧ mayStartWith (.writeRegs 0 [0x01] 1) (idleWith .high).csN ∧
      lengthFits (idleWith .high).cfg (.writeRegs 0 [0x01] 1)) ∧
    (mayStartWith .deselect (idleWith .low).csN ∧ lengthFits (idleWith .low).cfg .deselect) ∧
    lengthFits { cfg with lenMax := 2 } (.readBuf 0 2 2) :=
  ⟨⟨rfl, rfl, fun _ _ h => (by cases h; decide)⟩, ⟨rfl, fun _ _ h => (by cases h)⟩, fun _ _ h => (by cases h; decide)⟩

theorem witness_EveryEntryHasItsEffect :
    (flying .waitReady 0 0).isAt .waitReady .wait ∧ (flying .select 0 0).isAt .select .settle ∧
    (flying .select 1 0).isAt .select (.cs .low) ∧
    ((flying (.issueCmd 0x80 [] 0) 4 0).isAt (.issueCmd 0x80 [] 0) (.tx 0x80) ∧
      (flying (.issueCmd 0x80 [] 0) 4 0).csN = .low) ∧
    ((flying (.readCmd 0xC0 0 0) 4 0).isAt (.readCmd 0xC0 0 0) (.txs 0xC0) ∧
      (flying (.readCmd 0xC0 0 0) 4 0).csN = .low) ∧
    ((flying (.readReg 0xFFFF) 8 0).isAt (.readReg 0xFFFF) (.rx 0) ∧ (flying (.readReg 0xFFFF) 8 0).csN = .low) ∧
    ((flying (.readRegs 0 2 2) 9 0).isAt (.readRegs 0 2 2) (.rx 1) ∧
      { flying (.readRegs 0 2 2) 9 0 with out := [0x34] }.out.length = 1) ∧
    (flying .resetDevice 0 0).isAt .resetDevice (.rst .high) ∧
    (flying .resetDevice 2 0).isAt .resetDevice (.dlyMs 10) ∧
    (flying (.setMode .cad) 0 0).isAt (.setMode .cad) (.modeW .cad) ∧
    ((flying (.setMode .cad) 1 0).isAt (.setMode .cad) (.dbgW .cad) ∧
      (flying (.setMode .cad) 1 0).cfg.debugEn = false) ∧
    (midMirror.isAt (.setMode .tx) (.dbgW .tx) ∧ midMirror.cfg.debugEn = true ∧ midMirror.dbgRest = some .rx) ∧
    (({ midMirror with dbgRest := none }.isAt (.setMode .tx) (.dbgW .tx)) ∧
      ({ midMirror with dbgRest := none }.env.nextDbgFirst.1 = .rx)) :=
  ⟨⟨rfl, rfl⟩, ⟨rfl, rfl⟩, ⟨rfl, rfl⟩, ⟨⟨rfl, rfl⟩, rfl⟩, ⟨⟨rfl, rfl⟩, rfl⟩, ⟨⟨rfl, rfl⟩, rfl⟩, ⟨⟨rfl, rfl⟩, rfl⟩,
    ⟨rfl, rfl⟩, ⟨rfl, rfl⟩, ⟨rfl, rfl⟩, ⟨⟨rfl, rfl⟩, rfl⟩, ⟨⟨rfl, rfl⟩, rfl, rfl⟩, ⟨⟨rfl, rfl⟩, rfl⟩⟩

theorem witness_EveryOperationRespondsAtItsEnd :
    ((flying .select 3 0).seq.opl = some Instr.select.core ∧
      (flying .select 3 0).seq.upc = (uprog cfg .select).length) ∧
    ((flying (.readReg 0) 13 0).seq.opl = some (Instr.readReg 0).core ∧
      (flying (.readReg 0) 13 0).seq.upc = (uprog cfg (.readReg 0)).length) ∧
    (flying .getMode 0 0).seq.upc = (uprog cfg .getMode).length ∧ returnsData (.readReg 0) = true ∧
    (flying (.readCmd 0x17 2 2) 11 0).seq.upc = (uprog cfg (.readCmd 0x17 2 2)).length := by decide

theorem witness_MeaningsFaultExactlyOutsideTheirFrame :
    (∃ (i : Instr) (s : State) (m : MicroOp), s.isAt i m ∧ m.isXfer = true ∧ s.csN = .high) ∧
    (∃ (i : Instr) (s : State), s.seq.opl = some i.core ∧ (uprog s.cfg i).length < s.seq.upc) :=
  ⟨⟨.writeReg 0 0, { flying (.writeReg 0 0) 4 0 with csN := .high }, _, ⟨rfl, rfl⟩, rfl, rfl⟩,
    ⟨.getMode, flying .getMode 1 0, rfl, by decide⟩⟩

theorem witness_AcceptanceRefusesExactlyTheBreaches :
    ((idleWith .high).seq.opl = none ∧ ¬ mayStartWith .deselect (idleWith .high).csN ∧
      ¬ mayStartWith .select (idleWith .low).csN) ∧
    (mayStartWith (.readRegs 0 65536 65536) (idleWith .high).csN ∧
      lengthAndCapacity (.readRegs 0 65536 65536) = some (65536, 65536) ∧ cfg.lenMax < 65536) ∧
    (lengthAndCapacity (.readRegs 0 2 1) = some (2, 1) ∧ 2 ≤ cfg.lenMax ∧ cfg.checkLength = false) ∧
    ∃ r, exec .select (idleWith .low) = .refused r :=
  ⟨⟨rfl, by simp [mayStartWith, idleWith], by simp [mayStartWith, idleWith]⟩, ⟨rfl, rfl, by decide⟩,
    ⟨rfl, by decide, rfl⟩, _, rfl⟩

theorem witness_BareChipSelectOperationsRun :
    ((idleWith .high).IsIdle ∧ (idleWith .high).csN = .high) ∧ (idleWith .low).IsIdle ∧ (idleWith .low).csN = .low :=
  ⟨⟨⟨rfl, rfl⟩, rfl⟩, ⟨rfl, rfl⟩, rfl⟩

/-- The idle state before a device that gives these levels and these bytes. -/
def before (busy : List Level) (rx : List Byte) : State :=
  { idleWith .high with env := ⟨busy, rx, [], [], 0⟩ }

theorem witness_WaitReadyRuns :
    (∃ s : State, s.IsIdle ∧ s.csN = .high ∧ waitFits s.cfg 0 ∧
      s.env.busy = List.replicate 0 .high ++ .low :: []) ∧
    (∃ s : State, s.IsIdle ∧ s.csN = .high ∧ waitFits s.cfg 2 ∧ s.cfg.maxPollIter = some 3 ∧
      s.env.busy = List.replicate 2 .high ++ .low :: []) :=
  ⟨⟨before [.low] [], ⟨rfl, rfl⟩, rfl, fun _ h => (by cases h), rfl⟩,
    ⟨{ before [.high, .high, .low] [] with cfg := { cfg with maxPollIter := some 3 } }, ⟨rfl, rfl⟩, rfl,
      fun _ h => (by cases h; decide), rfl, rfl⟩⟩

theorem witness_PrimitiveRunsFromHandshakeToHandshake :
    (∃ (i : Instr) (s : State) (received : List Byte), isPrimitive i = true ∧ s.IsIdle ∧ s.csN = .high ∧
      lengthFits s.cfg i ∧ waitFits s.cfg 1 ∧ waitFits s.cfg 0 ∧
      s.env.busy = List.replicate 1 .high ++ .low :: (List.replicate 0 .high ++ .low :: []) ∧
      s.env.rx = received ++ [] ∧ received.length = frameLength i ∧ i = .readCmd 0x17 2 2) ∧
    (∃ (i : Instr) (s : State) (received : List Byte), isPrimitive i = true ∧ s.IsIdle ∧ s.csN = .high ∧
      lengthFits s.cfg i ∧ s.env.rx = received ++ [] ∧ received.length = frameLength i ∧
      i = .issueCmd 0x80 [] 0) :=
  ⟨⟨.readCmd 0x17 2 2, before [.high, .low, .low] [0xA2, 0x00, 0x20], [0xA2, 0x00, 0x20], rfl, ⟨rfl, rfl⟩, rfl,
      fun _ _ h => (by cases h; decide), fun _ h => (by cases h), fun _ h => (by cases h), rfl, rfl, rfl, rfl⟩,
    ⟨.issueCmd 0x80 [] 0, before [] [0xA2], [0xA2], rfl, ⟨rfl, rfl⟩, rfl, fun _ _ h => (by cases h; decide), rfl, rfl,
      rfl⟩⟩

theorem witness_HardenedPrimitiveFaultsInEitherWait :
    (∃ s : State, s.IsIdle ∧ s.csN = .high ∧ lengthFits s.cfg (.writeReg 0x0100 0xAB) ∧
      s.cfg.maxPollIter = some 1 ∧ s.env.busy = List.replicate 1 .high ++ []) ∧
    (∃ s : State, s.IsIdle ∧ s.csN = .high ∧ s.cfg.maxPollIter = some 1 ∧
      s.env.busy = List.replicate 0 .high ++ .low :: (List.replicate 1 .high ++ []) ∧
      s.env.rx = [0, 0, 0, 0] ++ [] ∧ [0, 0, 0, 0].length = frameLength (.writeReg 0x0100 0xAB)) :=
  ⟨⟨{ before [.high] [] with cfg := { cfg with maxPollIter := some 1 } }, ⟨rfl, rfl⟩, rfl,
      fun _ _ h => (by cases h; decide), rfl, rfl⟩,
    ⟨{ before [.low, .high] [0, 0, 0, 0] with cfg := { cfg with maxPollIter := some 1 } }, ⟨rfl, rfl⟩, rfl, rfl,
      rfl, rfl, rfl⟩⟩

/-- The idle state with the debug lines present, the receiving line to be written first. -/
def debugging : State :=
  { idleWith .low with cfg := { cfg with debugEn := true }, env := ⟨[], [], [.rx], [], 0⟩ }

theorem witness_SetModeMirrorsInEitherOrder :
    debugging.IsIdle ∧ debugging.cfg.debugEn = true ∧ debugging.env.nextDbgFirst.1 = .rx :=
  ⟨⟨rfl, rfl⟩, rfl, rfl⟩

theorem witness_SetModeWithoutMirrorWritesModeAlone : (idleWith .low).IsIdle ∧ (idleWith .low).cfg.debugEn = false :=
  ⟨⟨rfl, rfl⟩, rfl⟩

theorem witness_QueriesReturnTheirValue : (idleWith .low).IsIdle := ⟨rfl, rfl⟩

theorem witness_ResetDevicePulsesTheResetLine :
    (idleWith .high).IsIdle ∧ (idleWith .high).csN = .high ∧ cfg.valid = true := ⟨⟨rfl, rfl⟩, rfl, by decide⟩

theorem witness_InitOscCtrlSendsItsTwoFrames : ∃ (s : State) (got1 got2 : List Byte), s.IsIdle ∧ s.csN = .high ∧
    waitFits s.cfg 0 ∧ waitFits s.cfg 2 ∧
    s.env.busy = List.replicate 0 .high ++ .low :: (List.replicate 2 .high ++ .low ::
      (List.replicate 0 .high ++ .low :: (List.replicate 0 .high ++ .low :: []))) ∧
    s.env.rx = got1 ++ (got2 ++ []) ∧ got1.length = 5 ∧ got2.length = 2 :=
  ⟨before [.low, .high, .high, .low, .low, .low] [1, 2, 3, 4, 5, 6, 7], [1, 2, 3, 4, 5], [6, 7], ⟨rfl, rfl⟩, rfl,
    fun _ h => (by cases h), fun _ h => (by cases h), rfl, rfl, rfl, rfl⟩

/-- WAIT_READY at its wait, before a device that gives these levels. -/
def polling (bound : Option Nat) (busy : List Level) : State :=
  { flying .waitReady 0 0 with cfg := { cfg with maxPollIter := bound }, env := ⟨busy, [], [], [], 0⟩ }

theorem witness_WaitReturnsOnlyAfterALowSample :
    ((polling none [.low]).isAt .waitReady .wait ∧ ∃ t, exec .waitReady (polling none [.low]) = .next t ∧
      t.seq.upc = (polling none [.low]).seq.upc + 1) ∧
    (∃ t, exec .waitReady (polling none [.high]) = .next t ∧ t.seq.opl = (polling none [.high]).seq.opl ∧
      t.seq.upc = (polling none [.high]).seq.upc) ∧
    ((polling (some 1) [.low]).isAt .waitReady .wait ∧ (polling (some 1) [.low]).seq.pollCnt = 0 ∧
      waitFits (polling (some 1) [.low]).cfg 0 ∧
      (polling (some 1) [.low]).env.busy = List.replicate 0 .high ++ .low :: []) :=
  ⟨⟨⟨rfl, rfl⟩, _, rfl, rfl⟩, ⟨_, rfl, rfl, rfl⟩, ⟨rfl, rfl⟩, rfl, fun _ h => (by cases h; decide), rfl⟩

theorem witness_UnboundedWaitNeverGivesUp :
    (polling none [.high, .high]).isAt .waitReady .wait ∧ (polling none [.high, .high]).cfg.maxPollIter = none ∧
      (polling none [.high, .high]).env.nextBusy.1 = .high ∧ (polling none [.low]).env.nextBusy.1 = .low ∧
      (polling none [.high, .high]).env.busy = List.replicate 2 .high ++ [] :=
  ⟨⟨rfl, rfl⟩, rfl, rfl, rfl, rfl⟩

theorem witness_BoundedWaitTakesTheFault :
    (polling (some 1) [.high]).isAt .waitReady .wait ∧ (polling (some 1) [.high]).seq.pollCnt = 0 ∧
      (polling (some 1) [.high]).cfg.maxPollIter = some 1 ∧
      (polling (some 1) [.high]).env.busy = List.replicate 1 .high ++ [] :=
  ⟨⟨rfl, rfl⟩, rfl, rfl, rfl⟩

/-- The idle state with the length check. -/
def checking : State := { idleWith .high with cfg := { cfg with checkLength := true } }

theorem witness_CheckedLengthFaultsAtAcceptance :
    checking.seq.opl = none ∧ mayStartWith (.writeRegs 0x0100 [0xAB] 2) checking.csN ∧
      lengthAndCapacity (.writeRegs 0x0100 [0xAB] 2) = some (2, 1) ∧ 1 < 2 ∧ 2 ≤ checking.cfg.lenMax ∧
      checking.cfg.checkLength = true :=
  ⟨rfl, rfl, rfl, by decide, by decide, rfl⟩

theorem witness_BaseContractRespondsOnlyDone :
    ∃ (s t : State) (es : List Event), s.cfg.base = true ∧ step s = .next t ∧ t.trace = s.trace ++ es ∧ es ≠ [] :=
  ⟨flying .getMode 0 0, _, [.resp (.done 1 [])], by decide, rfl, rfl, by decide⟩

theorem witness_ResponseWordHasItsFields :
    (Result.done 0x00A2 [0x00]).word = 0x000000A2 ∧ (Result.fault (.deviceNotResponding 3)).word = 0x01000000 ∧
      (Result.fault (.invalidArgument 2 1)).word = 0x02000000 := by decide

theorem witness_TransactionsLeaveEverythingButChipSelectAndStaging :
    ∃ (i : Instr) (s t : State), isPrimitive i = true ∧ exec i s = .next t ∧ s.isAt i (.cs .low) :=
  ⟨.writeReg 0 0, { flying (.writeReg 0 0) 2 0 with csN := .high }, _, rfl, rfl, rfl, rfl⟩

theorem witness_BareChipSelectLeavesEverythingButChipSelectAndStaging :
    ((idleWith .high).seq.opl = none ∧ ∃ t, exec .select (idleWith .high) = .next t) ∧
    (∃ t, t.seq.opl ≠ none ∧ exec .select (flying .select 1 0) = .next t ∧ (flying .select 1 0).isAt .select (.cs .low)) ∧
      ∃ t, exec .deselect (flying .deselect 1 0) = .next t ∧ (flying .deselect 1 0).isAt .deselect (.cs .high) :=
  ⟨⟨rfl, _, rfl⟩, ⟨_, by decide, rfl, rfl, rfl⟩, _, rfl, rfl, rfl⟩

theorem witness_ModeTrackerLeavesBusAndLines :
    (∃ t, exec (.setMode .tx) (flying (.setMode .tx) 0 0) = .next t ∧ (flying (.setMode .tx) 0 0).cfg.debugEn = false) ∧
      ∃ t, exec .getMode (flying .getMode 0 0) = .next t :=
  ⟨⟨_, rfl, rfl⟩, _, rfl⟩

theorem witness_ResetDeviceLeavesEverythingButTheResetLineAndStaging :
    ((idleWith .high).seq.opl = none ∧ ∃ t, exec .resetDevice (idleWith .high) = .next t) ∧
    (∃ t, t.seq.opl ≠ none ∧ exec .resetDevice (flying .resetDevice 1 0) = .next t) ∧
      ∃ t, exec .getOscWakeupMs (flying .getOscWakeupMs 0 0) = .next t :=
  ⟨⟨rfl, _, rfl⟩, ⟨_, by decide, rfl⟩, _, rfl⟩

theorem witness_StagingChangesOnlyWhereBytesAreReceived :
    ∃ (i : Instr) (s t : State) (m : MicroOp), s.isAt i m ∧ exec i s = .next t ∧ t.seq.opl = s.seq.opl ∧
      (∀ k, m ≠ .rx k) ∧ ∀ b, m ≠ .txs b :=
  ⟨.writeReg 0 0, flying (.writeReg 0 0) 4 0, _, .tx 0x0D, ⟨rfl, rfl⟩, rfl, rfl, fun _ h => (by cases h),
    fun _ h => (by cases h)⟩

theorem witness_OperationsWithoutWaitNeverTouchTheDevice :
    ∃ t, neverWaits .resetDevice = true ∧ exec .resetDevice (flying .resetDevice 0 0) = .next t := ⟨_, rfl, rfl⟩

theorem witness_OnlySetModeWritesMode :
    ∃ t, exec (.setMode .tx) (flying (.setMode .tx) 0 0) = .next t ∧ t.mode ≠ (flying (.setMode .tx) 0 0).mode :=
  ⟨_, rfl, by decide⟩

theorem witness_OperationsAreModeAgnostic :
    modeCarried (.writeReg 0 0) = none ∧ Instr.writeReg 0 0 ≠ .getMode := by decide

theorem witness_DiscardedBytesAffectNothing :
    (flying (.writeReg 0 0) 4 0).isAt (.writeReg 0 0) (.tx 0x0D) ∧ (flying (.writeReg 0 0) 4 0).csN = .low :=
  ⟨⟨rfl, rfl⟩, rfl⟩

theorem witness_DebugMuxShowsTransmittingOrReceiving : debugging.IsIdle ∧ debugging.cfg.debugEn = true :=
  ⟨⟨rfl, rfl⟩, rfl⟩

theorem witness_WrappersAreRangedPrimitivesOfLengthOne : ∃ (s : State) (b : Byte), s.out = [b] :=
  ⟨{ flying (.readReg 0) 13 0 with out := [0xFF] }, 0xFF, rfl⟩

theorem witness_MicroProgramLengths :
    lengthFits { cfg with lenMax := 11 } (.readRegs 0 11 11) ∧ isPrimitive (.readRegs 0 11 11) = true ∧
      11 ≤ ({ cfg with lenMax := 11 } : Config).lenMax :=
  ⟨fun _ _ h => (by cases h; decide), rfl, by decide⟩

theorem witness_WakeupIsSixtyFourthsOfAMillisecond : cfg.oscScaleShift = 6 ∧ cfg.oscWakeupMs = 5 := by decide

theorem witness_DecodeOfEncodeIsTheOperation :
    (Instr.issueCmd 0x80 [] 65535).wellFormed = true ∧ (Instr.writeRegs 0 [0x01] 1).wellFormed = true := by decide

theorem witness_EncodeOfDecodeIsTheWord :
    (∃ (r : Request) (i : Instr), decode r = .ok i ∧ payloadOf i = some [0xFF]) ∧
    (∃ (r : Request) (i : Instr), decode r = .ok i ∧ payloadOf i = some [0x11, 0x22, 0x33]) ∧
    ∃ (r : Request) (i : Instr), decode r = .ok i ∧ capacityOf i = some 7 :=
  ⟨⟨⟨0x12FFFF0001, [0xFF], 0⟩, .writeReg 0xFFFF 0xFF, rfl, rfl⟩,
    ⟨⟨0x10008C0003, [0x11, 0x22, 0x33], 0⟩, .issueCmd 0x8C [0x11, 0x22, 0x33] 3, rfl, rfl⟩,
    ⟨⟨0x1100170002, [], 7⟩, .readCmd 0x17 2 7, rfl, rfl⟩⟩

theorem witness_DecoderAcceptsExactlyTheTable :
    (∃ (r : Request) (i : Instr), decode r = .ok i) ∧
      ∃ w : BitVec 40, ∃ row ∈ coreRows, row.covers w = true :=
  ⟨⟨⟨0x2000070000, [], 0⟩, _, rfl⟩, 0x2000070000, ⟨"SET_MODE", 0x2000000000, 0xFFFFF8FFFF, false⟩, by decide,
    by decide⟩

/-- A simulated device that is never busy, with one byte stored. -/
def device : SimDevice :=
  { reg := [(0x0740, 0x34)], buf := [(0, 0x0C)], busyScript := [], stuckBusy := false, st := 0xA2, cmdResp := [],
    k := 3, cmd := 0x0D, a := 0 }

theorem witness_RegisterRoundTripOnTheSimulatedDevice :
    ((idleWith .high).IsIdle ∧ (idleWith .high).csN = .high) ∧ 1 ≤ (idleWith .high).cfg.lenMax ∧
      SimDevice.tellsApart (idleWith .high).cfg = true ∧ Memory.wf device.reg = true ∧ device.busyScript = [] ∧
      device.stuckBusy = false :=
  ⟨⟨⟨rfl, rfl⟩, rfl⟩, by decide, by decide, by decide, rfl, rfl⟩

theorem witness_BufferRoundTripOnTheSimulatedDevice :
    ((idleWith .high).IsIdle ∧ (idleWith .high).csN = .high) ∧ 4 ≤ (idleWith .high).cfg.lenMax ∧
      SimDevice.tellsApart (idleWith .high).cfg = true ∧ Memory.wf device.buf = true ∧ device.busyScript = [] ∧
      device.stuckBusy = false :=
  ⟨⟨⟨rfl, rfl⟩, rfl⟩, by decide, by decide, by decide, rfl, rfl⟩

end Sys2Proof.Tests
end

section
/-! PROOFS. One rule per shared operation, about what it does to the sequencer, the lines, `MODE` and the staging
registers; the frames of the response and of acceptance. -/

namespace Sys2Proof.Machine

/-- `MODE`, the debug lines and the debug write owed are the same in two states. -/
structure SameMode (s t : State) : Prop where
  mode : t.mode = s.mode
  dbgTx : t.dbgTx = s.dbgTx
  dbgRx : t.dbgRx = s.dbgRx
  dbgRest : t.dbgRest = s.dbgRest

theorem SameMode.refl (s : State) : SameMode s s := ⟨rfl, rfl, rfl, rfl⟩

/-- Where the debug lines are the same, they show the same modes. -/
theorem SameMode.debugShows {s t : State} (h : SameMode s t) (hc : t.cfg = s.cfg) {m : OperatingMode}
    (hs : debugShows s m) : debugShows t m := by
  unfold Machine.debugShows
  rw [hc, h.dbgTx, h.dbgRx]
  exact hs

/-- Only `MODEW` and `DBGW` touch `MODE` and the debug lines (30_encoding R96, 60_exceptions R194). -/
theorem microStep_sameMode {m : MicroOp} {s t : State} (h : microStep m s = .next t)
    (hm : ∀ mode, m ≠ .modeW mode ∧ m ≠ .dbgW mode) : SameMode s t := by
  cases m with
  | wait =>
    cases h
    rcases poll_cases s with ⟨_, e⟩ | ⟨_, _, e⟩ | ⟨_, _, e⟩ <;> rw [e] <;> exact ⟨rfl, rfl, rfl, rfl⟩
  | tx | txs | rx =>
    simp only [microStep] at h
    obtain ⟨_, rfl⟩ := transfer_next h
    exact ⟨rfl, rfl, rfl, rfl⟩
  | modeW mode => exact absurd rfl (hm mode).1
  | dbgW mode => exact absurd rfl (hm mode).2
  | settle | cs | rst | dlyMs =>
    cases h
    exact ⟨rfl, rfl, rfl, rfl⟩

/-- What an entry does to the sequencer, the two lines and the number of bytes in `OUT`. -/
inductive EntryEffect (m : MicroOp) (s t : State) : Prop
  /-- The entry is done. -/
  | advanced (opl : t.seq.opl = s.seq.opl) (upc : t.seq.upc = s.seq.upc + 1)
      (pollCnt : t.seq.pollCnt = 0 ∨ m ≠ .wait ∧ t.seq.pollCnt = s.seq.pollCnt)
      (csN : t.csN = csAfterOps s.csN [m]) (resetN : t.resetN = resetAfterOps s.resetN [m])
      (out : t.out.length = s.out.length + dataCount [m])
  /-- A busy poll, or the first of two debug writes: the sequencer stays at the entry. -/
  | stayed (opl : t.seq.opl = s.seq.opl) (upc : t.seq.upc = s.seq.upc)
      (pollCnt : m = .wait ∨ t.seq.pollCnt = s.seq.pollCnt)
      (csN : t.csN = s.csN) (resetN : t.resetN = s.resetN) (out : t.out = s.out)
  /-- A wait took its last sample busy: the fault response (60_exceptions R187, R194). -/
  | gaveUp (wait : m = .wait) (seq : t.seq = Seq.idle) (csN : t.csN = s.csN) (resetN : t.resetN = s.resetN)

theorem poll_effect (s : State) : EntryEffect .wait s s.poll := by
  rcases poll_cases s with ⟨_, e⟩ | ⟨_, _, e⟩ | ⟨_, _, e⟩ <;> rw [e]
  · exact .advanced rfl rfl (.inl rfl) rfl rfl rfl
  · exact .gaveUp rfl rfl rfl rfl
  · exact .stayed rfl rfl (.inl rfl) rfl rfl rfl

theorem mirror_effect (s : State) (mode : OperatingMode) : EntryEffect (.dbgW mode) s (s.mirror mode) := by
  rcases mirror_cases s mode with ⟨_, e⟩ | ⟨_, _, e⟩ | ⟨_, d, _, e⟩ <;> rw [e]
  · exact .advanced rfl rfl (.inr ⟨nofun, rfl⟩) rfl rfl rfl
  · cases s.env.nextDbgFirst.1 <;> exact .stayed rfl rfl (.inr rfl) rfl rfl rfl
  · cases d <;> exact .advanced rfl rfl (.inr ⟨nofun, rfl⟩) rfl rfl rfl

/-- Every entry advances, stays or gives up, with the lines where the folds of 30_encoding R97 put them; an `RX` entry
met in index order adds one byte to `OUT`. -/
theorem microStep_effect {m : MicroOp} {s t : State} (h : microStep m s = .next t)
    (hrx : ∀ k, m = .rx k → k = s.out.length) : EntryEffect m s t := by
  cases m with
  | wait => cases h; exact poll_effect s
  | dbgW mode => cases h; exact mirror_effect s mode
  | tx | txs =>
    simp only [microStep] at h
    obtain ⟨_, rfl⟩ := transfer_next h
    exact .advanced rfl rfl (.inr ⟨nofun, rfl⟩) rfl rfl rfl
  | rx k =>
    simp only [microStep] at h
    obtain ⟨_, rfl⟩ := transfer_next h
    refine .advanced rfl rfl (.inr ⟨nofun, rfl⟩) rfl rfl ?_
    simp [hrx k rfl, dataCount]
  | settle | cs | rst | dlyMs | modeW =>
    cases h
    exact .advanced rfl rfl (.inr ⟨nofun, rfl⟩) rfl rfl rfl

/-- An entry that ends in no response writes `OUT` only at `RX` and `STATUS_OUT` only at `TXS`. -/
theorem microStep_staging {m : MicroOp} {s t : State} (h : microStep m s = .next t) (ho : t.seq.opl ≠ none) :
    ((∀ k, m ≠ .rx k) → t.out = s.out) ∧ ((∀ b, m ≠ .txs b) → t.statusOut = s.statusOut) := by
  cases m with
  | wait =>
    cases h
    rcases poll_cases s with ⟨_, e⟩ | ⟨_, _, e⟩ | ⟨_, _, e⟩ <;> rw [e] at ho ⊢
    · exact ⟨fun _ => rfl, fun _ => rfl⟩
    · exact absurd rfl ho
    · exact ⟨fun _ => rfl, fun _ => rfl⟩
  | dbgW mode =>
    cases h
    rcases mirror_cases s mode with ⟨_, e⟩ | ⟨_, _, e⟩ | ⟨_, d, _, e⟩ <;> rw [e]
    · exact ⟨fun _ => rfl, fun _ => rfl⟩
    · cases s.env.nextDbgFirst.1 <;> exact ⟨fun _ => rfl, fun _ => rfl⟩
    · cases d <;> exact ⟨fun _ => rfl, fun _ => rfl⟩
  | tx b =>
    simp only [microStep] at h
    obtain ⟨_, rfl⟩ := transfer_next h
    exact ⟨fun _ => rfl, fun _ => rfl⟩
  | txs b =>
    simp only [microStep] at h
    obtain ⟨_, rfl⟩ := transfer_next h
    exact ⟨fun _ => rfl, fun hm => absurd rfl (hm b)⟩
  | rx k =>
    simp only [microStep] at h
    obtain ⟨_, rfl⟩ := transfer_next h
    exact ⟨fun hm => absurd rfl (hm k), fun _ => rfl⟩
  | settle | cs | rst | dlyMs | modeW =>
    cases h
    exact ⟨fun _ => rfl, fun _ => rfl⟩

/-- What the response of every operation leaves, and its event (30_encoding R85, 10_state R26). -/
structure Responded (r : Result) (s t : State) : Prop where
  trace : t.trace = s.trace ++ [.resp r]
  seq : t.seq = Seq.idle
  sameMode : SameMode s t
  csN : t.csN = s.csN
  resetN : t.resetN = s.resetN
  requests : t.requests = s.requests
  cfg : t.cfg = s.cfg

theorem finish_responded (r : Reply) (s : State) : Responded (r.result s) s (finish r s) := by
  cases r <;> exact ⟨rfl, rfl, ⟨rfl, rfl, rfl, rfl⟩, rfl, rfl, rfl, rfl⟩

/-- A read's data stay in `OUT` (log 4). -/
theorem finish_out {cfg : Config} {i : Instr} (h : returnsData i = true) (s : State) :
    (finish (operation cfg i).reply s).out = s.out := by
  cases i <;> first | rfl | cases h

/-- The length fault leaves what a response leaves, behind the request's event (60_exceptions R194). -/
theorem latch_raise_responded (s : State) (op : Instr) (f : FaultRecord) :
    Responded (.fault f) (s.latch op) ((s.latch op).raise f) :=
  ⟨rfl, rfl, ⟨rfl, rfl, rfl, rfl⟩, rfl, rfl, rfl, rfl⟩

end Sys2Proof.Machine
end

section
/-! PROOFS. `MODE` as a field nobody but SET_MODE and GET_MODE looks at (43_transaction_primitives R140): every shared
operation commutes with putting another mode there. -/

namespace Sys2Proof.Machine

/-- The state with another `MODE`. -/
def State.withMode (s : State) (mode : OperatingMode) : State := { s with mode := mode }

@[simp] theorem withMode_cfg (s : State) (mode : OperatingMode) : (s.withMode mode).cfg = s.cfg := rfl

@[simp] theorem withMode_csN (s : State) (mode : OperatingMode) : (s.withMode mode).csN = s.csN := rfl

theorem latch_withMode (s : State) (mode : OperatingMode) (op : Instr) :
    (s.withMode mode).latch op = (s.latch op).withMode mode := rfl

theorem raise_withMode (s : State) (mode : OperatingMode) (f : FaultRecord) :
    (s.withMode mode).raise f = (s.raise f).withMode mode := rfl

theorem admitLength_withMode (o : Operation) (s : State) (mode : OperatingMode) :
    admitLength o (s.withMode mode) = mapNext (·.withMode mode) (admitLength o s) := by
  simp only [admitLength, withMode_cfg]
  split
  · rfl
  · next len capacity _ =>
    by_cases h1 : s.cfg.lenMax < len
    · simp [h1, mapNext]
    · by_cases h2 : len ≤ capacity
      · simp [h1, h2, mapNext, latch_withMode]
      · by_cases h3 : s.cfg.checkLength = true <;> simp [h1, h2, h3, mapNext, latch_withMode, raise_withMode]

theorem accept_withMode (o : Operation) (s : State) (mode : OperatingMode) :
    accept o (s.withMode mode) = mapNext (·.withMode mode) (accept o s) := by
  simp only [accept, withMode_csN]
  split
  · rfl
  · exact admitLength_withMode o s mode

theorem poll_withMode (s : State) (mode : OperatingMode) : (s.withMode mode).poll = s.poll.withMode mode := by
  rcases hb : s.env.nextBusy.1 with _ | _
  · rw [poll_low s hb, poll_low (s.withMode mode) hb]
    rfl
  · rw [poll_high s hb, poll_high (s.withMode mode) hb,
      show (s.withMode mode).counted.pollLimitReached = s.counted.pollLimitReached from rfl]
    split_ifs <;> rfl

theorem mirror_withMode (s : State) (mode m : OperatingMode) :
    (s.withMode mode).mirror m = (s.mirror m).withMode mode := by
  rcases mirror_cases s m with ⟨he, _⟩ | ⟨he, hd, e⟩ | ⟨he, d, hd, e⟩
  · simp [State.mirror, State.withMode, he, State.advance]
  · rw [e]
    simp only [State.mirror, State.withMode, he, hd]
    cases s.env.nextDbgFirst.1 <;> rfl
  · rw [e]
    simp only [State.mirror, State.withMode, he, hd]
    cases d <;> rfl

theorem transfer_withMode (s : State) (mode : OperatingMode) (b : Byte) (store : Byte → State → State)
    (hs : ∀ rx t, store rx (t.withMode mode) = (store rx t).withMode mode) :
    transfer (s.withMode mode) b store = mapNext (·.withMode mode) (transfer s b store) := by
  by_cases hc : s.csN = .low
  · rw [transfer_low s b store hc, transfer_low (s.withMode mode) b store hc]
    exact congrArg (fun t : State => Host.Outcome.next t.advance) (hs (s.exchange b).1 (s.exchange b).2)
  · simp [transfer, hc, mapNext]

/-- No entry but `MODEW` reads or writes `MODE`. -/
theorem microStep_withMode {m : MicroOp} (hm : ∀ mode, m ≠ .modeW mode) (s : State) (mode : OperatingMode) :
    microStep m (s.withMode mode) = mapNext (·.withMode mode) (microStep m s) := by
  cases m with
  | wait => exact congrArg Host.Outcome.next (poll_withMode s mode)
  | dbgW m => exact congrArg Host.Outcome.next (mirror_withMode s mode m)
  | tx b => exact transfer_withMode s mode b (fun _ t => t) fun _ _ => rfl
  | txs b => exact transfer_withMode s mode b (fun rx t => { t with statusOut := rx }) fun _ _ => rfl
  | rx k => exact transfer_withMode s mode s.cfg.nopByte (fun rx t => t.storeOut k rx) fun _ _ => rfl
  | modeW m => exact absurd rfl (hm m)
  | settle | cs | rst | dlyMs => rfl

/-- No response but GET_MODE's reads `MODE`. -/
theorem finish_withMode {r : Reply} (hr : r ≠ .mode) (s : State) (mode : OperatingMode) :
    finish r (s.withMode mode) = (finish r s).withMode mode := by
  cases r with
  | mode => exact absurd rfl hr
  | nothing | oscWakeupMs | statusAndData | data => rfl

theorem operation_reply_ne_mode {i : Instr} (h : i ≠ .getMode) (cfg : Config) : (operation cfg i).reply ≠ .mode := by
  cases i <;> first | exact absurd rfl h | (intro e; cases e)

/-- Settles O40: wherever the sequencer stands, the one shared operation that runs there does not read `MODE`, and no
entry but SET_MODE's stores it. -/
theorem operationsAreModeAgnostic : Obligations.OperationsAreModeAgnostic := by
  intro i s mode hc hg
  change exec i (s.withMode mode) = mapNext (·.withMode mode) (exec i s)
  rcases ho : s.seq.opl with _ | op
  · rw [exec_idle i s ho, exec_idle i (s.withMode mode) ho]
    exact accept_withMode _ s mode
  · by_cases hop : op = i.core
    · subst hop
      rcases inFlight_cases i s with ⟨m, hm⟩ | hu | hu
      · rw [exec_isAt (s := s) ⟨ho, hm⟩, exec_isAt (s := s.withMode mode) ⟨ho, hm⟩]
        refine microStep_withMode (fun mode' e => ?_) s mode
        obtain ⟨rfl, _⟩ := uprog_at_mode.1 (e ▸ hm)
        cases hc
      · rw [exec_atEnd (s := s) ho hu, exec_atEnd (s := s.withMode mode) ho hu]
        exact congrArg Host.Outcome.next (finish_withMode (operation_reply_ne_mode hg _) s mode)
      · rw [exec_pastEnd (s := s) ho hu, exec_pastEnd (s := s.withMode mode) ho hu]
        rfl
    · rw [exec_other (s := s) ho hop, exec_other (s := s.withMode mode) ho hop]
      rfl

end Sys2Proof.Machine
end

section
/-! PROOFS. Reset, the step's dispatch, the trace, the response and the staging registers. -/

namespace Sys2Proof.Machine

theorem hardware_valid : Config.hardware.valid = true := by
  have hpoll : 10 + Config.openPollIntervalAbove10.val ≤ 99 := by
    have := Config.openPollIntervalAbove10.isLt
    omega
  simpa [Config.valid, Config.hardware] using hpoll

/-- Settles O1: field by field, and the bounds of the open parameters. -/
theorem resetPutsEveryElementAtItsResetValue : Obligations.ResetPutsEveryElementAtItsResetValue := by
  refine ⟨fun cfg => ?_, fun s => ?_, rfl, rfl, hardware_valid, rfl⟩
  · exact ⟨rfl, rfl, rfl, rfl, rfl, rfl, rfl, rfl⟩
  · exact ⟨rfl, rfl, rfl, rfl, rfl, rfl, rfl, rfl⟩

/-- At reset the debug lines show the reset mode (44_mode_tracker R162: STANDBY_RC drives neither). -/
theorem reset_machineInv : MachineInv State.reset := ⟨rfl, rfl, rfl, rfl, rfl, fun _ => rfl⟩

theorem reset_linesFollowTrace : LinesFollowTrace State.reset := ⟨rfl, rfl, rfl, rfl, rfl⟩

theorem reset_modeFollowsTrace : ModeFollowsTrace State.reset := .inr ⟨nofun, rfl⟩

/-- Settles O2: the trace is empty and every latch at the level the replays start from. -/
theorem resetMeetsTheInvariants : Obligations.ResetMeetsTheInvariants :=
  ⟨reset_machineInv, reset_linesFollowTrace, reset_modeFollowsTrace⟩

/-! The equations of `step`, one for each of its branches. -/

theorem step_inFlight {s : State} {op : Instr} (h : s.seq.opl = some op) : step s = exec op s := by
  simp [step, h]

theorem step_noRequest {s : State} (h : s.seq.opl = none) (hg : s.grantNext = none) : step s = .next s := by
  simp [step, h, hg]

theorem step_request {s g : State} {r : Request} {i : Instr} (h : s.seq.opl = none) (hg : s.grantNext = some (r, g))
    (hd : decode r = .ok i) : step s = exec i g := by
  simp [step, h, hg, hd]

/-- One requester with a request waits alone. -/
theorem waiting_of_one {s : State} {r : Request} {rest : List Request} {others : List (List Request)}
    (hn : s.cfg.nRequesters = 1) (hr : s.requests = (r :: rest) :: others) : s.waiting = [0] := by
  simp [State.waiting, hn, hr]

/-- With one requester the arbiter "is the idle test and nothing more" (60_exceptions R200). -/
theorem grantNext_of_one {s : State} {r : Request} {rest : List Request} {others : List (List Request)}
    (hn : s.cfg.nRequesters = 1) (hr : s.requests = (r :: rest) :: others) :
    s.grantNext = some (r, { s with requests := rest :: others, grant := some 0 }) := by
  simp [State.grantNext, Environment.choose, waiting_of_one hn hr, hr]

/-- Settles O8: one equation of `step` for each clause. -/
theorem stepRunsTheDecodedOperation : Obligations.StepRunsTheDecodedOperation :=
  ⟨fun _ _ _ _ => step_request, fun _ _ => step_inFlight, fun _ => step_noRequest,
    fun _ _ _ _ => grantNext_of_one⟩

/-- Settles O7: every meaning keeps the configuration and appends, and the grant touches neither. -/
theorem stepAppendsToTheTraceAndKeepsConfiguration : Obligations.StepAppendsToTheTraceAndKeepsConfiguration := by
  intro s t h
  rcases step_next_cases h with ⟨op, _, he⟩ | ⟨_, _, rfl⟩ | ⟨_, r, g, i, hg, _, he⟩
  · exact exec_cfg_trace he
  · exact ⟨rfl, [], by simp⟩
  · obtain ⟨q, _, rest, env, _, rfl, _⟩ := grantNext_some hg
    obtain ⟨hc, es, htr⟩ := exec_cfg_trace he
    exact ⟨hc, es, htr⟩

/-- Settles O15: at the end of its micro-program a meaning is the response of its operation. -/
theorem everyOperationRespondsAtItsEnd : Obligations.EveryOperationRespondsAtItsEnd := by
  intro i s ho hu
  refine ⟨_, exec_atEnd ho hu, ?_⟩
  obtain ⟨htr, hseq, ⟨hmode, htx, hrx, _⟩, hcs, hrst, hreq, hcfg⟩ := finish_responded (operation s.cfg i).reply s
  rw [operation_result] at htr
  refine ⟨htr, hseq, hmode, hcs, hrst, htx, hrx, hreq, hcfg, fun h => finish_out h s, ?_⟩
  rintro opc len cap rfl
  rfl

/-- Settles O37: the step of an operation in flight is its entry's. -/
theorem stagingChangesOnlyWhereBytesAreReceived : Obligations.StagingChangesOnlyWhereBytesAreReceived := by
  intro i s t m hat h ho
  rw [exec_isAt hat] at h
  obtain ⟨hs, _⟩ := hat
  exact microStep_staging h (by rw [ho, hs]; nofun)

end Sys2Proof.Machine
end

section
/-! PROOFS. The invariant of the sequencer and the lines: its two halves under names, how each half moves, and the step
lemma (10_state R26, R30, R33, 44_mode_tracker R161, R163). -/

namespace Sys2Proof.Machine

/-! ### The two halves of `MachineInv` -/

/-- `MachineInv` of an idle controller, where the sequencer is `(none, 0, 0)`. -/
structure IdleAgrees (s : State) : Prop where
  dbgRest : s.dbgRest = none
  csN : s.csN = chipSelectLeft .high s.trace
  resetN : s.resetN = .high
  mode : s.mode = lastCommanded s.cfg.modeReset s.trace
  debug : debugShows s s.mode

/-- What `MachineInv` says in flight of the sequencer, the two lines and `OUT`, `MODE` and the debug lines apart. -/
structure ProgramAgrees (s : State) (op : Instr) : Prop where
  core : op.core = op
  fits : lengthFits s.cfg op
  upc_le : s.seq.upc ≤ (uprog s.cfg op).length
  csN : ∃ l, mayStartWith op l ∧ s.csN = csAfterOps l ((uprog s.cfg op).take s.seq.upc) ∧
    csAfterOps l (uprog s.cfg op) = chipSelectLeft .high s.trace
  resetN : s.resetN = resetAfterOps .high ((uprog s.cfg op).take s.seq.upc)
  out : s.out.length = dataCount ((uprog s.cfg op).take s.seq.upc)
  polling : s.seq.pollCnt ≠ 0 → (uprog s.cfg op)[s.seq.upc]? = some .wait

theorem machineInv_idle {s : State} (h : s.seq.opl = none) : MachineInv s ↔ s.seq = Seq.idle ∧ IdleAgrees s := by
  simp only [MachineInv, h]
  constructor
  · rintro ⟨hs, hd, hc, hr, hm, hb⟩
    exact ⟨hs, hd, hc, hr, hm, hb⟩
  · rintro ⟨hs, hd, hc, hr, hm, hb⟩
    exact ⟨hs, hd, hc, hr, hm, hb⟩

theorem machineInv_inFlight {s : State} {op : Instr} (h : s.seq.opl = some op) :
    MachineInv s ↔ ProgramAgrees s op ∧ modeInFlight s op := by
  simp only [MachineInv, h]
  constructor
  · rintro ⟨h1, h2, h3, h4, h5, h6, h7, hm⟩
    exact ⟨⟨h1, h2, h3, h4, h5, h6, h7⟩, hm⟩
  · rintro ⟨⟨h1, h2, h3, h4, h5, h6, h7⟩, hm⟩
    exact ⟨h1, h2, h3, h4, h5, h6, h7, hm⟩

/-- The grant of a request touches nothing the invariant speaks of. -/
theorem grantNext_keeps_idleAgrees {s g : State} {r : Request} (hg : s.grantNext = some (r, g)) (h : IdleAgrees s) :
    IdleAgrees g := by
  obtain ⟨q, _, rest, env, _, rfl, _⟩ := grantNext_some hg
  exact ⟨h.dbgRest, h.csN, h.resetN, h.mode, h.debug⟩

/-! ### Steps that accept no request -/

/-- From one state to the other no request was accepted: the configuration stands and no appended event is a `Req`. -/
structure NoRequest (s t : State) : Prop where
  cfg : t.cfg = s.cfg
  trace : ∃ es, t.trace = s.trace ++ es ∧ ∀ j, Event.req j ∉ es

theorem microStep_noRequest {m : MicroOp} {s t : State} (h : microStep m s = .next t) : NoRequest s t := by
  obtain ⟨hcfg, htr⟩ := microStep_cfg_trace h
  exact ⟨hcfg, htr⟩

theorem Responded.noRequest {r : Result} {s t : State} (h : Responded r s t) : NoRequest s t :=
  ⟨h.cfg, [.resp r], h.trace, by simp⟩

theorem NoRequest.chipSelectLeft_eq {s t : State} (h : NoRequest s t) (l : Level) :
    chipSelectLeft l t.trace = chipSelectLeft l s.trace := by
  obtain ⟨es, htr, hes⟩ := h.trace
  rw [htr, chipSelectLeft_append, chipSelectLeft_of_noReq _ _ hes]

theorem NoRequest.lastCommanded_eq {s t : State} (h : NoRequest s t) :
    lastCommanded t.cfg.modeReset t.trace = lastCommanded s.cfg.modeReset s.trace := by
  obtain ⟨es, htr, hes⟩ := h.trace
  rw [h.cfg, htr, lastCommanded_append, lastCommanded_of_noReq _ _ hes]

/-! ### The sequencer, the two lines and `OUT` -/

/-- A finished entry: every fold takes it in. -/
theorem ProgramAgrees.of_advanced {s t : State} {op : Instr} {m : MicroOp} (h : ProgramAgrees s op)
    (hm : (uprog s.cfg op)[s.seq.upc]? = some m) (hq : NoRequest s t) (hupc : t.seq.upc = s.seq.upc + 1) (hpoll : t.seq.pollCnt = 0)
    (hcs : t.csN = csAfterOps s.csN [m]) (hrst : t.resetN = resetAfterOps s.resetN [m])
    (hout : t.out.length = s.out.length + dataCount [m]) : ProgramAgrees t op := by
  obtain ⟨l, hl, hat, hend⟩ := h.csN
  have htake : (uprog t.cfg op).take t.seq.upc = (uprog s.cfg op).take s.seq.upc ++ [m] := by
    rw [hq.cfg, hupc, take_succ_of_at hm]
  refine ⟨h.core, hq.cfg ▸ h.fits, ?_, ⟨l, hl, ?_, ?_⟩, ?_, ?_, fun hne => absurd hpoll hne⟩
  · obtain ⟨hlt, _⟩ := List.getElem?_eq_some_iff.mp hm
    rw [hq.cfg, hupc]
    exact hlt
  · rw [htake, csAfterOps_append, ← hat, hcs]
  · rw [hq.cfg, hend, hq.chipSelectLeft_eq]
  · rw [htake, resetAfterOps_append, ← h.resetN, hrst]
  · rw [htake, dataCount_append, ← h.out, hout]

/-- An entry that stays. -/
theorem ProgramAgrees.of_stayed {s t : State} {op : Instr} (h : ProgramAgrees s op) (hq : NoRequest s t)
    (hupc : t.seq.upc = s.seq.upc) (hpoll : t.seq.pollCnt ≠ 0 → (uprog s.cfg op)[s.seq.upc]? = some .wait)
    (hcs : t.csN = s.csN) (hrst : t.resetN = s.resetN) (hout : t.out = s.out) : ProgramAgrees t op := by
  obtain ⟨l, hl, hat, hend⟩ := h.csN
  refine ⟨h.core, hq.cfg ▸ h.fits, ?_, ⟨l, hl, ?_, ?_⟩, ?_, ?_, ?_⟩ <;> rw [hq.cfg]
  · rw [hupc]; exact h.upc_le
  · rw [hupc, hcs]; exact hat
  · rw [hend, hq.chipSelectLeft_eq]
  · rw [hupc, hrst]; exact h.resetN
  · rw [hupc, hout]; exact h.out
  · rw [hupc]; exact hpoll

/-! ### `MODE` and the debug lines -/

/-- The four instants of a SET_MODE in flight (44_mode_tracker R163). -/
theorem debugWhileSetting_iff {s : State} {m old : OperatingMode} : debugWhileSetting s m old ↔
    (s.seq.upc = 0 ∧ s.dbgRest = none ∧ s.mode = old ∧ debugShows s old) ∨
      (s.seq.upc = 1 ∧ s.dbgRest = none ∧ s.mode = m ∧ debugShows s old) ∨
      (∃ d, s.seq.upc = 1 ∧ s.dbgRest = some d ∧ s.mode = m ∧ s.cfg.debugEn = true ∧
        s.dbgLine d.other = dbgLevel m d.other ∧ s.dbgLine d = dbgLevel old d) ∨
      (s.seq.upc = 2 ∧ s.dbgRest = none ∧ s.mode = m ∧ debugShows s m) := by
  unfold debugWhileSetting
  split <;> simp_all

/-- The debug lines show a mode when each of them has its level. -/
theorem debugShows_of_dbgLine {s : State} {m : OperatingMode} (d : DbgSignal) (h : s.dbgLine d = dbgLevel m d)
    (ho : s.dbgLine d.other = dbgLevel m d.other) : debugShows s m := by
  intro _
  cases d
  · exact Prod.ext h ho
  · exact Prod.ext ho h

/-- Where the debug lines show a mode, each has its level. -/
theorem dbgLine_of_debugShows {s : State} {m : OperatingMode} (he : s.cfg.debugEn = true) (h : debugShows s m)
    (d : DbgSignal) : s.dbgLine d = dbgLevel m d := by
  have hd := h he
  cases d
  · exact congrArg Prod.fst hd
  · exact congrArg Prod.snd hd

/-- A debug write sets its line and leaves the other. -/
theorem driveDbg_dbgLine (s : State) (d : DbgSignal) (l : Level) :
    (s.driveDbg d l).dbgLine d = l ∧ (s.driveDbg d l).dbgLine d.other = s.dbgLine d.other := by
  cases d <;> exact ⟨rfl, rfl⟩

@[simp] theorem other_other (d : DbgSignal) : d.other.other = d := by cases d <;> rfl

theorem uprog_setMode (cfg : Config) (m : OperatingMode) : uprog cfg (.setMode m) = [.modeW m, .dbgW m] := rfl

/-- The store of a SET_MODE comes before both debug writes (44_mode_tracker R163). -/
theorem modeW_keeps_debugWhileSetting {s : State} {m old : OperatingMode} (hu : s.seq.upc = 0)
    (h : debugWhileSetting s m old) : debugWhileSetting ({ s with mode := m } : State).advance m old := by
  rcases debugWhileSetting_iff.mp h with ⟨_, hd, _, hs⟩ | ⟨hu', _⟩ | ⟨_, hu', _⟩ | ⟨hu', _⟩
  · exact debugWhileSetting_iff.mpr (.inr (.inl ⟨by simp [hu], hd, rfl, hs⟩))
  all_goals omega

/-- Each debug write moves its own line from the old level to the new, in either order (44_mode_tracker R163). -/
theorem mirror_keeps_debugWhileSetting {s : State} {m old : OperatingMode} (hu : s.seq.upc = 1)
    (h : debugWhileSetting s m old) : debugWhileSetting (s.mirror m) m old := by
  apply debugWhileSetting_iff.mpr
  rcases debugWhileSetting_iff.mp h with ⟨hu', _⟩ | ⟨_, hd, hm, hs⟩ | ⟨d, _, hd, hm, he, ho, _⟩ | ⟨hu', _⟩
  · omega
  · rcases mirror_cases s m with ⟨he, e⟩ | ⟨he, _, e⟩ | ⟨_, d, hd', _⟩
    · rw [e]
      exact .inr (.inr (.inr ⟨by simp [hu], hd, hm, fun he' => absurd he' (by simp [he])⟩))
    · rw [e]
      generalize s.env.nextDbgFirst.1 = d
      obtain ⟨hline, hother⟩ := driveDbg_dbgLine s d (dbgLevel m d)
      refine .inr (.inr (.inl ⟨d.other, ?_, rfl, ?_, ?_, ?_, ?_⟩))
      · cases d <;> exact hu
      · cases d <;> exact hm
      · cases d <;> exact he
      · rw [other_other]; exact hline
      · exact hother.trans (dbgLine_of_debugShows he hs d.other)
    · rw [hd] at hd'; cases hd'
  · rcases mirror_cases s m with ⟨he', _⟩ | ⟨_, hd', _⟩ | ⟨_, d', hd', e⟩
    · rw [he] at he'; cases he'
    · rw [hd] at hd'; cases hd'
    · obtain rfl : d = d' := by rw [hd] at hd'; cases hd'; rfl
      rw [e]
      obtain ⟨hline, hother⟩ := driveDbg_dbgLine s d (dbgLevel m d)
      refine .inr (.inr (.inr ⟨?_, rfl, ?_, debugShows_of_dbgLine d hline (hother.trans ho)⟩))
      · cases d <;> simp [hu]
      · cases d <;> exact hm
  · omega

/-- An entry of a SET_MODE keeps the levels its micro-program gives. -/
theorem microStep_keeps_debugWhileSetting {s t : State} {m old : OperatingMode} {op : MicroOp}
    (hat : (uprog s.cfg (.setMode m))[s.seq.upc]? = some op) (h : microStep op s = .next t)
    (hd : debugWhileSetting s m old) : debugWhileSetting t m old := by
  rw [uprog_setMode] at hat
  rcases hu : s.seq.upc with _ | _ | k <;> rw [hu] at hat
  · cases hat; cases h
    exact modeW_keeps_debugWhileSetting hu hd
  · cases hat; cases h
    exact mirror_keeps_debugWhileSetting hu hd
  · cases hat

/-- Every entry of the operation in flight keeps what the invariant says of `MODE` and the debug lines. -/
theorem microStep_keeps_modeInFlight {s t : State} {op : Instr} {m : MicroOp}
    (hat : (uprog s.cfg op)[s.seq.upc]? = some m) (h : microStep m s = .next t) (hi : modeInFlight s op) :
    modeInFlight t op := by
  have hq := microStep_noRequest h
  unfold modeInFlight at hi ⊢
  rcases hc : modeCarried op with _ | mode <;> simp only [hc] at hi ⊢
  · obtain ⟨hmode, hshow, hrest⟩ := hi
    have hsame : SameMode s t := microStep_sameMode h fun mode => by
      constructor <;> rintro rfl
      · obtain ⟨rfl, _⟩ := uprog_at_mode.1 hat; cases hc
      · obtain ⟨rfl, _⟩ := uprog_at_mode.2 hat; cases hc
    refine ⟨?_, ?_, hsame.dbgRest.trans hrest⟩
    · rw [hsame.mode, hmode, hq.lastCommanded_eq]
    · rw [hsame.mode]; exact hsame.debugShows hq.cfg hshow
  · obtain rfl : op = .setMode mode := by cases op <;> cases hc; rfl
    obtain ⟨before, ds, hbefore, hds, hset⟩ := hi
    obtain ⟨es, htr, hes⟩ := hq.trace
    refine ⟨before, ds ++ es, ?_, ?_, ?_⟩
    · rw [htr, hbefore, List.append_assoc, List.cons_append]
    · intro j hj
      rcases List.mem_append.mp hj with hj | hj
      · exact hds j hj
      · exact hes j hj
    · rw [hq.cfg]; exact microStep_keeps_debugWhileSetting hat h hset

/-- At a wait and at the end of a micro-program `MODE` is the last commanded mode and the debug lines show it. -/
theorem modeInFlight_settled {s : State} {op : Instr} (h : modeInFlight s op)
    (hat : (uprog s.cfg op)[s.seq.upc]? = some .wait ∨ s.seq.upc = (uprog s.cfg op).length) :
    s.mode = lastCommanded s.cfg.modeReset s.trace ∧ debugShows s s.mode ∧ s.dbgRest = none := by
  unfold modeInFlight at h
  rcases hc : modeCarried op with _ | mode <;> simp only [hc] at h
  · exact h
  · obtain rfl : op = .setMode mode := by cases op <;> cases hc; rfl
    obtain ⟨es, ds, htr, hds, hset⟩ := h
    have hu : s.seq.upc = 2 := by
      rcases hat with hw | hu
      · have := mem_of_at hw
        simp [uprog_setMode] at this
      · exact hu
    rcases debugWhileSetting_iff.mp hset with ⟨hu', _⟩ | ⟨hu', _⟩ | ⟨_, hu', _⟩ | ⟨_, hd, hm, hs⟩ <;> try omega
    refine ⟨?_, hm ▸ hs, hd⟩
    rw [hm, htr, lastCommanded_append]
    exact (lastCommanded_of_noReq _ _ hds).symm

/-! ### Acceptance, entries, responses -/

/-- Acceptance puts the operation in flight before its first entry. -/
theorem latch_machineInv {s : State} {i : Instr} (h : IdleAgrees s) (hstart : mayStartWith i s.csN)
    (hfits : lengthFits s.cfg i) : MachineInv (s.latch i.core) := by
  refine (machineInv_inFlight (op := i.core) rfl).mpr ⟨?_, ?_⟩
  · refine ⟨core_core i, by rw [lengthFits_core]; exact hfits, Nat.zero_le _,
      ⟨s.csN, by rw [mayStartWith_core]; exact hstart, rfl, ?_⟩, h.resetN, rfl, fun hne => absurd rfl hne⟩
    rw [State.latch_trace, State.latch_cfg, uprog_core, chipSelectLeft_append, ← h.csN, uprog_cs_end hstart]
  · unfold modeInFlight
    rcases hc : modeCarried i.core with _ | mode <;> simp only
    · refine ⟨?_, h.debug, h.dbgRest⟩
      rw [State.latch_mode, State.latch_trace, State.latch_cfg, lastCommanded_append, ← h.mode]
      cases i <;> first | rfl | cases hc
    · obtain rfl : i = .setMode mode := by cases i <;> cases hc; rfl
      refine ⟨s.trace, [], rfl, by simp, debugWhileSetting_iff.mpr (.inl ⟨rfl, h.dbgRest, h.mode, ?_⟩)⟩
      rw [State.latch_cfg, ← h.mode]
      exact h.debug

/-- The length fault at acceptance leaves the controller as idle as it was (60_exceptions R193, R194). -/
theorem latch_raise_machineInv {s : State} {i : Instr} {len capacity : Nat} (h : IdleAgrees s)
    (hlen : lengthAndCapacity i = some (len, capacity)) (f : FaultRecord) :
    MachineInv ((s.latch i.core).raise f) := by
  obtain ⟨htr, hseq, hsame, hcs, hrst, _, hcfg⟩ := latch_raise_responded s i.core f
  have hes : ∀ l m, chipSelectLeft l [.req i.core, .resp (.fault f)] = l ∧
      lastCommanded m [.req i.core, .resp (.fault f)] = m := by
    intro l m
    cases i <;> first | exact ⟨rfl, rfl⟩ | cases hlen
  rw [State.latch_trace, List.append_assoc, List.singleton_append] at htr
  refine (machineInv_idle (by rw [hseq]; rfl)).mpr ⟨hseq, hsame.dbgRest.trans h.dbgRest, ?_, hrst.trans h.resetN, ?_, ?_⟩
  · rw [hcs, htr, chipSelectLeft_append, (hes _ .sleep).1]; exact h.csN
  · rw [hsame.mode, hcfg, htr, lastCommanded_append, (hes .high _).2]; exact h.mode
  · rw [hsame.mode]; exact hsame.debugShows hcfg h.debug

/-- A response at a wait or at the end of the micro-program leaves an idle controller with the lines where R33 has
them. -/
theorem machineInv_of_response {s t : State} {op : Instr} (h : ProgramAgrees s op) (hmode : modeInFlight s op)
    (hat : (uprog s.cfg op)[s.seq.upc]? = some .wait ∨ s.seq.upc = (uprog s.cfg op).length)
    (hq : NoRequest s t) (hseq : t.seq = Seq.idle) (hsame : SameMode s t) (hcs : t.csN = s.csN) (hrst : t.resetN = s.resetN) : MachineInv t := by
  obtain ⟨hm, hd, hr⟩ := modeInFlight_settled hmode hat
  obtain ⟨l, hl, hline, hend⟩ := h.csN
  have hleft : csAfterOps l ((uprog s.cfg op).take s.seq.upc) = csAfterOps l (uprog s.cfg op) := by
    rcases hat with hw | hu
    · exact uprog_cs_at_wait hl hw
    · rw [hu, List.take_length]
  refine (machineInv_idle (by rw [hseq]; rfl)).mpr ⟨hseq, hsame.dbgRest.trans hr, ?_, ?_, ?_, ?_⟩
  · rw [hcs, hline, hleft, hend, hq.chipSelectLeft_eq]
  · rw [hrst, h.resetN, uprog_reset hat]
  · rw [hsame.mode, hm, hq.lastCommanded_eq]
  · rw [hsame.mode]; exact hsame.debugShows hq.cfg hd

/-- The entry at `UPC` keeps the invariant, whether it is done, stays, or ends in the fault of a wait. -/
theorem microStep_keeps_machineInv {s t : State} {op : Instr} {m : MicroOp} (ho : s.seq.opl = some op)
    (hat : (uprog s.cfg op)[s.seq.upc]? = some m) (h : microStep m s = .next t) (hp : ProgramAgrees s op)
    (hmode : modeInFlight s op) : MachineInv t := by
  have hq := microStep_noRequest h
  have hnotPolling : m ≠ .wait → s.seq.pollCnt = 0 := by
    intro hne
    by_contra hc
    exact hne (Option.some.inj (hat.symm.trans (hp.polling hc)))
  have hrx : ∀ k, m = .rx k → k = s.out.length := by
    rintro k rfl
    rw [hp.out, uprog_at_rx hat]
  cases microStep_effect h hrx with
  | advanced hopl hupc hpoll hcs hrst hout =>
    refine (machineInv_inFlight (hopl.trans ho)).mpr ⟨?_, microStep_keeps_modeInFlight hat h hmode⟩
    have hpoll : t.seq.pollCnt = 0 := by
      rcases hpoll with h0 | ⟨hne, e⟩
      · exact h0
      · rw [e, hnotPolling hne]
    exact hp.of_advanced hat hq hupc hpoll hcs hrst hout
  | stayed hopl hupc hpoll hcs hrst hout =>
    refine (machineInv_inFlight (hopl.trans ho)).mpr ⟨?_, microStep_keeps_modeInFlight hat h hmode⟩
    have hpoll : t.seq.pollCnt ≠ 0 → (uprog s.cfg op)[s.seq.upc]? = some .wait := by
      rcases hpoll with rfl | e
      · exact fun _ => hat
      · rw [e]; exact hp.polling
    exact hp.of_stayed hq hupc hpoll hcs hrst hout
  | gaveUp hw hseq hcs hrst =>
    subst hw
    have hsame := microStep_sameMode h fun _ => ⟨nofun, nofun⟩
    exact machineInv_of_response hp hmode (.inl hat) hq hseq hsame hcs hrst

/-- Every step of a meaning keeps the invariant in flight. -/
theorem exec_inFlight_keeps_machineInv {s t : State} {op : Instr} (ho : s.seq.opl = some op)
    (h : exec op s = .next t) (hinv : MachineInv s) : MachineInv t := by
  obtain ⟨hp, hmode⟩ := (machineInv_inFlight ho).mp hinv
  rcases exec_next_cases h with ⟨hn, _⟩ | ⟨hn, _⟩ | ⟨m, ⟨_, hat⟩, hm⟩ | ⟨_, hu, rfl⟩
  · rw [ho] at hn; cases hn
  · rw [ho] at hn; cases hn
  · exact microStep_keeps_machineInv ho hat hm hp hmode
  · have hr := finish_responded (operation s.cfg op).reply s
    exact machineInv_of_response hp hmode (.inr hu) hr.noRequest hr.seq hr.sameMode hr.csN hr.resetN

/-- The first step of a meaning, taken by an idle controller, establishes the invariant of what it leaves. -/
theorem exec_idle_keeps_machineInv {s t : State} {i : Instr} (ho : s.seq.opl = none) (h : exec i s = .next t)
    (hidle : IdleAgrees s) : MachineInv t := by
  rcases exec_next_cases h with ⟨_, hs, hf, rfl⟩ | ⟨_, _, _, len, capacity, hlen, _, _, rfl⟩ | ⟨m, ⟨hn, _⟩, _⟩ | ⟨hn, _⟩
  · exact latch_machineInv hidle hs hf
  · exact latch_raise_machineInv hidle hlen _
  · rw [ho] at hn; cases hn
  · rw [ho] at hn; cases hn

/-- Settles O3: in flight by the entry or the response, idle by acceptance behind the grant, and the stutter. -/
theorem stepKeepsSequencerAndLines : Obligations.StepKeepsSequencerAndLines := by
  intro s t hinv h
  rcases step_next_cases h with ⟨op, ho, he⟩ | ⟨_, _, rfl⟩ | ⟨ho, r, g, i, hg, _, he⟩
  · exact exec_inFlight_keeps_machineInv ho he hinv
  · exact hinv
  · have hgo : g.seq.opl = none := by
      obtain ⟨q, _, rest, env, _, rfl, _⟩ := grantNext_some hg
      exact ho
    obtain ⟨_, hidle⟩ := (machineInv_idle ho).mp hinv
    exact exec_idle_keeps_machineInv hgo he (grantNext_keeps_idleAgrees hg hidle)

end Sys2Proof.Machine
end

section
/-! PROOFS. Where a step cannot stop, and the loading of a request. -/

namespace Sys2Proof.Machine

/-- Both faults of the machine are of an operation in flight: acceptance raises neither (log 10). -/
theorem exec_fault_inFlight {i : Instr} {s : State} {f : Fault} (h : exec i s = .fault f) :
    s.seq.opl = some i.core := by
  rcases exec_fault_cases h with ⟨_, ⟨ho, _⟩, _⟩ | ⟨ho, _⟩
  · exact ho
  · exact ho

/-- A step stops with a fault of the machine only by the operation in flight. -/
theorem step_fault_inFlight {s : State} {f : Fault} (h : step s = .fault f) :
    ∃ op, s.seq.opl = some op ∧ exec op s = .fault f := by
  rcases ho : s.seq.opl with _ | op
  · rcases hg : s.grantNext with _ | ⟨r, g⟩
    · rw [step_noRequest ho hg] at h
      cases h
    · rcases hd : decode r with why | i
      · simp [step, ho, hg, hd] at h
      · rw [step_request ho hg hd] at h
        have hgo : g.seq.opl = none := by
          obtain ⟨q, _, rest, env, _, rfl, _⟩ := grantNext_some hg
          exact ho
        have hsome := exec_fault_inFlight h
        rw [hgo] at hsome
        cases hsome
  · exact ⟨op, rfl, by rw [← step_inFlight ho, h]⟩

/-- Where the invariant holds in flight, chip-select is low at every exchange (70_reset_and_hazards R225). -/
theorem ProgramAgrees.csN_low_at_xfer {s : State} {op : Instr} {m : MicroOp} (h : ProgramAgrees s op)
    (hat : (uprog s.cfg op)[s.seq.upc]? = some m) (hx : m.isXfer = true) : s.csN = .low := by
  obtain ⟨l, _, hline, _⟩ := h.csN
  rw [hline, uprog_at_xfer hat hx l]

/-- Settles O6: only an operation in flight could fault, its exchanges find chip-select low, and `UPC` is within its
micro-program. -/
theorem stepFromInvariantNeverFaults : Obligations.StepFromInvariantNeverFaults := by
  intro s hinv f h
  obtain ⟨op, ho, he⟩ := step_fault_inFlight h
  obtain ⟨hp, _⟩ := (machineInv_inFlight ho).mp hinv
  rcases exec_fault_cases he with ⟨m, ⟨_, hat⟩, hx, hhigh⟩ | ⟨_, hpast⟩
  · rw [hp.csN_low_at_xfer hat hx] at hhigh
    cases hhigh
  · have := hp.upc_le
    omega

/-- The table decoder reads a word as the decoder reads the word's own request. -/
theorem decode_of_decodeTableWord {nbits w : Nat} {i : Instr} (h : decodeTableWord nbits w = some i) :
    decode (tableRequest w) = .ok i := by
  unfold decodeTableWord at h
  split at h
  · split at h
    · cases h; assumption
    · cases h
  · cases h

/-- Settles O9: the presented request is the head of the one queue, so it is granted, and decodes to `i`. -/
theorem fetchedWordIsTheNextOperation : Obligations.FetchedWordIsTheNextOperation := by
  intro s w i hn hd
  have hgrant := grantNext_of_one (s := s.withFetchWord 40 w) hn rfl
  exact step_request rfl hgrant (decode_of_decodeTableWord hd)

end Sys2Proof.Machine
end

section
/-! PROOFS. The round trips of 20_memory R67 beside the simulated device of 95_test_vectors Part 2: ranges of a space
that wraps, what a frame does to the device, and two primitives one after the other. -/

namespace Sys2Proof.Machine

/-! ### Ranges of a space whose addresses wrap -/

namespace Memory

/-- Consecutive bytes written from an address, the addresses taken modulo the size of the space (D26). -/
def writeFrom (size : Nat) (m : Memory) (start : Nat) : List Byte → Memory
  | [] => m
  | b :: bs => writeFrom size (write m (start % size) b) (start + 1) bs

/-- Consecutive bytes read from an address, the addresses taken modulo the size of the space (D26). -/
def readFrom (size : Nat) (m : Memory) (start : Nat) : Nat → List Byte
  | 0 => []
  | n + 1 => read m (start % size) :: readFrom size m (start + 1) n

/-- A write of a range leaves every byte outside it. -/
theorem read_writeFrom_of_outside {size a : Nat} {bs : List Byte} {m : Memory} {start : Nat} (h : wf m = true)
    (ha : ∀ j < bs.length, (start + j) % size ≠ a) : read (writeFrom size m start bs) a = read m a := by
  induction bs generalizing m start with
  | nil => rfl
  | cons b bs ih =>
    have hhead : start % size ≠ a := ha 0 (by simp)
    have htail : ∀ j < bs.length, (start + 1 + j) % size ≠ a := fun j hj => by
      rw [Nat.add_right_comm, Nat.add_assoc]
      exact ha (j + 1) (by simpa using hj)
    rw [writeFrom, ih (wf_write h _ _) htail, read_write h, if_neg hhead]

/-- The addresses of a range no longer than the space are distinct. -/
theorem add_succ_mod_ne {size start j : Nat} (h : j + 1 < size) : (start + 1 + j) % size ≠ start % size := by
  intro e
  have hdvd : size ∣ start + 1 + j - start := (Nat.modEq_iff_dvd' (by omega)).mp e.symm
  have := Nat.le_of_dvd (by omega) hdvd
  omega

/-- A range no longer than the space reads back as it was written. -/
theorem readFrom_writeFrom {size : Nat} {bs : List Byte} {m : Memory} {start : Nat} (h : wf m = true)
    (hlen : bs.length ≤ size) : readFrom size (writeFrom size m start bs) start bs.length = bs := by
  induction bs generalizing m start with
  | nil => rfl
  | cons b bs ih =>
    rw [List.length_cons] at hlen
    have hwf := wf_write h (start % size) b
    have hhead : read (writeFrom size (write m (start % size) b) (start + 1) bs) (start % size) = b := by
      rw [read_writeFrom_of_outside hwf fun j hj => add_succ_mod_ne (by omega), read_write h, if_pos rfl]
    rw [List.length_cons, readFrom, writeFrom, hhead, ih hwf (by omega)]

end Memory

/-! ### The device inside a frame -/

namespace SimDevice

/-- With distinct opcodes (00_scope R7) no command's opcode is one that `xferInFrame` tests before it. -/
theorem opcodes_ne {cfg : Config} (h : tellsApart cfg = true) :
    cfg.opcReadRegister ≠ cfg.opcWriteRegister ∧
      (cfg.opcWriteBuffer ≠ cfg.opcWriteRegister ∧ cfg.opcWriteBuffer ≠ cfg.opcReadRegister) ∧
      cfg.opcReadBuffer ≠ cfg.opcWriteRegister ∧ cfg.opcReadBuffer ≠ cfg.opcReadRegister ∧
      cfg.opcReadBuffer ≠ cfg.opcWriteBuffer := by
  simp only [tellsApart, decide_eq_true_eq, List.nodup_cons, List.mem_cons, not_or] at h
  obtain ⟨⟨hwr, hwb, hrb, _⟩, ⟨hwb', hrb', _⟩, ⟨hrb'', _⟩, _⟩ := h
  exact ⟨Ne.symm hwr, ⟨Ne.symm hwb, Ne.symm hwb'⟩, Ne.symm hrb, Ne.symm hrb', Ne.symm hrb''⟩

/-! The opcode of the frame chooses the command. -/

theorem xferInFrame_writeRegister {cfg : Config} {d : SimDevice} (hc : d.cmd = cfg.opcWriteRegister) (b : Byte) :
    d.xferInFrame cfg b = (d.st, d.writeRegister b) := by
  simp [xferInFrame, hc]

theorem xferInFrame_readRegister {cfg : Config} {d : SimDevice} (ht : tellsApart cfg = true)
    (hc : d.cmd = cfg.opcReadRegister) (b : Byte) : d.xferInFrame cfg b = d.readRegister b := by
  obtain ⟨h1, _⟩ := opcodes_ne ht
  simp [xferInFrame, hc, h1]

theorem xferInFrame_writeBuffer {cfg : Config} {d : SimDevice} (ht : tellsApart cfg = true)
    (hc : d.cmd = cfg.opcWriteBuffer) (b : Byte) : d.xferInFrame cfg b = (d.st, d.writeBuffer b) := by
  obtain ⟨_, ⟨h1, h2⟩, _⟩ := opcodes_ne ht
  simp [xferInFrame, hc, h1, h2]

theorem xferInFrame_readBuffer {cfg : Config} {d : SimDevice} (ht : tellsApart cfg = true)
    (hc : d.cmd = cfg.opcReadBuffer) (b : Byte) : d.xferInFrame cfg b = d.readBuffer b := by
  obtain ⟨_, _, h1, h2, h3⟩ := opcodes_ne ht
  simp [xferInFrame, hc, h1, h2, h3]

/-! ### Data positions -/

/-- The device is past the `header` bytes of a command's frame, and its next byte is for address `p`, before
wrapping. -/
structure DataPhase (command : Byte) (header p : Nat) (d : SimDevice) : Prop where
  cmd : d.cmd = command
  header_le : header ≤ d.k
  address : d.a.toNat + d.k = p + header

/-- One more exchange past the header is one address further. -/
theorem DataPhase.next {command : Byte} {header p : Nat} {d d' : SimDevice} (h : DataPhase command header p d)
    (hcmd : d'.cmd = d.cmd) (ha : d'.a = d.a) (hk : d'.k = d.k + 1) : DataPhase command header (p + 1) d' := by
  obtain ⟨hc, hle, hp⟩ := h
  exact ⟨hcmd.trans hc, by omega, by rw [ha]; omega⟩

/-- Past the header an exchange is the command's. -/
theorem DataPhase.xfer_eq {command : Byte} {header p : Nat} {d : SimDevice} (h : DataPhase command (header + 1) p d)
    (cfg : Config) (b : Byte) :
    d.xfer cfg b = ((d.xferInFrame cfg b).1, { (d.xferInFrame cfg b).2 with k := d.k + 1 }) := by
  have hk : d.k ≠ 0 := Nat.ne_of_gt (Nat.lt_of_lt_of_le (Nat.succ_pos header) h.header_le)
  rw [xfer, if_neg hk]

/-! One data byte of each command (95_test_vectors Part 2). -/

theorem writeRegister_data {d : SimDevice} (h : 3 ≤ d.k) (b : Byte) : d.writeRegister b =
    { d with reg := Memory.write d.reg ((d.a.toNat + d.k - 3) % 65536) b } := by
  unfold writeRegister
  split
  · omega
  · omega
  · rfl

theorem readRegister_data {d : SimDevice} (h : 4 ≤ d.k) (b : Byte) :
    d.readRegister b = (Memory.read d.reg ((d.a.toNat + d.k - 4) % 65536), d) := by
  unfold readRegister
  split
  · omega
  · omega
  · omega
  · rfl

theorem writeBuffer_data {d : SimDevice} (h : 2 ≤ d.k) (b : Byte) : d.writeBuffer b =
    { d with buf := Memory.write d.buf ((d.a.toNat + d.k - 2) % 256) b } := by
  unfold writeBuffer
  split
  · omega
  · rfl

theorem readBuffer_data {d : SimDevice} (h : 3 ≤ d.k) (b : Byte) :
    d.readBuffer b = (Memory.read d.buf ((d.a.toNat + d.k - 3) % 256), d) := by
  unfold readBuffer
  split
  · omega
  · omega
  · rfl

theorem xfer_writeRegister_data {cfg : Config} {d : SimDevice} {p : Nat} (h : DataPhase cfg.opcWriteRegister 3 p d)
    (b : Byte) : (d.xfer cfg b).2.reg = Memory.write d.reg (p % 65536) b ∧
      DataPhase cfg.opcWriteRegister 3 (p + 1) (d.xfer cfg b).2 := by
  rw [h.xfer_eq, xferInFrame_writeRegister h.cmd, writeRegister_data h.header_le, h.address]
  exact ⟨rfl, h.next rfl rfl rfl⟩

theorem xfer_readRegister_data {cfg : Config} (ht : tellsApart cfg = true) {d : SimDevice} {p : Nat}
    (h : DataPhase cfg.opcReadRegister 4 p d) (b : Byte) : (d.xfer cfg b).1 = Memory.read d.reg (p % 65536) ∧
      (d.xfer cfg b).2.reg = d.reg ∧ DataPhase cfg.opcReadRegister 4 (p + 1) (d.xfer cfg b).2 := by
  rw [h.xfer_eq, xferInFrame_readRegister ht h.cmd, readRegister_data h.header_le, h.address]
  exact ⟨rfl, rfl, h.next rfl rfl rfl⟩

theorem xfer_writeBuffer_data {cfg : Config} (ht : tellsApart cfg = true) {d : SimDevice} {p : Nat}
    (h : DataPhase cfg.opcWriteBuffer 2 p d) (b : Byte) : (d.xfer cfg b).2.buf = Memory.write d.buf (p % 256) b ∧
      DataPhase cfg.opcWriteBuffer 2 (p + 1) (d.xfer cfg b).2 := by
  rw [h.xfer_eq, xferInFrame_writeBuffer ht h.cmd, writeBuffer_data h.header_le, h.address]
  exact ⟨rfl, h.next rfl rfl rfl⟩

theorem xfer_readBuffer_data {cfg : Config} (ht : tellsApart cfg = true) {d : SimDevice} {p : Nat}
    (h : DataPhase cfg.opcReadBuffer 3 p d) (b : Byte) : (d.xfer cfg b).1 = Memory.read d.buf (p % 256) ∧
      (d.xfer cfg b).2.buf = d.buf ∧ DataPhase cfg.opcReadBuffer 3 (p + 1) (d.xfer cfg b).2 := by
  rw [h.xfer_eq, xferInFrame_readBuffer ht h.cmd, readBuffer_data h.header_le, h.address]
  exact ⟨rfl, rfl, h.next rfl rfl rfl⟩

/-- Where each data byte of a command is written to one space, the bytes of a frame are written as a range. -/
theorem xfers_writeFrom {cfg : Config} {command : Byte} {header size : Nat} (space : SimDevice → Memory)
    (hstep : ∀ {d p}, DataPhase command header p d → ∀ b,
      space (d.xfer cfg b).2 = Memory.write (space d) (p % size) b ∧
        DataPhase command header (p + 1) (d.xfer cfg b).2)
    (bs : List Byte) {d : SimDevice} {p : Nat} (h : DataPhase command header p d) :
    space (d.xfers cfg bs).2 = Memory.writeFrom size (space d) p bs := by
  induction bs generalizing d p with
  | nil => rfl
  | cons b bs ih =>
    obtain ⟨hspace, hnext⟩ := hstep h b
    rw [Memory.writeFrom, ← hspace]
    exact ih hnext

/-- Where each data byte of a command is read from one space, the bytes of a frame are read as a range. -/
theorem xfers_readFrom {cfg : Config} {command : Byte} {header size : Nat} (space : SimDevice → Memory)
    (hstep : ∀ {d p}, DataPhase command header p d → ∀ b, (d.xfer cfg b).1 = Memory.read (space d) (p % size) ∧
      space (d.xfer cfg b).2 = space d ∧ DataPhase command header (p + 1) (d.xfer cfg b).2)
    (bs : List Byte) {d : SimDevice} {p : Nat} (h : DataPhase command header p d) :
    (d.xfers cfg bs).1 = Memory.readFrom size (space d) p bs.length := by
  induction bs generalizing d p with
  | nil => rfl
  | cons b bs ih =>
    obtain ⟨hbyte, hspace, hnext⟩ := hstep h b
    rw [List.length_cons, Memory.readFrom, ← hbyte, ← hspace, ← ih hnext]
    rfl

/-! ### Whole frames -/

/-- The frame of a primitive beside the device: selecting it puts its position at 0. -/
def frame (cfg : Config) (d : SimDevice) (i : Instr) : List Byte × SimDevice :=
  ({ d with k := 0 } : SimDevice).xfers cfg (sentBytes cfg i)

/-- The two address bytes set the whole address (30_encoding R87(a)). -/
theorem setLow_setHigh (a addr : BitVec 16) :
    setLow (setHigh a (addr.extractLsb' 8 8)) (addr.extractLsb' 0 8) = addr := by
  have hhigh : (setHigh a (addr.extractLsb' 8 8)).extractLsb' 8 8 = addr.extractLsb' 8 8 := by
    have e := extract_append_high (addr.extractLsb' 8 8) (a.extractLsb' 0 8) 0 8
    rw [BitVec.extractLsb'_eq_self] at e
    exact e
  rw [setLow, hhigh]
  exact (BitVec.extractLsb'_append_extractLsb'_eq_extractLsb' rfl).trans BitVec.extractLsb'_eq_self

theorem frame_writeRegs_reg (cfg : Config) (d : SimDevice) (addr : BitVec 16) (payload : List Byte) (len : Nat) :
    (d.frame cfg (.writeRegs addr payload len)).2.reg =
      Memory.writeFrom 65536 d.reg addr.toNat (payload.take len) := by
  have hheader : (d.frame cfg (.writeRegs addr payload len)).2 =
      (({ d with cmd := cfg.opcWriteRegister, a := addr, k := 3 } : SimDevice).xfers cfg (payload.take len)).2 := by
    simp [frame, sentBytes, xfers, xfer, xferInFrame_writeRegister, writeRegister, setLow_setHigh]
  rw [hheader]
  exact xfers_writeFrom reg xfer_writeRegister_data _ ⟨rfl, le_rfl, rfl⟩

theorem frame_readRegs_data {cfg : Config} (ht : tellsApart cfg = true) (d : SimDevice) (addr : BitVec 16)
    (len cap : Nat) : (d.frame cfg (.readRegs addr len cap)).1.drop 4 =
      Memory.readFrom 65536 d.reg addr.toNat len := by
  have hheader : (d.frame cfg (.readRegs addr len cap)).1.drop 4 =
      (({ d with cmd := cfg.opcReadRegister, a := addr, k := 4 } : SimDevice).xfers cfg
        (List.replicate len cfg.nopByte)).1 := by
    simp [frame, sentBytes, xfers, xfer, xferInFrame_readRegister ht, readRegister, setLow_setHigh]
  have hdata := xfers_readFrom reg (xfer_readRegister_data ht) (List.replicate len cfg.nopByte)
    (d := { d with cmd := cfg.opcReadRegister, a := addr, k := 4 }) ⟨rfl, le_rfl, rfl⟩
  rw [hheader, hdata, List.length_replicate]

theorem frame_writeBuf_buf {cfg : Config} (ht : tellsApart cfg = true) (d : SimDevice) (off : Byte)
    (payload : List Byte) (len : Nat) : (d.frame cfg (.writeBuf off payload len)).2.buf =
      Memory.writeFrom 256 d.buf (off.zeroExtend 16).toNat (payload.take len) := by
  have hheader : (d.frame cfg (.writeBuf off payload len)).2 =
      (({ d with cmd := cfg.opcWriteBuffer, a := off.zeroExtend 16, k := 2 } : SimDevice).xfers cfg
        (payload.take len)).2 := by
    simp [frame, sentBytes, xfers, xfer, xferInFrame_writeBuffer ht, writeBuffer]
  rw [hheader]
  exact xfers_writeFrom buf (xfer_writeBuffer_data ht) _ ⟨rfl, le_rfl, rfl⟩

theorem frame_readBuf_data {cfg : Config} (ht : tellsApart cfg = true) (d : SimDevice) (off : Byte)
    (len cap : Nat) : (d.frame cfg (.readBuf off len cap)).1.drop 3 =
      Memory.readFrom 256 d.buf (off.zeroExtend 16).toNat len := by
  have hheader : (d.frame cfg (.readBuf off len cap)).1.drop 3 =
      (({ d with cmd := cfg.opcReadBuffer, a := off.zeroExtend 16, k := 3 } : SimDevice).xfers cfg
        (List.replicate len cfg.nopByte)).1 := by
    simp [frame, sentBytes, xfers, xfer, xferInFrame_readBuffer ht, readBuffer]
  have hdata := xfers_readFrom buf (xfer_readBuffer_data ht) (List.replicate len cfg.nopByte)
    (d := { d with cmd := cfg.opcReadBuffer, a := off.zeroExtend 16, k := 3 }) ⟨rfl, le_rfl, rfl⟩
  rw [hheader, hdata, List.length_replicate]

end SimDevice

/-! ### Two primitives one after the other -/

theorem lengthFits_of_le {cfg : Config} {i : Instr} {len capacity : Nat}
    (h : lengthAndCapacity i = some (len, capacity)) (hmax : len ≤ cfg.lenMax) (hcap : len ≤ capacity) :
    lengthFits cfg i := by
  intro l c hlc
  rw [h] at hlc
  cases hlc
  exact ⟨hmax, hcap⟩

/-- The second of two primitives finds the controller idle and the device as the first one's frame left it. -/
theorem sim_twoPrimitives {i j : Instr} (hpi : isPrimitive i = true) (hpj : isPrimitive j = true) {s : State}
    {d : SimDevice} (hi : s.IsIdle) (hc : s.csN = .high) (hli : lengthFits s.cfg i) (hlj : lengthFits s.cfg j)
    (hq : d.quiet) : ∃ s1 d1 s2 d2, simRun (frameLength i + 10) i (s, d) = some (s1, d1) ∧
      simRun (frameLength j + 10) j (s1, d1) = some (s2, d2) ∧
      s1.trace.getLast? = some (.resp (returned i (d.frame s.cfg i).1)) ∧
      s2.trace.getLast? = some (.resp (returned j ((d.frame s.cfg i).2.frame s.cfg j).1)) := by
  obtain ⟨s1, e1, hi1, hc1, hcfg, htr1, hq1⟩ := sim_primitive hpi hi hc hli hq
  obtain ⟨s2, e2, _, _, _, htr2, _⟩ := sim_primitive hpj hi1 hc1 (hcfg.symm ▸ hlj) hq1
  rw [hcfg] at htr2
  exact ⟨s1, _, s2, _, e1, e2, htr1, htr2⟩

/-- Settles O50: the read's frame reads the one-byte range the write's frame wrote; the wrappers send what the ranged
primitives send. -/
theorem registerRoundTripOnTheSimulatedDevice : Obligations.RegisterRoundTripOnTheSimulatedDevice := by
  intro s d addr v hi hc hmax ht hwf hscript hstuck
  obtain ⟨s1, d1, s2, d2, e1, e2, htr1, htr2⟩ := sim_twoPrimitives (i := .writeReg addr v) (j := .readReg addr)
    rfl rfl hi hc (lengthFits_of_le rfl hmax le_rfl) (lengthFits_of_le rfl hmax le_rfl) ⟨hscript, hstuck⟩
  refine ⟨s1, d1, s2, d2, e1, e2, htr1, htr2.trans ?_⟩
  have hdata : ((d.frame s.cfg (.writeRegs addr [v] 1)).2.frame s.cfg (.readRegs addr 1 1)).1.drop 4 = [v] := by
    rw [SimDevice.frame_readRegs_data ht, SimDevice.frame_writeRegs_reg]
    exact Memory.readFrom_writeFrom (bs := [v]) hwf (by simp)
  exact congrArg (fun data => some (Event.resp (.done 0 data))) hdata

/-- Settles O51: the read's frame reads the range of four the write's frame wrote, wrapping where it wraps. -/
theorem bufferRoundTripOnTheSimulatedDevice : Obligations.BufferRoundTripOnTheSimulatedDevice := by
  intro s d off b0 b1 b2 b3 hi hc hmax ht hwf hscript hstuck
  obtain ⟨s1, d1, s2, d2, e1, e2, htr1, htr2⟩ := sim_twoPrimitives (i := .writeBuf off [b0, b1, b2, b3] 4)
    (j := .readBuf off 4 4) rfl rfl hi hc (lengthFits_of_le rfl hmax le_rfl) (lengthFits_of_le rfl hmax le_rfl)
    ⟨hscript, hstuck⟩
  refine ⟨s1, d1, s2, d2, e1, e2, htr1, htr2.trans ?_⟩
  have hdata : ((d.frame s.cfg (.writeBuf off [b0, b1, b2, b3] 4)).2.frame s.cfg (.readBuf off 4 4)).1.drop 3 =
      [b0, b1, b2, b3] := by
    rw [SimDevice.frame_readBuf_data ht, SimDevice.frame_writeBuf_buf ht]
    exact Memory.readFrom_writeFrom (bs := [b0, b1, b2, b3]) hwf (by simp)
  exact congrArg (fun data => some (Event.resp (.done 0 data))) hdata

end Sys2Proof.Machine
end

section
/-! PROOFS. The decoder, the encoder and the opcode table (30_encoding R81 to R83, R90, R93): when each part of the
decoder accepts, decode of encode, encode of decode, and belonging to a row. -/

namespace Sys2Proof

/-! ### When each part of the decoder accepts -/

theorem decodeBare_eq_ok {w : BitVec 40} {i j : Instr} :
    decodeBare w i = .ok j ↔ argField w = 0 ∧ lenField w = 0 ∧ i = j := by
  unfold decodeBare
  split_ifs <;> simp_all

theorem decodeByteArg_eq_ok {w : BitVec 40} {i j : Instr} : decodeByteArg w i = .ok j ↔ argHigh w = 0 ∧ i = j := by
  unfold decodeByteArg
  split_ifs <;> simp_all

theorem decodeSetMode_eq_ok {w : BitVec 40} {j : Instr} : decodeSetMode w = .ok j ↔
    argAboveMode w = 0 ∧ lenField w = 0 ∧ .setMode (OperatingMode.ofBits (argMode w)) = j := by
  unfold decodeSetMode
  split_ifs <;> simp_all

/-- `OP = 0x12` is read as `WRITE_REG` when one byte of payload stands for `LEN = 1`, else as `WRITE_REGS`. -/
theorem spellWrite_cases (addr : BitVec 16) (payload : List Byte) (len : Nat) :
    (∃ v, len = 1 ∧ payload = [v] ∧ spellWrite addr payload len = .writeReg addr v) ∨
      spellWrite addr payload len = .writeRegs addr payload len := by
  unfold spellWrite
  split_ifs with hlen
  · split
    · exact .inl ⟨_, hlen, rfl, rfl⟩
    · exact .inr rfl
  · exact .inr rfl

/-- `OP = 0x13` is read as `READ_REG` when length and capacity are 1, else as `READ_REGS`. -/
theorem spellRead_cases (addr : BitVec 16) (len cap : Nat) :
    (len = 1 ∧ cap = 1 ∧ spellRead addr len cap = .readReg addr) ∨
      spellRead addr len cap = .readRegs addr len cap := by
  unfold spellRead
  split_ifs with h
  · exact .inl ⟨h.1, h.2, rfl⟩
  · exact .inr rfl

/-! ### Decode of encode -/

/-- The two spellings of 30_encoding R93 are one core operation. -/
theorem respell_core (i : Instr) : i.respell.core = i.core := by
  cases i with
  | writeRegs addr payload len =>
    change (spellWrite addr payload len).core = _
    rcases spellWrite_cases addr payload len with ⟨v, rfl, rfl, e⟩ | e <;> simp only [e, Instr.core]
  | readRegs addr len cap =>
    change (spellRead addr len cap).core = _
    rcases spellRead_cases addr len cap with ⟨rfl, rfl, e⟩ | e <;> simp only [e, Instr.core]
  | _ => rfl

/-- A count of bytes that fits `LEN` is read back from it. -/
theorem toNat_ofNat_len {len : Nat} (h : len ≤ maxWordLen) : (BitVec.ofNat 16 len).toNat = len :=
  Nat.mod_eq_of_lt (Nat.lt_succ_of_le h)

@[simp] theorem argHigh_byteArg (op : BitVec 8) (b : Byte) (len : BitVec 16) :
    argHigh (mkWord op (byteArg b) len) = 0 := by
  simp [argHigh]

@[simp] theorem argLow_byteArg (op : BitVec 8) (b : Byte) (len : BitVec 16) :
    argLow (mkWord op (byteArg b) len) = b := by
  simp [argLow]

@[simp] theorem argAboveMode_modeArg (op : BitVec 8) (m : OperatingMode) (len : BitVec 16) :
    argAboveMode (mkWord op (modeArg m) len) = 0 := by
  simp [argAboveMode]

@[simp] theorem argMode_modeArg (op : BitVec 8) (m : OperatingMode) (len : BitVec 16) :
    argMode (mkWord op (modeArg m) len) = m.toBits := by
  simp [argMode]

/-- Every operation is decoded from its own request, in the decoder's spelling. -/
theorem decode_encode {i : Instr} (h : i.wellFormed = true) : decode (encode i) = .ok i.respell := by
  cases i with
  | select | deselect | waitReady | getMode | resetDevice | initOscCtrl | getOscWakeupMs =>
    simp [decode, encode, Instr.selector, Instr.respell, decodeBare_eq_ok]
  | issueCmd _ _ len | readCmd _ len _ | writeBuf _ _ len | readBuf _ len _ =>
    have hlen := toNat_ofNat_len (of_decide_eq_true h)
    simp [decode, encode, Instr.selector, Instr.respell, decodeByteArg_eq_ok, hlen, -BitVec.toNat_ofNat]
  | writeRegs _ _ len | readRegs _ len _ =>
    have hlen := toNat_ofNat_len (of_decide_eq_true h)
    simp [decode, encode, Instr.selector, Instr.respell, hlen, -BitVec.toNat_ofNat]
  | setMode mode =>
    simp [decode, encode, Instr.selector, Instr.respell, decodeSetMode_eq_ok]
  | writeReg | readReg =>
    simp [decode, encode, Instr.selector, Instr.respell, spellWrite, spellRead]

/-- Settles O46: operation by operation the decoder finds the fields the encoder wrote, and respelling keeps the core
operation. -/
theorem decodeOfEncodeIsTheOperation : Obligations.DecodeOfEncodeIsTheOperation :=
  fun i h => ⟨decode_encode h, respell_core i⟩

/-! ### Encode of decode -/

/-- The request names the operation: its word is the operation's, and so are the payload and the capacity the operation
looks at (30_encoding R81, R83). -/
structure Names (r : Request) (i : Instr) : Prop where
  word : (encode i).word = r.word
  wellFormed : i.wellFormed = true
  payload : ∀ payload, Machine.payloadOf i = some payload → payload = r.payload
  capacity : ∀ cap, Machine.capacityOf i = some cap → cap = r.cap

theorem encode_payload {i : Instr} {payload : List Byte} (h : Machine.payloadOf i = some payload) :
    (encode i).payload = payload := by
  cases i <;> cases h <;> rfl

theorem encode_cap {i : Instr} {cap : Nat} (h : Machine.capacityOf i = some cap) : (encode i).cap = cap := by
  cases i <;> cases h <;> rfl

theorem mkWord_of_fields {w : BitVec 40} {op arg len} (hop : opField w = op) (harg : argField w = arg)
    (hlen : lenField w = len) : mkWord op arg len = w := by
  rw [← hop, ← harg, ← hlen, mkWord_fields]

theorem lenField_toNat_le (w : BitVec 40) : (lenField w).toNat ≤ maxWordLen := Nat.le_of_lt_succ (lenField w).isLt

/-- The count read from a word's `LEN` is written back as that `LEN`. -/
theorem lenField_eq_ofNat (w : BitVec 40) : lenField w = BitVec.ofNat 16 (lenField w).toNat := by simp

/-- An operation whose `ARG` and `LEN` are must-be-zero: the word is its selector. -/
theorem names_of_decodeBare {r : Request} {i j : Instr} (h : decodeBare r.word i = .ok j)
    (hop : opField r.word = i.selector) (hword : encode i = ⟨mkWord i.selector 0 0, [], 0⟩) (hwf : i.wellFormed = true)
    (hpayload : Machine.payloadOf i = none) (hcap : Machine.capacityOf i = none) : Names r j := by
  obtain ⟨harg, hlen, rfl⟩ := decodeBare_eq_ok.mp h
  refine ⟨?_, hwf, by simp [hpayload], by simp [hcap]⟩
  rw [hword]
  exact mkWord_of_fields hop harg hlen

/-- An operation with a byte in `ARG[7:0]` and a count in `LEN`: both are read and the must-be-zero byte is zero. -/
theorem names_of_decodeByteArg {r : Request} {i j : Instr} (h : decodeByteArg r.word i = .ok j)
    (hop : opField r.word = i.selector)
    (hword : (encode i).word = mkWord i.selector (byteArg (argLow r.word)) (BitVec.ofNat 16 (lenField r.word).toNat))
    (hwf : i.wellFormed = true) (hpayload : ∀ payload, Machine.payloadOf i = some payload → payload = r.payload)
    (hcap : ∀ cap, Machine.capacityOf i = some cap → cap = r.cap) : Names r j := by
  obtain ⟨harg, rfl⟩ := decodeByteArg_eq_ok.mp h
  refine ⟨?_, hwf, hpayload, hcap⟩
  rw [hword]
  exact mkWord_of_fields hop (byteArg_of_high harg).symm (lenField_eq_ofNat _)

theorem names_of_decodeSetMode {r : Request} {j : Instr} (hop : opField r.word = 0x20)
    (h : decodeSetMode r.word = .ok j) : Names r j := by
  obtain ⟨harg, hlen, rfl⟩ := decodeSetMode_eq_ok.mp h
  exact ⟨mkWord_of_fields hop (modeArg_of_high harg).symm hlen, rfl, nofun, nofun⟩

theorem names_spellWrite {r : Request} (hop : opField r.word = 0x12) :
    Names r (spellWrite (argField r.word) r.payload (lenField r.word).toNat) := by
  rcases spellWrite_cases (argField r.word) r.payload (lenField r.word).toNat with ⟨v, hlen, hp, e⟩ | e <;> rw [e]
  · exact ⟨mkWord_of_fields hop rfl (BitVec.eq_of_toNat_eq hlen), rfl, fun _ h => by cases h; exact hp.symm, nofun⟩
  · exact ⟨mkWord_of_fields hop rfl (lenField_eq_ofNat _), decide_eq_true (lenField_toNat_le _),
      fun _ h => by cases h; rfl, nofun⟩

theorem names_spellRead {r : Request} (hop : opField r.word = 0x13) :
    Names r (spellRead (argField r.word) (lenField r.word).toNat r.cap) := by
  rcases spellRead_cases (argField r.word) (lenField r.word).toNat r.cap with ⟨hlen, hc, e⟩ | e <;> rw [e]
  · exact ⟨mkWord_of_fields hop rfl (BitVec.eq_of_toNat_eq hlen), rfl, nofun, fun _ h => by cases h; exact hc.symm⟩
  · exact ⟨mkWord_of_fields hop rfl (lenField_eq_ofNat _), decide_eq_true (lenField_toNat_le _), nofun,
      fun _ h => by cases h; rfl⟩

/-- What the decoder answers is named by the request, selector by selector. -/
theorem names_of_decode {r : Request} {i : Instr} (h : decode r = .ok i) : Names r i := by
  have hlen := decide_eq_true (lenField_toNat_le r.word)
  simp only [decode] at h
  split at h <;> rename_i hop
  · exact names_of_decodeBare (i := .select) h (BitVec.eq_of_toNat_eq hop) rfl rfl rfl rfl
  · exact names_of_decodeBare (i := .deselect) h (BitVec.eq_of_toNat_eq hop) rfl rfl rfl rfl
  · exact names_of_decodeBare (i := .waitReady) h (BitVec.eq_of_toNat_eq hop) rfl rfl rfl rfl
  · exact names_of_decodeByteArg h (BitVec.eq_of_toNat_eq hop) rfl hlen (fun _ h => by cases h; rfl) nofun
  · exact names_of_decodeByteArg h (BitVec.eq_of_toNat_eq hop) rfl hlen nofun (fun _ h => by cases h; rfl)
  · cases h
    exact names_spellWrite (BitVec.eq_of_toNat_eq hop)
  · cases h
    exact names_spellRead (BitVec.eq_of_toNat_eq hop)
  · exact names_of_decodeByteArg h (BitVec.eq_of_toNat_eq hop) rfl hlen (fun _ h => by cases h; rfl) nofun
  · exact names_of_decodeByteArg h (BitVec.eq_of_toNat_eq hop) rfl hlen nofun (fun _ h => by cases h; rfl)
  · exact names_of_decodeSetMode (BitVec.eq_of_toNat_eq hop) h
  · exact names_of_decodeBare (i := .getMode) h (BitVec.eq_of_toNat_eq hop) rfl rfl rfl rfl
  · exact names_of_decodeBare (i := .resetDevice) h (BitVec.eq_of_toNat_eq hop) rfl rfl rfl rfl
  · exact names_of_decodeBare (i := .initOscCtrl) h (BitVec.eq_of_toNat_eq hop) rfl rfl rfl rfl
  · exact names_of_decodeBare (i := .getOscWakeupMs) h (BitVec.eq_of_toNat_eq hop) rfl rfl rfl rfl
  · cases h

/-- Settles O47: an accepted request names the operation it decodes to, and the operation's own request carries the same
payload and capacity. -/
theorem encodeOfDecodeIsTheWord : Obligations.EncodeOfDecodeIsTheWord := by
  intro r i h
  obtain ⟨hword, hwf, hpayload, hcap⟩ := names_of_decode h
  refine ⟨hword, hwf, fun payload hp => ?_, fun cap hc => ?_⟩
  · exact ⟨hpayload payload hp, (encode_payload hp).trans (hpayload payload hp)⟩
  · exact ⟨hcap cap hc, (encode_cap hc).trans (hcap cap hc)⟩

/-! ### The rows of the opcode table -/

/-- Belonging to a row whose mask and pattern are given by their fields. -/
theorem covers_mkWord {row : TableRow} {mOp op : BitVec 8} {mArg mLen arg len : BitVec 16}
    (hmask : row.mask = mkWord mOp mArg mLen) (hpattern : row.pattern = mkWord op arg len) (w : BitVec 40) :
    row.covers w = true ↔ opField w &&& mOp = op ∧ argField w &&& mArg = arg ∧ lenField w &&& mLen = len := by
  simp only [covers_iff, hmask, hpattern, opField_mkWord, argField_mkWord, lenField_mkWord]

/-- A row that fixes the whole word: `ARG` and `LEN` are must-be-zero. -/
theorem covers_bare (op : BitVec 8) {row : TableRow}
    (hmask : row.mask = mkWord (.allOnes 8) (.allOnes 16) (.allOnes 16))
    (hpattern : row.pattern = mkWord op 0 0) {w : BitVec 40} :
    row.covers w = true ↔ opField w = op ∧ argField w = 0 ∧ lenField w = 0 := by
  simp only [covers_mkWord hmask hpattern, BitVec.and_allOnes]

/-- A row with one operand byte in `ARG[7:0]` and a free `LEN`. -/
theorem covers_byteArg (op : BitVec 8) {row : TableRow} (hmask : row.mask = mkWord (.allOnes 8) 0xFF00 0#16)
    (hpattern : row.pattern = mkWord op 0 0#16) {w : BitVec 40} :
    row.covers w = true ↔ opField w = op ∧ argHigh w = 0 := by
  simp only [covers_mkWord hmask hpattern, BitVec.and_allOnes, and_argHigh, argHigh, BitVec.and_zero, and_true]

/-- A row with a mode in `ARG[2:0]`. -/
theorem covers_modeArg (op : BitVec 8) {row : TableRow} (hmask : row.mask = mkWord (.allOnes 8) 0xFFF8 (.allOnes 16))
    (hpattern : row.pattern = mkWord op 0 0) {w : BitVec 40} :
    row.covers w = true ↔ opField w = op ∧ argAboveMode w = 0 ∧ lenField w = 0 := by
  simp only [covers_mkWord hmask hpattern, BitVec.and_allOnes, and_argAboveMode, argAboveMode]

/-- A row with an address in `ARG` and a free `LEN`. -/
theorem covers_address (op : BitVec 8) {row : TableRow} (hmask : row.mask = mkWord (.allOnes 8) 0#16 0#16)
    (hpattern : row.pattern = mkWord op 0#16 0#16) {w : BitVec 40} : row.covers w = true ↔ opField w = op := by
  simp only [covers_mkWord hmask hpattern, BitVec.and_allOnes, BitVec.and_zero, and_true]

/-- A row with an address in `ARG` and `LEN = 1`: the pseudo-operations (30_encoding R93). -/
theorem covers_addressOne (op : BitVec 8) {row : TableRow} (hmask : row.mask = mkWord (.allOnes 8) 0#16 (.allOnes 16))
    (hpattern : row.pattern = mkWord op 0#16 1) {w : BitVec 40} :
    row.covers w = true ↔ opField w = op ∧ lenField w = 1 := by
  simp only [covers_mkWord hmask hpattern, BitVec.and_allOnes, BitVec.and_zero, true_and]

/-- The row of the table at an index, as a row of the operation. -/
theorem covered_by_row {i : Instr} (k : Nat) (hk : k < opcodeTable.length)
    (hname : opcodeTable[k].mnemonic = i.mnemonic) (h : opcodeTable[k].covers (encode i).word = true) :
    ∃ row ∈ opcodeTable, row.mnemonic = i.mnemonic ∧ row.covers (encode i).word = true :=
  ⟨_, List.getElem_mem hk, hname, h⟩

/-- An operation's request word belongs to the operation's own row. -/
theorem encode_covered (i : Instr) :
    ∃ row ∈ opcodeTable, row.mnemonic = i.mnemonic ∧ row.covers (encode i).word = true := by
  cases i with
  | select => exact covered_by_row 0 (by decide) rfl (by decide)
  | deselect => exact covered_by_row 1 (by decide) rfl (by decide)
  | waitReady => exact covered_by_row 2 (by decide) rfl (by decide)
  | issueCmd =>
    exact covered_by_row 3 (by decide) rfl ((covers_byteArg 0x10 rfl rfl).mpr ⟨opField_mkWord .., argHigh_byteArg ..⟩)
  | readCmd =>
    exact covered_by_row 4 (by decide) rfl ((covers_byteArg 0x11 rfl rfl).mpr ⟨opField_mkWord .., argHigh_byteArg ..⟩)
  | writeRegs => exact covered_by_row 5 (by decide) rfl ((covers_address 0x12 rfl rfl).mpr (opField_mkWord ..))
  | readRegs => exact covered_by_row 6 (by decide) rfl ((covers_address 0x13 rfl rfl).mpr (opField_mkWord ..))
  | writeBuf =>
    exact covered_by_row 7 (by decide) rfl ((covers_byteArg 0x14 rfl rfl).mpr ⟨opField_mkWord .., argHigh_byteArg ..⟩)
  | readBuf =>
    exact covered_by_row 8 (by decide) rfl ((covers_byteArg 0x15 rfl rfl).mpr ⟨opField_mkWord .., argHigh_byteArg ..⟩)
  | setMode =>
    exact covered_by_row 9 (by decide) rfl
      ((covers_modeArg 0x20 rfl rfl).mpr ⟨opField_mkWord .., argAboveMode_modeArg .., lenField_mkWord ..⟩)
  | getMode => exact covered_by_row 10 (by decide) rfl (by decide)
  | resetDevice => exact covered_by_row 11 (by decide) rfl (by decide)
  | initOscCtrl => exact covered_by_row 12 (by decide) rfl (by decide)
  | getOscWakeupMs => exact covered_by_row 13 (by decide) rfl (by decide)
  | writeReg =>
    exact covered_by_row 14 (by decide) rfl
      ((covers_addressOne 0x12 rfl rfl).mpr ⟨opField_mkWord .., lenField_mkWord ..⟩)
  | readReg =>
    exact covered_by_row 15 (by decide) rfl
      ((covers_addressOne 0x13 rfl rfl).mpr ⟨opField_mkWord .., lenField_mkWord ..⟩)

theorem decode_of_bareRow (op : BitVec 8) {r : Request} {i : Instr} {row : TableRow}
    (hmask : row.mask = mkWord (.allOnes 8) (.allOnes 16) (.allOnes 16)) (hpattern : row.pattern = mkWord op 0 0)
    (h : row.covers r.word = true) (hdecode : opField r.word = op → decode r = decodeBare r.word i) :
    ∃ i, decode r = .ok i := by
  obtain ⟨hop, harg, hlen⟩ := (covers_bare op hmask hpattern).mp h
  exact ⟨i, (hdecode hop).trans (decodeBare_eq_ok.mpr ⟨harg, hlen, rfl⟩)⟩

theorem decode_of_byteArgRow (op : BitVec 8) {r : Request} {i : Instr} {row : TableRow}
    (hmask : row.mask = mkWord (.allOnes 8) 0xFF00 0#16) (hpattern : row.pattern = mkWord op 0 0#16)
    (h : row.covers r.word = true) (hdecode : opField r.word = op → decode r = decodeByteArg r.word i) :
    ∃ i, decode r = .ok i := by
  obtain ⟨hop, harg⟩ := (covers_byteArg op hmask hpattern).mp h
  exact ⟨i, (hdecode hop).trans (decodeByteArg_eq_ok.mpr ⟨harg, rfl⟩)⟩

/-- The decoder accepts every word of every row, the rows taken in the table's order. -/
theorem decode_of_covered {r : Request} {row : TableRow} (hrow : row ∈ opcodeTable) (h : row.covers r.word = true) :
    ∃ i, decode r = .ok i := by
  simp only [opcodeTable, coreRows, pseudoRows, List.cons_append, List.nil_append, List.mem_cons, List.not_mem_nil,
    or_false] at hrow
  rcases hrow with rfl | rfl | rfl | rfl | rfl | rfl | rfl | rfl | rfl | rfl | rfl | rfl | rfl | rfl | rfl | rfl
  · exact decode_of_bareRow 0x01 rfl rfl h fun hop => by simp only [decode, hop]; rfl
  · exact decode_of_bareRow 0x02 rfl rfl h fun hop => by simp only [decode, hop]; rfl
  · exact decode_of_bareRow 0x03 rfl rfl h fun hop => by simp only [decode, hop]; rfl
  · exact decode_of_byteArgRow 0x10 rfl rfl h fun hop => by simp only [decode, hop]; rfl
  · exact decode_of_byteArgRow 0x11 rfl rfl h fun hop => by simp only [decode, hop]; rfl
  · simp [decode, (covers_address 0x12 rfl rfl).mp h]
  · simp [decode, (covers_address 0x13 rfl rfl).mp h]
  · exact decode_of_byteArgRow 0x14 rfl rfl h fun hop => by simp only [decode, hop]; rfl
  · exact decode_of_byteArgRow 0x15 rfl rfl h fun hop => by simp only [decode, hop]; rfl
  · obtain ⟨hop, harg, hlen⟩ := (covers_modeArg 0x20 rfl rfl).mp h
    simp [decode, hop, decodeSetMode, harg, hlen]
  · exact decode_of_bareRow 0x21 rfl rfl h fun hop => by simp only [decode, hop]; rfl
  · exact decode_of_bareRow 0x30 rfl rfl h fun hop => by simp only [decode, hop]; rfl
  · exact decode_of_bareRow 0x31 rfl rfl h fun hop => by simp only [decode, hop]; rfl
  · exact decode_of_bareRow 0x32 rfl rfl h fun hop => by simp only [decode, hop]; rfl
  · simp [decode, ((covers_addressOne 0x12 rfl rfl).mp h).1]
  · simp [decode, ((covers_addressOne 0x13 rfl rfl).mp h).1]

/-- Every row gives the selector, whole. -/
theorem opField_of_covers {row : TableRow} (hrow : row ∈ opcodeTable) {w : BitVec 40} (h : row.covers w = true) :
    opField w = opField row.pattern := by
  have hmask : ∀ row ∈ opcodeTable, opField row.mask = BitVec.allOnes 8 := by decide
  obtain ⟨hop, _, _⟩ := (covers_iff row w).mp h
  rwa [hmask row hrow, BitVec.and_allOnes] at hop

/-- Rows with selectors of their own have different ones. -/
theorem coreRows_opField_inj : ∀ row ∈ coreRows, ∀ row' ∈ coreRows,
    opField row.pattern = opField row'.pattern → row = row' := by decide

theorem coreRow_unique {w : BitVec 40} {row row' : TableRow} (hrow : row ∈ coreRows) (hrow' : row' ∈ coreRows)
    (h : row.covers w = true) (h' : row'.covers w = true) : row = row' := by
  refine coreRows_opField_inj row hrow row' hrow' ?_
  rw [← opField_of_covers (List.mem_append_left _ hrow) h, opField_of_covers (List.mem_append_left _ hrow') h']

theorem covered_of_decode {r : Request} {i : Instr} (h : decode r = .ok i) :
    ∃ row ∈ opcodeTable, row.mnemonic = i.mnemonic ∧ row.covers r.word = true :=
  (names_of_decode h).word ▸ encode_covered i

/-- Settles O48: an accepted word is the word of its operation, which lies in the operation's row; every row's words are
accepted; and a row's selector is whole, so it tells the rows with selectors of their own apart. -/
theorem decoderAcceptsExactlyTheTable : Obligations.DecoderAcceptsExactlyTheTable := by
  refine ⟨fun r => ⟨fun ⟨i, h⟩ => ?_, fun ⟨row, hrow, h⟩ => decode_of_covered hrow h⟩,
    fun r i => covered_of_decode, fun w row hrow row' hrow' => coreRow_unique hrow hrow'⟩
  obtain ⟨row, hrow, _, hc⟩ := covered_of_decode h
  exact ⟨row, hrow, hc⟩

end Sys2Proof
end

section
/-! PROOFS. Acceptance, the effect of every entry, the lengths of the micro-programs, the wakeup value and the response
word. -/

namespace Sys2Proof.Machine

/-! ### Acceptance -/

theorem execFor_one_eq (i : Instr) (s : State) : execFor 1 i s = exec i s := by
  simp only [execFor]
  cases exec i s <;> rfl

/-- Settles O13: what acceptance leaves is the latched state. -/
theorem idleControllerAccepts : Obligations.IdleControllerAccepts := by
  intro i s ho hstart hfits
  exact ⟨0, (execFor_one_eq i s).symm.trans (run_accept ho hstart hfits)⟩

/-- The equation of `step` for a request the decoder rejects. -/
theorem step_reserved {s g : State} {r : Request} {why : DecodeError} (h : s.seq.opl = none)
    (hg : s.grantNext = some (r, g)) (hd : decode r = .error why) : step s = .refused (.reservedRequest why) := by
  simp [step, h, hg, hd]

/-- Settles O10: a word the decoder accepts belongs to a row, so the decoder names an error here. -/
theorem reservedWordsAreRefused : Obligations.ReservedWordsAreRefused := by
  intro s t r ho hg hnone
  rcases hd : decode r with why | i
  · exact ⟨why, step_reserved ho hg hd⟩
  · obtain ⟨row, hrow, _, hcovers⟩ := covered_of_decode hd
    rw [hnone row hrow] at hcovers
    cases hcovers

/-! ### The entries -/

theorem microStep_tx {s : State} (h : s.csN = .low) (b : Byte) : microStep (.tx b) s = .next (s.exchange b).2.advance :=
  transfer_low s b (fun _ t => t) h

theorem microStep_txs {s : State} (h : s.csN = .low) (b : Byte) : microStep (.txs b) s =
    .next ({ (s.exchange b).2 with statusOut := s.env.nextRx.1 } : State).advance :=
  transfer_low s b (fun rx t => { t with statusOut := rx }) h

theorem microStep_rx {s : State} (h : s.csN = .low) (k : Nat) : microStep (.rx k) s =
    .next ((s.exchange s.cfg.nopByte).2.storeOut k s.env.nextRx.1).advance :=
  transfer_low s s.cfg.nopByte (fun rx t => t.storeOut k rx) h

/-- Every entry answers a next state, an exchange with chip-select low. -/
theorem microStep_answers {m : MicroOp} {s : State} (hcs : m.isXfer = true → s.csN = .low) :
    ∃ t, microStep m s = .next t := by
  cases m with
  | tx b => exact ⟨_, microStep_tx (hcs rfl) b⟩
  | txs b => exact ⟨_, microStep_txs (hcs rfl) b⟩
  | rx k => exact ⟨_, microStep_rx (hcs rfl) k⟩
  | _ => exact ⟨_, rfl⟩

/-- `UPC` advances and the rest of `SEQ` stands, polls and the first of two debug writes apart. -/
theorem microStep_seq {m : MicroOp} {s t : State} (h : microStep m s = .next t) (hwait : m ≠ .wait)
    (hdbg : ∀ mode, m = .dbgW mode → s.cfg.debugEn = false ∨ s.dbgRest ≠ none) :
    t.seq = { s.seq with upc := s.seq.upc + 1 } := by
  cases m with
  | wait => exact absurd rfl hwait
  | dbgW mode =>
    cases h
    rcases mirror_cases s mode with ⟨_, e⟩ | ⟨hen, hrest, _⟩ | ⟨_, d, _, e⟩
    · rw [e]
      rfl
    · simp [hen, hrest] at hdbg
    · rw [e]
      cases d <;> rfl
  | tx | txs | rx =>
    simp only [microStep] at h
    obtain ⟨_, rfl⟩ := transfer_next h
    rfl
  | settle | cs | rst | dlyMs | modeW =>
    cases h
    rfl

/-- The bytes of `OUT` after a store: the stored one at its index, every other where it was. -/
theorem storeOut_getElem? (s : State) (k : Nat) (b : Byte) :
    (k ≤ s.out.length → (s.storeOut k b).out[k]? = some b) ∧
      ∀ j, j ≠ k → j < s.out.length → (s.storeOut k b).out[j]? = s.out[j]? := by
  rw [State.storeOut_out]
  refine ⟨fun hk => ?_, fun j hj hlt => ?_⟩
  · simp [Nat.min_eq_left hk]
  · rcases Nat.lt_or_gt_of_ne hj with hjk | hjk
    · rw [List.getElem?_append_left (by simp; omega), List.getElem?_take_of_lt hjk]
    · obtain ⟨d, rfl⟩ : ∃ d, j = k + 1 + d := ⟨j - (k + 1), by omega⟩
      rw [List.getElem?_append_right (by simp; omega)]
      have hidx : k + 1 + d - (s.out.take k).length = d + 1 := by
        rw [List.length_take]
        omega
      rw [hidx, List.getElem?_cons_succ, List.getElem?_drop]

theorem driveDbg_line_trace (s : State) (d : DbgSignal) (l : Level) : (s.driveDbg d l).dbgLine d = l ∧
    (s.driveDbg d l).dbgLine d.other = s.dbgLine d.other ∧ (s.driveDbg d l).trace = s.trace ++ [.dbgWrite d l] := by
  cases d <;> exact ⟨rfl, rfl, rfl⟩

/-- With the mirror on, `DBGW` writes one line: the one owed, or the one that comes first (44_mode_tracker R163). -/
theorem mirror_writes {s : State} {d : DbgSignal} (mode : OperatingMode) (hen : s.cfg.debugEn = true)
    (hd : s.dbgRest = some d ∨ (s.dbgRest = none ∧ s.env.nextDbgFirst.1 = d)) :
    (s.mirror mode).dbgLine d = dbgLevel mode d ∧ (s.mirror mode).dbgLine d.other = s.dbgLine d.other ∧
      (s.mirror mode).trace = s.trace ++ [.dbgWrite d (dbgLevel mode d)] := by
  have hw := driveDbg_line_trace s d (dbgLevel mode d)
  rcases mirror_cases s mode with ⟨hoff, _⟩ | ⟨_, hrest, e⟩ | ⟨_, d', hrest, e⟩
  · simp [hen] at hoff
  · obtain rfl : s.env.nextDbgFirst.1 = d := by simpa [hrest] using hd
    rw [e]
    cases hfirst : s.env.nextDbgFirst.1 <;> rw [hfirst] at hw <;> exact hw
  · obtain rfl : d' = d := by simpa [hrest] using hd
    rw [e]
    cases d' <;> exact hw

theorem mirror_off {s : State} (mode : OperatingMode) (hoff : s.cfg.debugEn = false) : s.mirror mode = s.advance := by
  simp [State.mirror, hoff]

/-- Settles O14: the entry answers, and each clause is about one kind of entry. -/
theorem everyEntryHasItsEffect : Obligations.EveryEntryHasItsEffect := by
  intro i s m hat hcs
  rw [exec_isAt hat]
  obtain ⟨t, ht⟩ := microStep_answers hcs
  refine ⟨t, ht, microStep_seq ht, ?settle, ?cs, ?tx, ?txs, ?rx, ?rst, ?dlyMs, ?modeW, ?dbgW, ?dbgWOff⟩
  case settle => rintro rfl; cases ht; rfl
  case cs => rintro l rfl; cases ht; exact ⟨rfl, rfl⟩
  case rst => rintro l rfl; cases ht; exact ⟨rfl, rfl⟩
  case dlyMs => rintro n rfl; cases ht; rfl
  case modeW => rintro mode rfl; cases ht; exact ⟨rfl, rfl⟩
  case tx =>
    rintro b rfl
    cases (microStep_tx (hcs rfl) b).symm.trans ht
    exact ⟨rfl, rfl, rfl⟩
  case txs =>
    rintro b rfl
    cases (microStep_txs (hcs rfl) b).symm.trans ht
    exact ⟨rfl, rfl, rfl⟩
  case rx =>
    rintro k rfl
    cases (microStep_rx (hcs rfl) k).symm.trans ht
    obtain ⟨hstored, hkept⟩ := storeOut_getElem? (s.exchange s.cfg.nopByte).2 k s.env.nextRx.1
    exact ⟨rfl, hstored, hkept, rfl⟩
  case dbgW =>
    rintro mode d rfl hen hd
    cases ht
    exact mirror_writes mode hen hd
  case dbgWOff =>
    rintro mode rfl hoff
    cases ht
    rw [mirror_off mode hoff]
    exact ⟨rfl, rfl, rfl⟩

/-- At a `TX` entry the byte received goes to its event alone. -/
theorem exec_tx_received {i : Instr} {s : State} {b : Byte} (hat : s.isAt i (.tx b)) (hcs : s.csN = .low)
    (got : Byte) (rest : List Byte) : exec i { s with env := { s.env with rx := got :: rest } } =
      .next { ({ s with env := { s.env with rx := rest } } : State).advance with
        trace := s.trace ++ [.xfer b got] } := by
  refine (exec_isAt (m := .tx b) ?_).trans (microStep_tx ?_ b)
  · exact hat
  · exact hcs

/-- Settles O41: the two states differ where the one step put the received byte. -/
theorem discardedBytesAffectNothing : Obligations.DiscardedBytesAffectNothing := by
  intro i s b x y rest hat hcs
  exact ⟨({ s with env := { s.env with rx := rest } } : State).advance, exec_tx_received hat hcs x rest,
    exec_tx_received hat hcs y rest⟩

/-! ### The lengths of the micro-programs -/

theorem uprog_primitive_length {cfg : Config} {i : Instr} (hp : isPrimitive i = true) (h : lengthFits cfg i) :
    (uprog cfg i).length = 8 + frameLength i := by
  rw [uprog_primitive hp, transaction_length, frameOf_length h, Nat.add_comm]

/-- The longest header is READ_REGS's: opcode, two address bytes, filler (30_encoding R86). -/
theorem frameLength_le {cfg : Config} {i : Instr} (h : lengthFits cfg i) (hmax : 1 ≤ cfg.lenMax) :
    frameLength i ≤ cfg.lenMax + 4 := by
  cases i with
  | issueCmd | readCmd | writeRegs | readRegs | writeBuf | readBuf =>
    have hlen := (h _ _ rfl).1
    simp only [frameLength]
    omega
  | _ => simp only [frameLength]; omega

theorem uprog_initOscCtrl_length (cfg : Config) : (uprog cfg .initOscCtrl).length = 23 := rfl

/-- Settles O44: a primitive is its frame in a transaction, the others are lists written out. -/
theorem microProgramLengths : Obligations.MicroProgramLengths := by
  intro cfg i hfits
  refine ⟨fun hp => uprog_primitive_length hp hfits, uprog_initOscCtrl_length cfg, fun hmax => ?_⟩
  by_cases hp : isPrimitive i = true
  · have hframe := frameLength_le hfits (by omega)
    rw [uprog_primitive_length hp hfits]
    omega
  · have hshort : (uprog cfg i).length ≤ 23 := by
      cases i with
      | issueCmd | readCmd | writeRegs | readRegs | writeBuf | readBuf | writeReg | readReg => exact absurd rfl hp
      | _ => exact of_decide_eq_true rfl
    omega

/-! ### The wakeup value and the response word -/

/-- A 16-bit count of milliseconds times 64 has at most 22 bits. -/
theorem wakeup_toNat {cfg : Config} (h : cfg.oscScaleShift = 6) :
    (wakeup cfg).toNat = cfg.oscWakeupMs.toNat * 64 := by
  have hlt := cfg.oscWakeupMs.isLt
  simp only [wakeup, h, BitVec.toNat_shiftLeft, BitVec.truncate_eq_setWidth, BitVec.toNat_setWidth, Nat.shiftLeft_eq]
  omega

/-- Settles O45: sixteen bits and six more stay below twenty-four. -/
theorem wakeupIsSixtyFourthsOfAMillisecond : Obligations.WakeupIsSixtyFourthsOfAMillisecond := by
  intro cfg h
  have hlt := cfg.oscWakeupMs.isLt
  refine ⟨wakeup_toNat h, by omega, fun h5 => BitVec.eq_of_toNat_eq ?_⟩
  rw [wakeup_toNat h, h5]
  rfl

/-- Settles O32: the fields of the word, and the codes of the three kinds of result. -/
theorem responseWordHasItsFields : Obligations.ResponseWordHasItsFields := by
  refine fun r => ⟨word_code r, word_reserved r, word_value r, ?_, ?_, ?_⟩
  · rintro value data rfl
    exact ⟨rfl, rfl, rfl⟩
  · rintro n rfl
    exact ⟨rfl, rfl, rfl⟩
  · rintro len capacity rfl
    exact ⟨rfl, rfl, rfl⟩

end Sys2Proof.Machine
end

section
/-! PROOFS. The latches and the trace: what the events appended by a step do to the replays of the four lines
(41_bus_line_control R113(c), R114). -/

namespace Sys2Proof.Machine

/-- From `s` to `t` exactly the events `es` happened: they are appended to the trace, every line is where their replay
puts it, and none of them is an exchange with chip-select high. -/
structure Replayed (es : List Event) (s t : State) : Prop where
  trace : t.trace = s.trace ++ es
  csN : t.csN = csAfter s.csN es
  resetN : t.resetN = resetAfter s.resetN es
  dbgTx : t.dbgTx = dbgAfter .tx s.dbgTx es
  dbgRx : t.dbgRx = dbgAfter .rx s.dbgRx es
  exchanges : noXferWhileHigh s.csN es = true

/-- Where every latch is what the trace last wrote, it still is once the replay of the appended events has moved it. -/
theorem LinesFollowTrace.of_replayed {es : List Event} {s t : State} (h : LinesFollowTrace s)
    (hr : Replayed es s t) : LinesFollowTrace t := by
  obtain ⟨hcs, hrst, htx, hrx, hex⟩ := h
  refine ⟨?_, ?_, ?_, ?_, ?_⟩ <;> rw [hr.trace]
  · rw [csAfter_append, ← hcs, hr.csN]
  · rw [resetAfter_append, ← hrst, hr.resetN]
  · rw [dbgAfter_append, ← htx, hr.dbgTx]
  · rw [dbgAfter_append, ← hrx, hr.dbgRx]
  · rw [noXferWhileHigh_append, hex, ← hcs, hr.exchanges]
    rfl

/-! ### The shared operations -/

theorem latch_replayed (s : State) (op : Instr) : Replayed [.req op] s (s.latch op) := ⟨rfl, rfl, rfl, rfl, rfl, rfl⟩

theorem finish_replayed (r : Reply) (s : State) : Replayed [.resp (r.result s)] s (finish r s) := by
  obtain ⟨htr, _, hsame, hcs, hrst, _, _⟩ := finish_responded r s
  exact ⟨htr, hcs, hrst, hsame.dbgTx, hsame.dbgRx, rfl⟩

theorem raise_replayed (s : State) (f : FaultRecord) : Replayed [.resp (.fault f)] s (s.raise f) :=
  ⟨rfl, rfl, rfl, rfl, rfl, rfl⟩

theorem counted_replayed (s : State) : Replayed [.busySample .high] s s.counted := ⟨rfl, rfl, rfl, rfl, rfl, rfl⟩

theorem advance_replayed (s : State) : Replayed [] s s.advance := ⟨by simp, rfl, rfl, rfl, rfl, rfl⟩

/-- With chip-select low an exchange is one the trace may hold (41_bus_line_control R113(c)). -/
theorem exchange_replayed {s : State} (h : s.csN = .low) (b : Byte) :
    Replayed [.xfer b s.env.nextRx.1] s (s.exchange b).2 :=
  ⟨rfl, rfl, rfl, rfl, rfl, by simp [noXferWhileHigh, h]⟩

/-- A debug write moves its own line, and the replay of the other passes over its event. -/
theorem driveDbg_replayed (s : State) (d : DbgSignal) (l : Level) : Replayed [.dbgWrite d l] s (s.driveDbg d l) := by
  cases d <;> exact ⟨rfl, rfl, rfl, rfl, rfl, rfl⟩

/-- A poll samples, and gives up with the fault or delays. -/
theorem poll_keeps_linesFollowTrace {s : State} (h : LinesFollowTrace s) : LinesFollowTrace s.poll := by
  have hcounted := h.of_replayed (counted_replayed s)
  rcases poll_cases s with ⟨_, e⟩ | ⟨_, _, e⟩ | ⟨_, _, e⟩ <;> rw [e]
  · exact h.of_replayed (es := [.busySample .low]) ⟨rfl, rfl, rfl, rfl, rfl, rfl⟩
  · exact hcounted.of_replayed (raise_replayed _ _)
  · exact hcounted.of_replayed (es := [.delayUs s.cfg.pollIntervalUs]) ⟨rfl, rfl, rfl, rfl, rfl, rfl⟩

/-- The mirror is skipped or writes one of the two lines. -/
theorem mirror_keeps_linesFollowTrace {s : State} (h : LinesFollowTrace s) (mode : OperatingMode) :
    LinesFollowTrace (s.mirror mode) := by
  have hdrive : ∀ d, LinesFollowTrace (s.driveDbg d (dbgLevel mode d)) := fun d =>
    h.of_replayed (driveDbg_replayed s d _)
  rcases mirror_cases s mode with ⟨_, e⟩ | ⟨_, _, e⟩ | ⟨_, d, _, e⟩ <;> rw [e]
  · exact h.of_replayed (advance_replayed s)
  · exact hdrive s.env.nextDbgFirst.1
  · exact hdrive d

/-- Every entry writes to the trace what it does to the lines, and exchanges with chip-select low only. -/
theorem microStep_keeps_linesFollowTrace {m : MicroOp} {s t : State} (h : LinesFollowTrace s)
    (hm : microStep m s = .next t) : LinesFollowTrace t := by
  cases m with
  | wait => cases hm; exact poll_keeps_linesFollowTrace h
  | dbgW mode => cases hm; exact mirror_keeps_linesFollowTrace h mode
  | modeW => cases hm; exact h
  | tx | txs | rx =>
    simp only [microStep] at hm
    obtain ⟨hcs, rfl⟩ := transfer_next hm
    have hexchange := fun b => h.of_replayed (exchange_replayed hcs b)
    exact hexchange _
  | settle => cases hm; exact h.of_replayed (es := [.settle]) ⟨rfl, rfl, rfl, rfl, rfl, rfl⟩
  | cs l => cases hm; exact h.of_replayed (es := [.csWrite l]) ⟨rfl, rfl, rfl, rfl, rfl, rfl⟩
  | rst l => cases hm; exact h.of_replayed (es := [.rstWrite l]) ⟨rfl, rfl, rfl, rfl, rfl, rfl⟩
  | dlyMs n => cases hm; exact h.of_replayed (es := [.delayMs n]) ⟨rfl, rfl, rfl, rfl, rfl, rfl⟩

/-- Acceptance, the length fault, an entry, the response: each keeps the latches and the trace in agreement. -/
theorem exec_keeps_linesFollowTrace {i : Instr} {s t : State} (h : LinesFollowTrace s) (he : exec i s = .next t) :
    LinesFollowTrace t := by
  have hlatch := h.of_replayed (latch_replayed s i.core)
  rcases exec_next_cases he with ⟨_, _, _, rfl⟩ | ⟨_, _, _, _, _, _, _, _, rfl⟩ | ⟨m, _, hm⟩ | ⟨_, _, rfl⟩
  · exact hlatch
  · exact hlatch.of_replayed (raise_replayed _ _)
  · exact microStep_keeps_linesFollowTrace h hm
  · exact h.of_replayed (finish_replayed _ s)

/-- The grant of a request touches neither a line nor the trace. -/
theorem grantNext_keeps_linesFollowTrace {s g : State} {r : Request} (h : LinesFollowTrace s)
    (hg : s.grantNext = some (r, g)) : LinesFollowTrace g := by
  obtain ⟨q, _, rest, env, _, rfl, _⟩ := grantNext_some hg
  exact h

/-- Settles O4: every meaning keeps the agreement, run in flight or behind the grant of a request. -/
theorem stepKeepsLatchesAndTraceInAgreement : Obligations.StepKeepsLatchesAndTraceInAgreement := by
  intro s t h hstep
  rcases step_next_cases hstep with ⟨op, _, he⟩ | ⟨_, _, rfl⟩ | ⟨_, r, g, i, hg, _, he⟩
  · exact exec_keeps_linesFollowTrace h he
  · exact h
  · exact exec_keeps_linesFollowTrace (grantNext_keeps_linesFollowTrace h hg) he

end Sys2Proof.Machine
end

section
/-! PROOFS. The bare chip-select operations, SELECT and DESELECT as one: the whole run and the frame of each step
(41_bus_line_control R111, R112). -/

namespace Sys2Proof.Machine

/-- The operation that drives chip-select to a level and does nothing else (41_bus_line_control R111, R112). -/
def bareChipSelect : Level → Instr
  | .low => .select
  | .high => .deselect

/-- `SETTLE, CS(l), SETTLE` (30_encoding R97). -/
theorem uprog_bareChipSelect (cfg : Config) (l : Level) :
    uprog cfg (bareChipSelect l) = [.settle, .cs l, .settle] := by
  cases l <;> rfl

@[simp] theorem bareChipSelect_core (l : Level) : (bareChipSelect l).core = bareChipSelect l := by cases l <;> rfl

@[simp] theorem lengthAndCapacity_bareChipSelect (l : Level) : lengthAndCapacity (bareChipSelect l) = none := by
  cases l <;> rfl

@[simp] theorem responseOf_bareChipSelect (l : Level) (s : State) : responseOf (bareChipSelect l) s = .done 0 [] := by
  cases l <;> rfl

theorem lengthFits_bareChipSelect (cfg : Config) (l : Level) : lengthFits cfg (bareChipSelect l) := by
  simp [lengthFits]

/-- What a whole run of SELECT or DESELECT leaves behind, `CS_N` at the level it drives. -/
structure BareChipSelectRan (l : Level) (s t : State) : Prop where
  csN : t.csN = l
  idle : t.IsIdle
  trace : t.trace = s.trace ++ ([.req (bareChipSelect l)] ++ csEvents l ++ [.resp (.done 0 [])])
  mode : t.mode = s.mode
  resetN : t.resetN = s.resetN
  dbgTx : t.dbgTx = s.dbgTx
  dbgRx : t.dbgRx = s.dbgRx
  busy : t.env.busy = s.env.busy
  rx : t.env.rx = s.env.rx

/-- Acceptance, the three entries, the response. -/
theorem run_bareChipSelect {l : Level} {s : State} (hidle : s.IsIdle) (hstart : mayStartWith (bareChipSelect l) s.csN) :
    ∃ t, execFor 5 (bareChipSelect l) s = .next t ∧ BareChipSelectRan l s t := by
  obtain ⟨hseq, hrest⟩ := hidle
  have haccept := run_accept (by rw [hseq]; rfl) hstart (lengthFits_bareChipSelect _ l)
  have hentries := run_chipSelect (i := bareChipSelect l) (s := s.latch (bareChipSelect l).core) (rest := []) rfl
    (uprog_bareChipSelect _ l)
  obtain ⟨t, hresponse, htr, htseq, hmode, hcs, hrst, htx, hrx, htrest, _, _, hbusy, hbytes⟩ :=
    run_response (i := bareChipSelect l) (s := { s.latch (bareChipSelect l).core with
      csN := l
      seq := ⟨some (bareChipSelect l).core, 3, 0⟩
      trace := (s.latch (bareChipSelect l).core).trace ++ csEvents l }) rfl
      (by rw [uprog_bareChipSelect]; rfl)
  refine ⟨t, ?_, hcs, ⟨htseq, htrest.trans hrest⟩, ?_, hmode, hrst, htx, hrx, hbusy, hbytes⟩
  · calc execFor (1 + (3 + 1)) (bareChipSelect l) s
        = execFor (3 + 1) (bareChipSelect l) (s.latch (bareChipSelect l).core) := execFor_add haccept
      _ = execFor 1 (bareChipSelect l) _ := execFor_add hentries
      _ = .next t := hresponse
  · rw [htr]
    simp

/-- Settles O18: SELECT drives low, DESELECT high, and each runs from the other level. -/
theorem bareChipSelectOperationsRun : Obligations.BareChipSelectOperationsRun := by
  refine ⟨fun s hidle hcs => ?_, fun s hidle hcs => ?_⟩
  · obtain ⟨t, hrun, h⟩ := run_bareChipSelect (l := .low) hidle hcs
    exact ⟨t, hrun, h.csN, h.idle, h.trace, h.mode, h.resetN, h.dbgTx, h.dbgRx, h.busy, h.rx⟩
  · obtain ⟨t, hrun, h⟩ := run_bareChipSelect (l := .high) hidle hcs
    exact ⟨t, hrun, h.csN, h.idle, h.trace, h.mode, h.resetN, h.dbgTx, h.dbgRx, h.busy, h.rx⟩

/-! ### The frame of one step -/

/-- Everything a step of SELECT or DESELECT can be: acceptance, one of the settling delays, the chip-select entry, the
response. -/
theorem exec_bareChipSelect_cases {l : Level} {s t : State} (h : exec (bareChipSelect l) s = .next t) :
    (s.seq.opl = none ∧ t = s.latch (bareChipSelect l)) ∨
      (s.seq.opl ≠ none ∧ t = (s.emit [.settle]).advance) ∨
      (s.isAt (bareChipSelect l) (.cs l) ∧ s.seq.opl ≠ none ∧ t = (s.driveCs l).advance) ∨
      (s.seq.opl ≠ none ∧ t = finish .nothing s) := by
  rcases exec_next_cases h with ⟨ho, _, _, rfl⟩ | ⟨_, _, _, _, _, hlen, _⟩ | ⟨m, hat, hm⟩ | ⟨ho, _, rfl⟩
  · exact .inl ⟨ho, by rw [bareChipSelect_core]⟩
  · simp at hlen
  · have ho : s.seq.opl ≠ none := by rw [hat.1]; nofun
    have hmem := mem_of_at hat.2
    simp only [uprog_bareChipSelect, List.mem_cons, List.not_mem_nil, or_false] at hmem
    rcases hmem with rfl | rfl | rfl <;> cases hm
    · exact .inr (.inl ⟨ho, rfl⟩)
    · exact .inr (.inr (.inl ⟨hat, ho, rfl⟩))
    · exact .inr (.inl ⟨ho, rfl⟩)
  · exact .inr (.inr (.inr ⟨by rw [ho]; nofun, by cases l <;> rfl⟩))

/-- Settles O34: the frame of each kind of step. -/
theorem bareChipSelectLeavesEverythingButChipSelectAndStaging :
    Obligations.BareChipSelectLeavesEverythingButChipSelectAndStaging := by
  intro i s t l hi h
  obtain rfl : i = bareChipSelect l := by
    rcases hi with ⟨rfl, rfl⟩ | ⟨rfl, rfl⟩ <;> rfl
  rcases exec_bareChipSelect_cases h with ⟨ho, rfl⟩ | ⟨ho, rfl⟩ | ⟨hat, ho, rfl⟩ | ⟨ho, rfl⟩
  · exact ⟨rfl, rfl, rfl, rfl, rfl, rfl, rfl, rfl, rfl, .inl rfl, fun _ => rfl, fun hne => absurd ho hne⟩
  · exact ⟨rfl, rfl, rfl, rfl, rfl, rfl, rfl, rfl, rfl, .inl rfl, fun hn => absurd hn ho, fun _ _ => ⟨rfl, rfl⟩⟩
  · exact ⟨rfl, rfl, rfl, rfl, rfl, rfl, rfl, rfl, rfl, .inr ⟨hat, rfl⟩, fun hn => absurd hn ho,
      fun _ _ => ⟨rfl, rfl⟩⟩
  · exact ⟨rfl, rfl, rfl, rfl, rfl, rfl, rfl, rfl, rfl, .inl rfl, fun hn => absurd hn ho,
      fun _ hflight => absurd rfl hflight⟩

end Sys2Proof.Machine
end

section
/-! PROOFS. The ready handshake: every wait of every operation, WAIT_READY as a whole, the two waits of a primitive of the
hardened variant, and the operations that contain no wait (42_ready_handshake R120 to R124). -/

namespace Sys2Proof.Machine

/-! ### One wait -/

/-- The first `k` polls before a device busy for `n` samples: the wait stands, `k` samples and delays later. -/
theorem run_polls_of_le {i : Instr} {s : State} {n k : Nat} {rest : List Level} (hk : k ≤ n) (hat : s.isAt i .wait)
    (hbusy : s.env.busy = List.replicate n .high ++ rest) (hfits : waitFits s.cfg (s.seq.pollCnt + n)) :
    execFor k i s = .next { s with
      seq := { s.seq with pollCnt := s.seq.pollCnt + k }
      env := { s.env with busy := List.replicate (n - k) .high ++ rest }
      trace := s.trace ++ busyPolls s.cfg k } := by
  refine run_polls k s _ hat ?_ fun m hm => ?_
  · rw [hbusy, ← List.append_assoc, List.replicate_append_replicate, Nat.add_sub_cancel' hk]
  · have := hfits m hm
    omega

/-- A poll ends the wait on a low sample, gives up, or goes on after one delay: where each leaves the sequencer and what
the first and the last append. -/
theorem exec_wait_cases {i : Instr} {s t : State} (hat : s.isAt i .wait) (h : exec i s = .next t) :
    (t.seq = ⟨s.seq.opl, s.seq.upc + 1, 0⟩ ∧ t.trace = s.trace ++ [.busySample .low]) ∨ t.seq = Seq.idle ∨
      (t.seq = ⟨s.seq.opl, s.seq.upc, s.seq.pollCnt + 1⟩ ∧
        t.trace = s.trace ++ [.busySample .high, .delayUs s.cfg.pollIntervalUs]) := by
  obtain rfl : s.poll = t := by simpa [exec_isAt hat, microStep] using h
  rcases poll_cases s with ⟨_, e⟩ | ⟨_, _, e⟩ | ⟨_, _, e⟩ <;> rw [e]
  · exact .inl ⟨rfl, rfl⟩
  · exact .inr (.inl rfl)
  · exact .inr (.inr ⟨rfl, by simp [State.counted]⟩)

/-- Settles O27: the three outcomes of a poll are told apart by where they leave the sequencer, and a device busy for `n`
samples is the run of a wait. -/
theorem waitReturnsOnlyAfterALowSample : Obligations.WaitReturnsOnlyAfterALowSample := by
  refine ⟨fun i s t hat h hupc => ?_, fun i s t hat h hopl hupc => ?_, fun i s n rest hat hp hfits hbusy => ?_⟩
  · rcases exec_wait_cases hat h with ⟨_, htr⟩ | hseq | ⟨hseq, _⟩
    · exact htr
    · simp [hseq, Seq.idle] at hupc
    · simp [hseq] at hupc
  · rcases exec_wait_cases hat h with ⟨hseq, _⟩ | hseq | ⟨_, htr⟩
    · simp [hseq] at hupc
    · simp [hseq, Seq.idle, hat.1] at hopl
    · exact htr
  · refine ⟨fun k hk => ⟨_, run_polls_of_le hk hat hbusy (by rwa [hp, Nat.zero_add]), rfl, rfl, rfl⟩, ?_⟩
    exact run_wait hat hp hfits hbusy

/-! ### Steps of the controller with an operation in flight -/

theorem exec_core (i : Instr) (s : State) : exec i.core s = exec i s := by
  rw [exec_eq_perform, exec_eq_perform, operation_core]

/-- The step of an operation in flight is its meaning's. -/
theorem step_of_inFlight {i : Instr} {s : State} (h : s.seq.opl = some i.core) : step s = exec i s := by
  rw [step_inFlight h, exec_core]

/-- As long as an operation stays in flight the controller's steps are a run of it. -/
theorem stepFor_eq_execFor {i : Instr} {n : Nat} {s : State}
    (h : ∀ k < n, ∃ u, execFor k i s = .next u ∧ u.seq.opl = some i.core) : stepFor n s = execFor n i s := by
  induction n generalizing s with
  | zero => rfl
  | succ n ih =>
    obtain ⟨_, ⟨⟩, hs⟩ := h 0 n.succ_pos
    simp only [stepFor, execFor, step_of_inFlight hs]
    rcases he : exec i s with t | _ | _
    · refine ih fun k hk => ?_
      have hnext := h (k + 1) (Nat.succ_lt_succ hk)
      simpa only [execFor, he] using hnext
    · rfl
    · rfl

/-- With no bound every count of busy samples fits (42_ready_handshake R121). -/
theorem waitFits_of_unbounded {cfg : Config} (h : cfg.maxPollIter = none) (n : Nat) : waitFits cfg n := by
  simp [waitFits, h]

/-- Settles O28: with no bound a poll does not give up, so `n` busy samples are `n` polls of the one wait. -/
theorem unboundedWaitNeverGivesUp : Obligations.UnboundedWaitNeverGivesUp := by
  refine ⟨fun i s hat hmax => ?_, fun i s n rest hat hmax hbusy => ?_⟩
  · refine ⟨s.poll, (step_of_inFlight hat.1).trans (exec_isAt hat), ?_⟩
    rcases poll_cases s with ⟨hlevel, e⟩ | ⟨_, ⟨m, hm, _⟩, _⟩ | ⟨hlevel, _, e⟩
    · rw [e]
      exact ⟨rfl, fun hhigh => by simp [hlevel] at hhigh, fun _ => rfl⟩
    · simp [hmax] at hm
    · rw [e]
      exact ⟨rfl, fun _ => rfl, fun hlow => by simp [hlevel] at hlow⟩
  · have hpolls := fun k (hk : k ≤ n) => run_polls_of_le hk hat hbusy (waitFits_of_unbounded hmax _)
    have hsteps : stepFor n s = execFor n i s :=
      stepFor_eq_execFor fun k hk => ⟨_, hpolls k hk.le, hat.1⟩
    refine ⟨_, hsteps.trans (hpolls n le_rfl), rfl, rfl, rfl, rfl, rfl, rfl, ?_⟩
    simp

/-! ### WAIT_READY from acceptance to response -/

/-- Settles O19: acceptance, the one wait, the response. -/
theorem waitReadyRuns : Obligations.WaitReadyRuns := by
  intro s n rest ⟨hseq, hrest⟩ hcs hfits hbusy
  have haccept : execFor 1 .waitReady s = .next (s.latch .waitReady) :=
    run_accept (i := .waitReady) (by rw [hseq]; rfl) hcs (by simp [lengthFits, lengthAndCapacity])
  have hwait := run_wait (i := .waitReady) (s := s.latch .waitReady) ⟨rfl, rfl⟩ rfl hfits hbusy
  obtain ⟨t, hresponse, htr, htseq, hmode, htcs, hrst, htx, hrx, htrest, hreq, hcfg, htbusy, hbytes⟩ :=
    run_response (i := .waitReady) (s := { s.latch .waitReady with
      seq := ⟨some .waitReady, 1, 0⟩
      env := { s.env with busy := rest }
      trace := (s.latch .waitReady).trace ++ waitEvents s.cfg n }) rfl rfl
  refine ⟨t, ?_, htcs.trans hcs, ⟨htseq, htrest.trans hrest⟩, ?_, hmode, hrst, htx, hrx, hreq, hcfg, htbusy, hbytes⟩
  · calc execFor (n + 3) .waitReady s
        = execFor (1 + ((n + 1) + 1)) .waitReady s := by rw [show n + 3 = 1 + ((n + 1) + 1) by omega]
      _ = execFor ((n + 1) + 1) .waitReady (s.latch .waitReady) := execFor_add haccept
      _ = execFor 1 .waitReady _ := execFor_add hwait
      _ = .next t := hresponse
  · rw [htr]
    simp [responseOf]

/-! ### The waits of a primitive -/

theorem mayStartWith_primitive {i : Instr} (h : isPrimitive i = true) : mayStartWith i .high := by
  cases i <;> first | rfl | cases h

/-- An idle controller with chip-select high accepts every primitive whose length fits. -/
theorem run_accept_primitive {i : Instr} {s : State} (hp : isPrimitive i = true) (hidle : s.IsIdle)
    (hcs : s.csN = .high) (hl : lengthFits s.cfg i) : execFor 1 i s = .next (s.latch i.core) := by
  obtain ⟨hseq, _⟩ := hidle
  exact run_accept (by rw [hseq]; rfl) (by rw [hcs]; exact mayStartWith_primitive hp) hl

/-- What a primitive that gave up in a wait leaves behind, `es` being the events of its normal run before that wait. -/
structure GaveUpAfter (i : Instr) (m : Nat) (es : List Event) (s t : State) : Prop where
  trace : t.trace = s.trace ++ ([.req i.core] ++ es ++ failedWaitEvents s.cfg m ++
    [.resp (.fault (.deviceNotResponding m))])
  csN : t.csN = .high
  idle : t.IsIdle
  mode : t.mode = s.mode

/-- A primitive that stands at a wait with the events `es` behind its acceptance, before a device busy for all the `m`
samples the wait may take (42_ready_handshake R122, 60_exceptions R194). -/
theorem run_primitive_gaveUp {i : Instr} {s u : State} {k m : Nat} {es : List Event} {rest : List Level}
    (hrun : execFor k i s = .next u) (htr : u.trace = s.trace ++ ([.req i.core] ++ es)) (hcs : u.csN = .high)
    (hrest : u.dbgRest = none) (hmode : u.mode = s.mode) (hcfg : u.cfg = s.cfg) (hat : u.isAt i .wait)
    (hp : u.seq.pollCnt = 0) (hmax : s.cfg.maxPollIter = some m) (hm : 1 ≤ m)
    (hbusy : u.env.busy = List.replicate m .high ++ rest) :
    ∃ t, execFor (k + m) i s = .next t ∧ GaveUpAfter i m es s t := by
  obtain ⟨t, hwait, httr, htseq, htmode, htcs, _, _, _, htrest, _, _, _, _⟩ :=
    run_failedWait hat hp (by rw [hcfg, hmax]) hm hbusy
  refine ⟨t, (execFor_add hrun).trans hwait, ?_, htcs.trans hcs, ⟨htseq, htrest.trans hrest⟩, htmode.trans hmode⟩
  rw [httr, htr, hcfg]
  simp

/-- Settles O21: behind the acceptance the failed wait comes at once, or after the transaction up to its trailing wait. -/
theorem hardenedPrimitiveFaultsInEitherWait : Obligations.HardenedPrimitiveFaultsInEitherWait := by
  intro i s m hprim hidle hcs hl hmax hm
  have haccept := run_accept_primitive hprim hidle hcs hl
  have hprog : (uprog s.cfg i).drop 0 = transaction (frameOf s.cfg i) ++ [] := by simp [uprog_primitive hprim]
  refine ⟨fun rest hbusy => ?leading, fun a got rest rx' ha hbusy hrx hgot => ?trailing⟩
  case leading =>
    obtain ⟨hat, _⟩ := isAt_of_drop (i := i) (s := s.latch i.core) rfl hprog
    obtain ⟨t, hrun, h⟩ := run_primitive_gaveUp (es := []) haccept rfl hcs hidle.2 rfl rfl hat rfl hmax hm hbusy
    exact ⟨t, by rwa [Nat.add_comm], by simpa using h.trace, h.csN, h.idle, h.mode⟩
  case trailing =>
    have hlen := frameOf_length hl
    have hfits : waitFits s.cfg a := fun m' h => by
      rw [hmax] at h
      cases h
      exact ha
    obtain ⟨hframe, hnext⟩ := run_toTrailingWait (i := i) (s := s.latch i.core) (rx' := rx')
      (frameOf_isXfer s.cfg i) rfl hprog rfl hfits hbusy hrx (hgot.trans hlen.symm)
    obtain ⟨t, hrun, h⟩ := run_primitive_gaveUp (rest := rest)
      (es := waitEvents s.cfg a ++ csEvents .low ++ frameEvents (sentBytes s.cfg i) got ++ csEvents .high)
      ((execFor_add haccept).trans hframe) (by simp [frameOf_sent hprim]) rfl hidle.2 rfl rfl (isAt_of_drop rfl hnext).1
      rfl hmax hm rfl
    refine ⟨t, ?_, by simpa using h.trace, h.csN, h.idle, h.mode⟩
    rw [← hrun, hlen]
    congr 1
    omega

/-! ### Operations that contain no wait -/

/-- The events an operation with no wait never appends: a sample, an exchange, a fault response (42_ready_handshake R123,
60_exceptions R187). -/
def Event.needsWait : Event → Bool
  | .busySample _ => true
  | .xfer _ _ => true
  | .resp (.fault _) => true
  | _ => false

/-- Nothing of the device's answers is used up, and no event appended needs a wait. -/
structure DeviceUntouched (s t : State) : Prop where
  busy : t.env.busy = s.env.busy
  rx : t.env.rx = s.env.rx
  events : ∃ es, t.trace = s.trace ++ es ∧ ∀ e ∈ es, e.needsWait = false

/-- The micro-program of an operation with no wait holds neither a wait nor a transfer entry. -/
theorem uprog_neverWaits {cfg : Config} {i : Instr} (h : neverWaits i = true) :
    ∀ m ∈ uprog cfg i, m ≠ .wait ∧ m.isXfer = false := by
  cases i with
  | select | deselect | setMode | getMode | resetDevice | getOscWakeupMs =>
    simp [uprog, operation, opSelect, opDeselect, opSetMode, opGetMode, opResetDevice, opGetOscWakeupMs, sel, desel,
      MicroOp.isXfer]
  | _ => cases h

theorem lengthAndCapacity_neverWaits {i : Instr} (h : neverWaits i = true) : lengthAndCapacity i = none := by
  cases i <;> first | rfl | cases h

theorem mirror_deviceUntouched (s : State) (mode : OperatingMode) : DeviceUntouched s (s.mirror mode) := by
  have hfirst : s.env.nextDbgFirst.2.busy = s.env.busy ∧ s.env.nextDbgFirst.2.rx = s.env.rx := by
    unfold Environment.nextDbgFirst
    split <;> exact ⟨rfl, rfl⟩
  have hdrive : ∀ d, (s.driveDbg d (dbgLevel mode d)).trace = s.trace ++ [.dbgWrite d (dbgLevel mode d)] := fun d =>
    (driveDbg_replayed s d _).trace
  have hsilent : ∀ d, ∀ e ∈ [Event.dbgWrite d (dbgLevel mode d)], e.needsWait = false := by simp [Event.needsWait]
  rcases mirror_cases s mode with ⟨_, e⟩ | ⟨_, _, e⟩ | ⟨_, d, _, e⟩ <;> rw [e]
  · exact ⟨rfl, rfl, [], by simp, by simp⟩
  · exact ⟨hfirst.1, hfirst.2, _, hdrive _, hsilent _⟩
  · exact ⟨by cases d <;> rfl, by cases d <;> rfl, _, hdrive d, hsilent d⟩

/-- Only polls and exchanges touch the device (30_encoding R96). -/
theorem microStep_deviceUntouched {m : MicroOp} {s t : State} (hwait : m ≠ .wait) (hx : m.isXfer = false)
    (h : microStep m s = .next t) : DeviceUntouched s t := by
  cases m with
  | wait => exact absurd rfl hwait
  | tx | txs | rx => cases hx
  | dbgW mode => cases h; exact mirror_deviceUntouched s mode
  | modeW => cases h; exact ⟨rfl, rfl, [], by simp, by simp⟩
  | settle | cs | rst | dlyMs => cases h; exact ⟨rfl, rfl, [_], rfl, by simp [Event.needsWait]⟩

/-- A `Done` response touches nothing of the device. -/
theorem finish_deviceUntouched (r : Reply) (s : State) : DeviceUntouched s (finish r s) := by
  cases r <;> exact ⟨rfl, rfl, [_], rfl, by simp [Reply.result, Event.needsWait]⟩

/-- Settles O38: acceptance, an entry that is neither a wait nor a transfer, or the `Done` response; with no length there
is no length fault. -/
theorem operationsWithoutWaitNeverTouchTheDevice : Obligations.OperationsWithoutWaitNeverTouchTheDevice := by
  intro i s t hi h
  have huntouched : DeviceUntouched s t := by
    rcases exec_next_cases h with ⟨_, _, _, rfl⟩ | ⟨_, _, _, len, capacity, hlen, _⟩ | ⟨m, ⟨_, hm⟩, hstep⟩ | ⟨_, _, rfl⟩
    · exact ⟨rfl, rfl, [.req i.core], rfl, by simp [Event.needsWait]⟩
    · simp [lengthAndCapacity_neverWaits hi] at hlen
    · obtain ⟨hwait, hx⟩ := uprog_neverWaits hi m (mem_of_at hm)
      exact microStep_deviceUntouched hwait hx hstep
    · exact finish_deviceUntouched _ s
  obtain ⟨hbusy, hrx, es, htr, hes⟩ := huntouched
  have hsilent : ∀ e, e.needsWait = true → e ∉ es := fun e he hmem => by simp [hes e hmem] at he
  exact ⟨hbusy, hrx, es, htr, fun l => hsilent (.busySample l) rfl, fun x y => hsilent (.xfer x y) rfl,
    fun f => hsilent (.resp (.fault f)) rfl⟩

end Sys2Proof.Machine
end

section
/-! PROOFS. The transaction primitives (43_transaction_primitives R130 to R143): the whole run of each, the frame of one
step, the wrappers, and no second operation while one is in flight. -/

namespace Sys2Proof.Machine

/-! ### From handshake to handshake -/

/-- What a whole run of a primitive leaves behind: `es` are the events between its request and its response, `got`
the bytes the device returned, `busy'` and `rx'` the device's answers not yet used. -/
structure PrimitiveRan (i : Instr) (es : List Event) (got : List Byte) (busy' : List Level) (rx' : List Byte)
    (s t : State) : Prop where
  trace : t.trace = s.trace ++ ([.req i.core] ++ es ++ [.resp (returned i got)])
  csN : t.csN = .high
  idle : t.IsIdle
  mode : t.mode = s.mode
  resetN : t.resetN = s.resetN
  dbgTx : t.dbgTx = s.dbgTx
  dbgRx : t.dbgRx = s.dbgRx
  requests : t.requests = s.requests
  busy : t.env.busy = busy'
  rx : t.env.rx = rx'

/-- The state a primitive responds in, with the events `es` behind its acceptance: at the end of its micro-program,
chip-select high again, the received bytes in the staging registers. -/
def beforeResponse (i : Instr) (es : List Event) (got : List Byte) (busy' : List Level) (rx' : List Byte)
    (s : State) : State :=
  { s.latch i.core with
    csN := .high
    seq := ⟨some i.core, (frameOf s.cfg i).length + 8, 0⟩
    out := (received (frameOf s.cfg i) got ([], 0)).1
    statusOut := (received (frameOf s.cfg i) got ([], 0)).2
    env := { s.env with busy := busy', rx := rx' }
    trace := s.trace ++ [.req i.core] ++ es }

/-- The transaction of a primitive, from its acceptance to the end of its micro-program. -/
theorem run_primitive_transaction {i : Instr} {s : State} {a b : Nat} {got : List Byte} {busy' : List Level}
    {rx' : List Byte} (hp : isPrimitive i = true) (ha : waitFits s.cfg a) (hb : waitFits s.cfg b)
    (hbusy : s.env.busy = List.replicate a .high ++ .low :: (List.replicate b .high ++ .low :: busy'))
    (hrx : s.env.rx = got ++ rx') (hgot : got.length = (frameOf s.cfg i).length) :
    execFor (a + b + (frameOf s.cfg i).length + 8) i (s.latch i.core) = .next (beforeResponse i
      (waitEvents s.cfg a ++ csEvents .low ++ frameEvents (sentBytes s.cfg i) got ++ csEvents .high ++
        waitEvents s.cfg b) got busy' rx' s) := by
  have hprog : (uprog s.cfg i).drop 0 = transaction (frameOf s.cfg i) ++ [] := by simp [uprog_primitive hp]
  obtain ⟨hrun, _⟩ := run_transaction (i := i) (s := s.latch i.core) (frameOf_isXfer s.cfg i) rfl hprog rfl
    ha hb hbusy hrx hgot
  rw [hrun, ← frameOf_sent hp, beforeResponse]
  simp [State.latch]

/-- The response of a primitive whose micro-program is done. -/
theorem run_primitive_response {i : Instr} {es : List Event} {got : List Byte} {busy' : List Level} {rx' : List Byte}
    {s : State} (hp : isPrimitive i = true) (hidle : s.IsIdle) (hgot : got.length = frameLength i) :
    ∃ t, execFor 1 i (beforeResponse i es got busy' rx' s) = .next t ∧ PrimitiveRan i es got busy' rx' s t := by
  have hend : (uprog s.cfg i).length = (frameOf s.cfg i).length + 8 := by rw [uprog_primitive hp, transaction_length]
  have hresult : responseOf i (beforeResponse i es got busy' rx' s) = returned i got :=
    responseOf_frame hp (st := 0) (cfg := s.cfg) hgot rfl rfl
  obtain ⟨t, hrun, htr, hseq, hmode, hcs, hrst, htx, hrx, hrest, hreq, _, hbusy, hbytes⟩ :=
    run_response (i := i) (s := beforeResponse i es got busy' rx' s) rfl hend.symm
  refine ⟨t, hrun, ?_, hcs, ⟨hseq, hrest.trans hidle.2⟩, hmode, hrst, htx, hrx, hreq, hbusy, hbytes⟩
  rw [htr, hresult]
  simp [beforeResponse]

/-- Settles O20: acceptance, one transaction around the frame, the response. -/
theorem primitiveRunsFromHandshakeToHandshake : Obligations.PrimitiveRunsFromHandshakeToHandshake := by
  intro i s a b got busy' rx' hp hidle hcs hl ha hb hbusy hrx hgot
  have hlen := frameOf_length hl
  have haccept := run_accept_primitive hp hidle hcs hl
  have htransaction := run_primitive_transaction hp ha hb hbusy hrx (hgot.trans hlen.symm)
  obtain ⟨t, hresponse, h⟩ := run_primitive_response hp hidle hgot
  rw [hlen] at htransaction
  have hrun : execFor (a + b + frameLength i + 10) i s = .next t :=
    calc execFor (a + b + frameLength i + 10) i s
        = execFor (1 + ((a + b + frameLength i + 8) + 1)) i s := by congr 1; omega
      _ = execFor ((a + b + frameLength i + 8) + 1) i (s.latch i.core) := execFor_add haccept
      _ = execFor 1 i _ := execFor_add htransaction
      _ = .next t := hresponse
  exact ⟨t, hrun, by simpa using h.trace, h.csN, h.idle, h.mode, h.resetN, h.dbgTx, h.dbgRx, h.requests, h.busy,
    h.rx⟩

/-! ### Where one step moves a line or `MODE` -/

/-- From one state to the other the configuration and the queues stand, and each line and `MODE` moves only where the
sequencer is at an entry that writes it. -/
structure MovesOnlyAt (entry : MicroOp → Prop) (s t : State) : Prop where
  cfg : t.cfg = s.cfg
  requests : t.requests = s.requests
  csN : t.csN = s.csN ∨ ∃ l, entry (.cs l) ∧ t.csN = l
  resetN : t.resetN = s.resetN ∨ ∃ l, entry (.rst l) ∧ t.resetN = l
  sameMode : (∀ mode, ¬ entry (.modeW mode) ∧ ¬ entry (.dbgW mode)) → SameMode s t

theorem MovesOnlyAt.mono {entry entry' : MicroOp → Prop} {s t : State} (h : MovesOnlyAt entry s t)
    (hsub : ∀ m, entry m → entry' m) : MovesOnlyAt entry' s t where
  cfg := h.cfg
  requests := h.requests
  csN := h.csN.imp_right fun ⟨l, hat, hl⟩ => ⟨l, hsub _ hat, hl⟩
  resetN := h.resetN.imp_right fun ⟨l, hat, hl⟩ => ⟨l, hsub _ hat, hl⟩
  sameMode := fun hno => h.sameMode fun mode =>
    ⟨fun hat => (hno mode).1 (hsub _ hat), fun hat => (hno mode).2 (hsub _ hat)⟩

/-- A response moves nothing. -/
theorem Responded.movesNothing {r : Result} {s t : State} (h : Responded r s t) (entry : MicroOp → Prop) :
    MovesOnlyAt entry s t :=
  ⟨h.cfg, h.requests, .inl h.csN, .inl h.resetN, fun _ => h.sameMode⟩

/-- Only a `CS` entry writes `CS_N` and only an `RST` entry `RESET_N`; no entry takes a request from a queue: the
arbiter alone does (30_encoding R96, 60_exceptions R200). -/
theorem microStep_movesOnlyAt {m : MicroOp} {s t : State} (h : microStep m s = .next t) : MovesOnlyAt (m = ·) s t := by
  have hsame := microStep_sameMode h
  cases m with
  | cs l => cases h; exact ⟨rfl, rfl, .inr ⟨l, rfl, rfl⟩, .inl rfl, hsame⟩
  | rst l => cases h; exact ⟨rfl, rfl, .inl rfl, .inr ⟨l, rfl, rfl⟩, hsame⟩
  | wait =>
    cases h
    rcases poll_cases s with ⟨_, e⟩ | ⟨_, _, e⟩ | ⟨_, _, e⟩ <;> rw [e] at hsame ⊢ <;>
      exact ⟨rfl, rfl, .inl rfl, .inl rfl, hsame⟩
  | dbgW mode =>
    cases h
    rcases mirror_cases s mode with ⟨_, e⟩ | ⟨_, _, e⟩ | ⟨_, d, _, e⟩ <;> rw [e] at hsame ⊢
    · exact ⟨rfl, rfl, .inl rfl, .inl rfl, hsame⟩
    · generalize s.env.nextDbgFirst.1 = d at hsame ⊢
      cases d <;> exact ⟨rfl, rfl, .inl rfl, .inl rfl, hsame⟩
    · cases d <;> exact ⟨rfl, rfl, .inl rfl, .inl rfl, hsame⟩
  | tx | txs | rx =>
    simp only [microStep] at h
    obtain ⟨_, rfl⟩ := transfer_next h
    exact ⟨rfl, rfl, .inl rfl, .inl rfl, hsame⟩
  | settle | dlyMs | modeW =>
    cases h
    exact ⟨rfl, rfl, .inl rfl, .inl rfl, hsame⟩

/-- Acceptance moves nothing, nor does a response, be it the length fault; an entry moves what it writes. -/
theorem exec_movesOnlyAt {i : Instr} {s t : State} (h : exec i s = .next t) : MovesOnlyAt (s.isAt i) s t := by
  rcases exec_next_cases h with ⟨_, _, _, rfl⟩ | ⟨_, _, _, _, _, _, _, _, rfl⟩ | ⟨m, hat, hm⟩ | ⟨_, _, rfl⟩
  · exact ⟨rfl, rfl, .inl rfl, .inl rfl, fun _ => ⟨rfl, rfl, rfl, rfl⟩⟩
  · exact ⟨rfl, rfl, .inl rfl, .inl rfl, fun _ => ⟨rfl, rfl, rfl, rfl⟩⟩
  · refine (microStep_movesOnlyAt hm).mono ?_
    rintro _ rfl
    exact hat
  · exact (finish_responded _ s).movesNothing _

/-! ### The frame of a transaction's step -/

/-- The entries of a transaction write neither `RESET_N` nor `MODE` nor a debug line. -/
theorem MovesOnlyAt.of_transaction {entry : MicroOp → Prop} {s t : State} (h : MovesOnlyAt entry s t)
    (htrans : ∀ m, entry m → ofTransaction m = true) : SameMode s t ∧ t.resetN = s.resetN := by
  refine ⟨h.sameMode fun mode => ⟨fun hat => ?_, fun hat => ?_⟩, ?_⟩
  · cases htrans _ hat
  · cases htrans _ hat
  · rcases h.resetN with hrst | ⟨l, hat, _⟩
    · exact hrst
    · cases htrans _ hat

theorem isPrimitive_kind {i : Instr} (h : isPrimitive i = true) : modeCarried i = none ∧ i ≠ .resetDevice := by
  refine ⟨?_, ?_⟩
  · cases i <;> first | rfl | cases h
  · rintro rfl
    cases h

/-- Settles O33: the micro-programs of these operations are made of a transaction's entries alone. -/
theorem transactionsLeaveEverythingButChipSelectAndStaging :
    Obligations.TransactionsLeaveEverythingButChipSelectAndStaging := by
  intro i s t hi h
  have hkind : modeCarried i = none ∧ i ≠ .resetDevice := by
    rcases hi with hp | rfl | rfl
    · exact isPrimitive_kind hp
    · exact ⟨rfl, nofun⟩
    · exact ⟨rfl, nofun⟩
  have hmoves := exec_movesOnlyAt h
  obtain ⟨⟨hmode, htx, hrx, hrest⟩, hrst⟩ := hmoves.of_transaction fun m ⟨_, hm⟩ =>
    uprog_ofTransaction hkind.1 hkind.2 m (mem_of_at hm)
  exact ⟨hmode, hrst, htx, hrx, hrest, hmoves.cfg, hmoves.requests, hmoves.csN⟩

/-! ### One operation at a time -/

/-- With an operation in flight a meaning accepts nothing: it runs an entry or responds. -/
theorem exec_inFlight_noRequest {i op : Instr} {s t : State} (ho : s.seq.opl = some op) (h : exec i s = .next t) :
    NoRequest s t := by
  rcases exec_next_cases h with ⟨hn, _⟩ | ⟨hn, _⟩ | ⟨m, _, hm⟩ | ⟨_, _, rfl⟩
  · rw [ho] at hn; cases hn
  · rw [ho] at hn; cases hn
  · exact microStep_noRequest hm
  · exact (finish_responded _ s).noRequest

/-- Settles O12: the step is the meaning of the operation in flight, which takes no request; another meaning refuses. -/
theorem noOperationIsAcceptedInFlight : Obligations.NoOperationIsAcceptedInFlight := by
  refine ⟨fun s t op ho h => ?_, fun s op i ho hne => exec_other ho hne⟩
  rw [step_inFlight ho] at h
  exact ⟨(exec_movesOnlyAt h).requests, (exec_inFlight_noRequest ho h).trace⟩

/-! ### The wrappers -/

/-- Settles O43: a wrapper's core operation is the ranged primitive, and operations with one core have one meaning. -/
theorem wrappersAreRangedPrimitivesOfLengthOne : Obligations.WrappersAreRangedPrimitivesOfLengthOne := by
  intro addr v s
  refine ⟨(exec_core (.writeReg addr v) s).symm, (exec_core (.readReg addr) s).symm, rfl, rfl, ?_, ?_,
    fun b hout => ?_⟩
  · rw [uprog_primitive rfl]
    rfl
  · rw [uprog_primitive rfl]
    rfl
  · rw [responseOf, hout]

end Sys2Proof.Machine
end

section
/-! PROOFS. The Operating-Mode Tracker: who writes `MODE`, its history in the trace, the frame of one step of SET_MODE and
GET_MODE, the whole runs of both and of GET_OSC_WAKEUP_MS, the debug mux (44_mode_tracker R160 to R166). -/

namespace Sys2Proof.Machine

/-! ### Who writes `MODE` -/

/-- Acceptance and responses leave `MODE` and the debug lines, so what moves them is an entry. -/
theorem exec_sameMode_or_entry {i : Instr} {s t : State} (h : exec i s = .next t) :
    SameMode s t ∨ ∃ m, s.isAt i m ∧ microStep m s = .next t := by
  rcases exec_next_cases h with ⟨_, _, _, rfl⟩ | ⟨_, _, _, _, _, _, _, _, rfl⟩ | hentry | ⟨_, _, rfl⟩
  · exact .inl ⟨rfl, rfl, rfl, rfl⟩
  · exact .inl ⟨rfl, rfl, rfl, rfl⟩
  · exact .inr hentry
  · exact .inl (finish_responded _ s).sameMode

theorem mirror_mode (s : State) (mode : OperatingMode) : (s.mirror mode).mode = s.mode := by
  rcases mirror_cases s mode with ⟨_, e⟩ | ⟨_, _, e⟩ | ⟨_, d, _, e⟩ <;> rw [e]
  · rfl
  · cases s.env.nextDbgFirst.1 <;> rfl
  · cases d <;> rfl

/-- The one entry that writes `MODE` is `MODEW` (30_encoding R96). -/
theorem microStep_mode {m : MicroOp} {s t : State} (h : microStep m s = .next t) :
    t.mode = s.mode ∨ m = .modeW t.mode := by
  cases m with
  | modeW mode => cases h; exact .inr rfl
  | dbgW mode => cases h; exact .inl (mirror_mode s mode)
  | _ => exact .inl (microStep_sameMode h fun _ => ⟨nofun, nofun⟩).mode

/-- Settles O39: an entry that writes `MODE` is `MODEW`, and only SET_MODE's micro-program has one. -/
theorem onlySetModeWritesMode : Obligations.OnlySetModeWritesMode := by
  intro i s t h
  rcases exec_sameMode_or_entry h with hsame | ⟨m, hat, hm⟩
  · exact .inl hsame.mode
  · rcases microStep_mode hm with hkept | rfl
    · exact .inl hkept
    · obtain ⟨hi, _⟩ := uprog_at_mode.1 hat.2
      exact .inr ⟨t.mode, hi, hat, rfl⟩

/-! ### The history of `MODE` -/

theorem EntryEffect.upc_le {m : MicroOp} {s t : State} (h : EntryEffect m s t) :
    t.seq = Seq.idle ∨ (t.seq.opl = s.seq.opl ∧ s.seq.upc ≤ t.seq.upc) := by
  cases h with
  | advanced hopl hupc => exact .inr ⟨hopl, by omega⟩
  | stayed hopl hupc => exact .inr ⟨hopl, hupc.ge⟩
  | gaveUp _ hseq => exact .inl hseq

/-- The sequencer never goes back inside a micro-program (10_state R26). -/
theorem microStep_upc_le {m : MicroOp} {s t : State} (h : microStep m s = .next t) :
    t.seq = Seq.idle ∨ (t.seq.opl = s.seq.opl ∧ s.seq.upc ≤ t.seq.upc) := by
  cases m with
  | rx k => exact .inr (by simp [microStep_seq h nofun nofun])
  | _ => exact (microStep_effect h nofun).upc_le

/-- With an operation in flight a step responds, or keeps it in flight without going back. -/
theorem exec_inFlight_upc_le {i op : Instr} {s t : State} (ho : s.seq.opl = some op) (h : exec i s = .next t) :
    t.seq = Seq.idle ∨ (t.seq.opl = s.seq.opl ∧ s.seq.upc ≤ t.seq.upc) := by
  rcases exec_next_cases h with ⟨hn, _⟩ | ⟨hn, _⟩ | ⟨m, _, hm⟩ | ⟨_, _, rfl⟩
  · rw [ho] at hn; cases hn
  · rw [ho] at hn; cases hn
  · exact microStep_upc_le hm
  · exact .inl (finish_responded _ s).seq

/-- The request of any other operation leaves the last commanded mode. -/
theorem lastCommanded_req {i : Instr} (h : modeCarried i = none) (mode : OperatingMode) :
    lastCommanded mode [.req i.core] = mode := by
  cases i <;> first | rfl | cases h

theorem modeCarried_of_length {i : Instr} {x : Nat × Nat} (h : lengthAndCapacity i = some x) :
    modeCarried i = none := by
  cases i <;> first | rfl | cases h

theorem modeCarried_some {i : Instr} {mode : OperatingMode} (h : modeCarried i = some mode) : i = .setMode mode := by
  cases i <;> cases h; rfl

/-- In flight: the store catches up with the trace, every other step leaves `MODE` and the commands as they are. -/
theorem exec_inFlight_keeps_modeFollowsTrace {op : Instr} {s t : State} (ho : s.seq.opl = some op)
    (h : exec op s = .next t) (hinv : ModeFollowsTrace s) : ModeFollowsTrace t := by
  rcases hinv with ⟨mode, es, hseq, htr, _⟩ | ⟨hstored, hmode⟩
  · obtain rfl : op = .setMode mode := by rw [hseq] at ho; cases ho; rfl
    have hat : s.isAt (.setMode mode) (.modeW mode) := ⟨ho, by rw [hseq, uprog_setMode]; rfl⟩
    rw [exec_isAt hat] at h
    cases h
    refine .inr ⟨fun _ _ => Nat.succ_ne_zero _, ?_⟩
    rw [State.advance_trace, htr, lastCommanded_append]
    rfl
  · have hkept : t.mode = s.mode := by
      rcases onlySetModeWritesMode op s t h with hkept | ⟨mode, _, hat, _⟩
      · exact hkept
      · obtain ⟨rfl, hupc⟩ := uprog_at_mode.1 hat.2
        exact absurd hupc (hstored mode hat.1)
    refine .inr ⟨fun mode hopl => ?_, ?_⟩
    · rcases exec_inFlight_upc_le ho h with hseq | ⟨hopl', hupc⟩
      · simp [hseq, Seq.idle] at hopl
      · have := hstored mode (hopl' ▸ hopl)
        omega
    · rw [hkept, hmode, (exec_inFlight_noRequest ho h).lastCommanded_eq]

/-- Idle: the acceptance of a SET_MODE puts the trace ahead of `MODE`; no other request commands a mode. -/
theorem exec_idle_keeps_modeFollowsTrace {i : Instr} {s t : State} (ho : s.seq.opl = none) (h : exec i s = .next t)
    (hmode : s.mode = lastCommanded s.cfg.modeReset s.trace) : ModeFollowsTrace t := by
  rcases exec_next_cases h with ⟨_, _, _, rfl⟩ | ⟨_, _, _, len, capacity, hlen, _, _, rfl⟩ | ⟨m, ⟨hn, _⟩, _⟩ | ⟨hn, _⟩
  · rcases hc : modeCarried i with _ | mode
    · refine .inr ⟨fun mode hopl => ?_, ?_⟩
      · cases i <;> cases hopl
        cases hc
      · rw [State.latch_trace, lastCommanded_append, lastCommanded_req hc]
        exact hmode
    · obtain rfl := modeCarried_some hc
      exact .inl ⟨mode, s.trace, rfl, rfl, hmode⟩
  · obtain ⟨htr, hseq, hsame, _, _, _, hcfg⟩ := latch_raise_responded s i.core (.invalidArgument len capacity)
    refine .inr ⟨fun mode hopl => ?_, ?_⟩
    · simp [hseq, Seq.idle] at hopl
    · rw [hsame.mode, hcfg, htr, State.latch_trace, lastCommanded_append, lastCommanded_append,
        lastCommanded_req (modeCarried_of_length hlen)]
      exact hmode
  · rw [ho] at hn; cases hn
  · rw [ho] at hn; cases hn

theorem modeFollowsTrace_idle {s : State} (ho : s.seq.opl = none) :
    ModeFollowsTrace s ↔ s.mode = lastCommanded s.cfg.modeReset s.trace := by
  refine ⟨fun h => ?_, fun h => .inr ⟨fun mode hopl => ?_, h⟩⟩
  · rcases h with ⟨mode, es, hseq, _⟩ | ⟨_, hmode⟩
    · simp [hseq] at ho
    · exact hmode
  · simp [ho] at hopl

/-- Settles O5: in flight by the store or a step that leaves `MODE`, idle by acceptance behind the grant. -/
theorem stepKeepsModeTheLastCommanded : Obligations.StepKeepsModeTheLastCommanded := by
  intro s t hinv h
  rcases step_next_cases h with ⟨op, ho, he⟩ | ⟨_, _, rfl⟩ | ⟨ho, r, g, i, hg, _, he⟩
  · exact exec_inFlight_keeps_modeFollowsTrace ho he hinv
  · exact hinv
  · obtain ⟨q, _, rest, env, _, rfl, _⟩ := grantNext_some hg
    refine exec_idle_keeps_modeFollowsTrace ?_ he ?_
    · exact ho
    · exact (modeFollowsTrace_idle ho).mp hinv

/-! ### The frame of one step -/

/-- Everything outside the tracker is the same in two states: the configuration, the two bus lines, the queues, the
device's answers (44_mode_tracker R160, R161). -/
structure BusUntouched (s t : State) : Prop where
  cfg : t.cfg = s.cfg
  csN : t.csN = s.csN
  resetN : t.resetN = s.resetN
  requests : t.requests = s.requests
  busy : t.env.busy = s.env.busy
  rx : t.env.rx = s.env.rx

theorem BusUntouched.trans {s t u : State} (h : BusUntouched s t) (h' : BusUntouched t u) : BusUntouched s u :=
  ⟨h'.cfg.trans h.cfg, h'.csN.trans h.csN, h'.resetN.trans h.resetN, h'.requests.trans h.requests,
    h'.busy.trans h.busy, h'.rx.trans h.rx⟩

/-- An operation without wait whose micro-program drives neither bus line touches nothing outside the tracker. -/
theorem exec_busUntouched {i : Instr} {s t : State} (hwait : neverWaits i = true)
    (hdrive : ∀ m ∈ uprog s.cfg i, drivesNothing m = true) (h : exec i s = .next t) : BusUntouched s t := by
  obtain ⟨hcfg, hreq, hcs, hrst, _⟩ := exec_movesOnlyAt h
  obtain ⟨hbusy, hrx, _⟩ := operationsWithoutWaitNeverTouchTheDevice i s t hwait h
  refine ⟨hcfg, ?_, ?_, hreq, hbusy, hrx⟩
  · rcases hcs with hkept | ⟨l, hat, _⟩
    · exact hkept
    · cases hdrive _ (mem_of_at hat.2)
  · rcases hrst with hkept | ⟨l, hat, _⟩
    · exact hkept
    · cases hdrive _ (mem_of_at hat.2)

theorem exec_setMode_busUntouched {mode : OperatingMode} {s t : State} (h : exec (.setMode mode) s = .next t) :
    BusUntouched s t :=
  exec_busUntouched rfl (by simp [uprog_setMode, drivesNothing]) h

/-- Without `DEBUG_EN` the block has no debug outputs to drive (10_state R24, 44_mode_tracker R164). -/
theorem microStep_debugLines_of_off {m : MicroOp} {s t : State} (hoff : s.cfg.debugEn = false)
    (h : microStep m s = .next t) : t.dbgTx = s.dbgTx ∧ t.dbgRx = s.dbgRx := by
  cases m with
  | modeW mode => cases h; exact ⟨rfl, rfl⟩
  | dbgW mode => cases h; rw [mirror_off mode hoff]; exact ⟨rfl, rfl⟩
  | _ =>
    have hsame := microStep_sameMode h fun _ => ⟨nofun, nofun⟩
    exact ⟨hsame.dbgTx, hsame.dbgRx⟩

theorem exec_debugLines_of_off {i : Instr} {s t : State} (hoff : s.cfg.debugEn = false) (h : exec i s = .next t) :
    t.dbgTx = s.dbgTx ∧ t.dbgRx = s.dbgRx := by
  rcases exec_sameMode_or_entry h with hsame | ⟨m, _, hm⟩
  · exact ⟨hsame.dbgTx, hsame.dbgRx⟩
  · exact microStep_debugLines_of_off hoff hm

/-- An empty micro-program moves neither `MODE` nor a debug line. -/
theorem exec_sameMode_of_empty {i : Instr} {s t : State} (hempty : uprog s.cfg i = []) (h : exec i s = .next t) :
    SameMode s t := by
  rcases exec_sameMode_or_entry h with hsame | ⟨m, ⟨_, hm⟩, _⟩
  · exact hsame
  · simp [hempty] at hm

/-- Settles O35: the two micro-programs drive no bus line, GET_MODE's is empty, and the mirror is off without
`DEBUG_EN`. -/
theorem modeTrackerLeavesBusAndLines : Obligations.ModeTrackerLeavesBusAndLines := by
  refine ⟨fun mode s t h => ?_, fun s t h => ?_⟩
  · obtain ⟨hcfg, hcs, hrst, hreq, hbusy, hrx⟩ := exec_setMode_busUntouched h
    have hmode : t.mode = s.mode ∨ t.mode = mode := by
      rcases onlySetModeWritesMode _ s t h with hkept | ⟨_, ⟨⟩, _, hset⟩
      · exact .inl hkept
      · exact .inr hset
    exact ⟨hcs, hrst, hcfg, hreq, hbusy, hrx, hmode, fun hoff => exec_debugLines_of_off hoff h⟩
  · obtain ⟨hcfg, hcs, hrst, hreq, hbusy, hrx⟩ := exec_busUntouched (i := .getMode) rfl nofun h
    obtain ⟨hmode, htx, hrx', _⟩ := exec_sameMode_of_empty (i := .getMode) rfl h
    exact ⟨hcs, hrst, hcfg, hreq, hbusy, hrx, hmode, htx, hrx'⟩

/-! ### Whole runs -/

/-- What a run of a query leaves behind: one request, one response, and nothing else (44_mode_tracker R161). -/
structure QueryRan (i : Instr) (r : Result) (s t : State) : Prop where
  trace : t.trace = s.trace ++ [.req i, .resp r]
  idle : t.IsIdle
  sameMode : SameMode s t
  bus : BusUntouched s t

/-- An operation with an empty micro-program responds in the step after its acceptance. -/
theorem run_query {i : Instr} {s : State} (hidle : s.IsIdle) (hcore : i.core = i) (hstart : mayStartWith i s.csN)
    (hlen : lengthAndCapacity i = none) (hempty : uprog s.cfg i = []) :
    ∃ t, execFor 2 i s = .next t ∧ QueryRan i (responseOf i (s.latch i)) s t := by
  obtain ⟨hseq, hrest⟩ := hidle
  have haccept := run_accept (i := i) (by rw [hseq]; rfl) hstart (by simp [lengthFits, hlen])
  rw [hcore] at haccept
  obtain ⟨t, hresponse, htr, htseq, hmode, hcs, hrst, htx, hrx, htrest, hreq, hcfg, hbusy, hbytes⟩ :=
    run_response (i := i) (s := s.latch i) (by rw [hcore]; rfl) (by simp [hempty])
  refine ⟨t, (execFor_add (b := 1) haccept).trans hresponse, ?_, ⟨htseq, htrest.trans hrest⟩,
    ⟨hmode, htx, hrx, htrest⟩, hcfg, hcs, hrst, hreq, hbusy, hbytes⟩
  rw [htr]
  simp

/-- Settles O24: GET_MODE's response reads `MODE`, GET_OSC_WAKEUP_MS's the configuration. -/
theorem queriesReturnTheirValue : Obligations.QueriesReturnTheirValue := by
  intro s hidle
  constructor
  · obtain ⟨t, hrun, htr, htidle, ⟨hmode, htx, hrx, _⟩, ⟨_, hcs, hrst, hreq, hbusy, hbytes⟩⟩ :=
      run_query (i := .getMode) hidle rfl trivial rfl rfl
    exact ⟨t, hrun, htr, htidle, hmode, hcs, hrst, htx, hrx, hreq, hbusy, hbytes⟩
  · obtain ⟨t, hrun, htr, htidle, ⟨hmode, htx, hrx, _⟩, ⟨_, hcs, hrst, hreq, hbusy, hbytes⟩⟩ :=
      run_query (i := .getOscWakeupMs) hidle rfl trivial rfl rfl
    exact ⟨t, hrun, htr, htidle, hmode, hcs, hrst, htx, hrx, hreq, hbusy, hbytes⟩

theorem execFor_setMode_busUntouched {mode : OperatingMode} {n : Nat} {s t : State}
    (h : execFor n (.setMode mode) s = .next t) : BusUntouched s t := by
  induction n generalizing s with
  | zero => cases h; exact ⟨rfl, rfl, rfl, rfl, rfl, rfl⟩
  | succ n ih =>
    simp only [execFor] at h
    split at h
    · next u hu => exact (exec_setMode_busUntouched hu).trans (ih h)
    · cases h
    · cases h

/-- SET_MODE accepted and `MODE` stored, the debug writes to come (44_mode_tracker R163). -/
def State.stored (s : State) (mode : OperatingMode) : State :=
  ({ s.latch (.setMode mode) with mode := mode } : State).advance

/-- The acceptance and the store. -/
theorem run_store {s : State} (hidle : s.IsIdle) (mode : OperatingMode) :
    execFor 2 (.setMode mode) s = .next (s.stored mode) := by
  have haccept : execFor 1 (.setMode mode) s = .next (s.latch (.setMode mode)) :=
    run_accept (i := .setMode mode) (by rw [hidle.1]; rfl) trivial (by simp [lengthFits, lengthAndCapacity])
  have hat : (s.latch (.setMode mode)).isAt (.setMode mode) (.modeW mode) := ⟨rfl, rfl⟩
  exact (execFor_add (b := 1) haccept).trans (execFor_one (exec_isAt hat))

/-- SET_MODE stands at its `DBGW`. -/
theorem run_mirror {s : State} {mode : OperatingMode} (hseq : s.seq = ⟨some (.setMode mode), 1, 0⟩) :
    execFor 1 (.setMode mode) s = .next (s.mirror mode) := by
  have hat : s.isAt (.setMode mode) (.dbgW mode) := ⟨by rw [hseq]; rfl, by rw [hseq, uprog_setMode]; rfl⟩
  exact execFor_one (exec_isAt hat)

theorem SameMode.dbgLine {s t : State} (h : SameMode s t) (d : DbgSignal) : t.dbgLine d = s.dbgLine d := by
  cases d
  · exact h.dbgTx
  · exact h.dbgRx

/-- What SET_MODE's response adds: the event, and an idle sequencer. -/
theorem run_setMode_response {s : State} {mode : OperatingMode} (hseq : s.seq = ⟨some (.setMode mode), 2, 0⟩) :
    ∃ t, execFor 1 (.setMode mode) s = .next t ∧ t.trace = s.trace ++ [.resp (.done 0 [])] ∧ t.seq = Seq.idle ∧
      SameMode s t := by
  obtain ⟨t, hrun, htr, htseq, hmode, _, _, htx, hrx, hrest, _⟩ :=
    run_response (i := .setMode mode) (s := s) (by rw [hseq]; rfl) (by rw [hseq]; rfl)
  exact ⟨t, hrun, htr, htseq, hmode, htx, hrx, hrest⟩

/-- Settles O23: acceptance, the store, the mirror skipped, the response. -/
theorem setModeWithoutMirrorWritesModeAlone : Obligations.SetModeWithoutMirrorWritesModeAlone := by
  intro mode s hidle hoff
  have hskip : execFor 1 (.setMode mode) (s.stored mode) = .next (s.stored mode).advance := by
    rw [run_mirror rfl, mirror_off (s := s.stored mode) mode hoff]
  obtain ⟨t, hresponse, htr, hseq, hsame⟩ := run_setMode_response (s := (s.stored mode).advance) (mode := mode) rfl
  have hrun : execFor (2 + (1 + 1)) (.setMode mode) s = .next t :=
    calc execFor (2 + (1 + 1)) (.setMode mode) s
        = execFor (1 + 1) (.setMode mode) (s.stored mode) := execFor_add (run_store hidle mode)
      _ = execFor 1 (.setMode mode) (s.stored mode).advance := execFor_add hskip
      _ = .next t := hresponse
  obtain ⟨_, hcs, hrst, hreq, hbusy, hrx⟩ := execFor_setMode_busUntouched hrun
  refine ⟨t, hrun, hsame.mode, ?_, hsame.dbgTx, hsame.dbgRx, ⟨hseq, hsame.dbgRest.trans hidle.2⟩, hcs, hrst, hreq,
    hbusy, hrx⟩
  rw [htr]
  simp [State.stored]

/-- One of the two debug writes is done: its line shows the mode, the other stands, `MODE` stands. -/
structure DebugWritten (mode : OperatingMode) (d : DbgSignal) (s t : State) : Prop where
  line : t.dbgLine d = dbgLevel mode d
  other : t.dbgLine d.other = s.dbgLine d.other
  trace : t.trace = s.trace ++ [.dbgWrite d (dbgLevel mode d)]
  mode : t.mode = s.mode

theorem mirror_debugWritten {s : State} {d : DbgSignal} (mode : OperatingMode) (hen : s.cfg.debugEn = true)
    (hd : s.dbgRest = some d ∨ (s.dbgRest = none ∧ s.env.nextDbgFirst.1 = d)) :
    DebugWritten mode d s (s.mirror mode) := by
  obtain ⟨hline, hother, htr⟩ := mirror_writes mode hen hd
  exact ⟨hline, hother, htr, mirror_mode s mode⟩

/-- The first write stays at its entry and leaves the other owed. -/
theorem mirror_first {s : State} {d : DbgSignal} (mode : OperatingMode) (hen : s.cfg.debugEn = true)
    (hrest : s.dbgRest = none) (hd : s.env.nextDbgFirst.1 = d) :
    (s.mirror mode).seq = s.seq ∧ (s.mirror mode).dbgRest = some d.other := by
  simp only [State.mirror, hen, hrest, hd]
  cases d <;> exact ⟨rfl, rfl⟩

/-- The second write ends the entry. -/
theorem mirror_second {s : State} {d : DbgSignal} (mode : OperatingMode) (hen : s.cfg.debugEn = true)
    (hrest : s.dbgRest = some d) :
    (s.mirror mode).seq = { s.seq with upc := s.seq.upc + 1 } ∧ (s.mirror mode).dbgRest = none := by
  simp only [State.mirror, hen, hrest]
  cases d <;> exact ⟨rfl, rfl⟩

/-- From the acceptance to the instant between the two debug writes. -/
theorem run_firstWrite {s : State} {mode : OperatingMode} {d : DbgSignal} (hidle : s.IsIdle)
    (hen : s.cfg.debugEn = true) (hd : s.env.nextDbgFirst.1 = d) :
    ∃ u, execFor 3 (.setMode mode) s = .next u ∧ DebugWritten mode d (s.stored mode) u ∧
      u.seq = ⟨some (.setMode mode), 1, 0⟩ ∧ u.dbgRest = some d.other := by
  obtain ⟨hseq, hrest⟩ := mirror_first (s := s.stored mode) mode hen hidle.2 hd
  exact ⟨_, (execFor_add (b := 1) (run_store hidle mode)).trans (run_mirror rfl),
    mirror_debugWritten mode hen (.inr ⟨hidle.2, hd⟩), hseq, hrest⟩

/-- From the instant between the two debug writes to the response. -/
theorem run_secondWrite {u : State} {mode : OperatingMode} {d : DbgSignal} (hen : u.cfg.debugEn = true)
    (hseq : u.seq = ⟨some (.setMode mode), 1, 0⟩) (hrest : u.dbgRest = some d) :
    ∃ v t, execFor 2 (.setMode mode) u = .next t ∧ DebugWritten mode d u v ∧ SameMode v t ∧ t.IsIdle ∧
      t.trace = v.trace ++ [.resp (.done 0 [])] := by
  obtain ⟨hvseq, hvrest⟩ := mirror_second mode hen hrest
  rw [hseq] at hvseq
  obtain ⟨t, hresponse, htr, htseq, hsame⟩ := run_setMode_response hvseq
  exact ⟨u.mirror mode, t, (execFor_add (b := 1) (run_mirror hseq)).trans hresponse,
    mirror_debugWritten mode hen (.inl hrest), hsame, ⟨htseq, hsame.dbgRest.trans hvrest⟩, htr⟩

/-- Settles O22: the line that comes first, then the one still owed; after both each has its level. -/
theorem setModeMirrorsInEitherOrder : Obligations.SetModeMirrorsInEitherOrder := by
  intro mode s d hidle hen hd
  obtain ⟨u, hfirst, hu, huseq, hurest⟩ := run_firstWrite (mode := mode) hidle hen hd
  have huen : u.cfg.debugEn = true := by rw [(execFor_setMode_busUntouched hfirst).cfg, hen]
  obtain ⟨v, t, hsecond, hv, hsame, htidle, htr⟩ := run_secondWrite huen huseq hurest
  have hrun : execFor (3 + 2) (.setMode mode) s = .next t := (execFor_add hfirst).trans hsecond
  obtain ⟨hcfg, hcs, hrst, hreq, hbusy, hrx⟩ := execFor_setMode_busUntouched hrun
  refine ⟨⟨u, hfirst, hu.mode, hu.line, hu.other, ?_⟩, t, hrun, ?_, ?_, ?_, htidle, hcs, hrst, hreq, hbusy, hrx⟩
  · rw [hu.trace]
    simp [State.stored]
  · rw [hsame.mode, hv.mode, hu.mode]
    rfl
  · have hline : v.dbgLine d = dbgLevel mode d := by simpa [hu.line] using hv.other
    have hshows : debugShows t mode :=
      debugShows_of_dbgLine d ((hsame.dbgLine d).trans hline) ((hsame.dbgLine d.other).trans hv.line)
    exact hshows (hcfg ▸ hen)
  · rw [htr, hv.trace, hu.trace]
    simp [State.stored]

/-! ### The debug mux -/

/-- `DBG_TX` shows transmitting (44_mode_tracker R162). -/
theorem dbg_tx_high_iff (m : OperatingMode) : (dbg m).1 = .high ↔ m = .tx := by cases m <;> decide

/-- `DBG_RX` shows receiving, continuous or duty-cycled (44_mode_tracker R162). -/
theorem dbg_rx_high_iff (m : OperatingMode) : (dbg m).2 = .high ↔ m = .rx ∨ m = .rxDutyCycle := by
  cases m <;> decide

/-- No two modes have one number (30_encoding R94). -/
theorem toBits_inj {m m' : OperatingMode} : m.toBits = m'.toBits ↔ m = m' :=
  (Function.LeftInverse.injective ofBits_toBits).eq_iff

/-- Settles O42: TX is the mode of number 4, RX and RX_DUTY_CYCLE those of 5 and 6; and SET_MODE leaves both lines at
the levels of its mode whichever comes first. -/
theorem debugMuxShowsTransmittingOrReceiving : Obligations.DebugMuxShowsTransmittingOrReceiving := by
  refine ⟨fun m => ⟨dbg_tx_high_iff m, dbg_rx_high_iff m, ?_, ?_, ?_⟩, fun m s hidle hen => ?_⟩
  · rw [dbg_tx_high_iff, ← toBits_inj]
    rfl
  · rw [dbg_rx_high_iff, ← toBits_inj, ← toBits_inj]
    rfl
  · rw [dbg_tx_high_iff, dbg_rx_high_iff]
    rintro ⟨rfl, h | h⟩ <;> cases h
  · obtain ⟨_, t, hrun, _, hlines, _, htidle, _⟩ := setModeMirrorsInEitherOrder m s _ hidle hen rfl
    have hen' : t.cfg.debugEn = true := by rw [(execFor_setMode_busUntouched hrun).cfg, hen]
    exact ⟨t, hrun, htidle, by simp [State.dbgLines, hen', hlines]⟩

end Sys2Proof.Machine
end

section
/-! PROOFS. The Calibration/Startup Sequencer: the frame of one step of RESET_DEVICE and GET_OSC_WAKEUP_MS, the whole runs
of RESET_DEVICE and INIT_OSC_CTRL (45_startup_sequencer R170 to R175). -/

namespace Sys2Proof.Machine

/-! ### The frame of one step -/

/-- Every operation but SET_MODE leaves `MODE` and the debug lines in every step. -/
theorem exec_sameMode_of_modeCarried {i : Instr} {s t : State} (hi : modeCarried i = none) (h : exec i s = .next t) :
    SameMode s t := by
  have hne : ∀ mode, i ≠ .setMode mode := by
    rintro mode rfl
    cases hi
  exact (exec_movesOnlyAt h).sameMode fun mode =>
    ⟨fun hat => hne mode (uprog_at_mode.1 hat.2).1, fun hat => hne mode (uprog_at_mode.2 hat.2).1⟩

/-- A step of an operation whose micro-program has no `CS` entry leaves `CS_N`. -/
theorem exec_csN_of_not_mem {i : Instr} {s t : State} (hi : ∀ l, .cs l ∉ uprog s.cfg i) (h : exec i s = .next t) :
    t.csN = s.csN := by
  rcases (exec_movesOnlyAt h).csN with hkept | ⟨l, hat, _⟩
  · exact hkept
  · exact absurd (mem_of_at hat.2) (hi l)

/-- The staging registers in a step of an operation that receives no byte: `OUT` emptied at acceptance, both as they were
while the operation stays in flight (10_state R30). -/
theorem exec_staging_of_neverWaits {i : Instr} {s t : State} (hi : neverWaits i = true) (h : exec i s = .next t) :
    (s.seq.opl = none → t.out = []) ∧
      (s.seq.opl ≠ none → t.seq.opl ≠ none → t.out = s.out ∧ t.statusOut = s.statusOut) := by
  rcases exec_next_cases h with ⟨ho, _, _, rfl⟩ | ⟨_, _, _, _, _, hlen, _⟩ | ⟨m, hat, hm⟩ | ⟨ho, _, rfl⟩
  · exact ⟨fun _ => rfl, fun hne => absurd ho hne⟩
  · simp [lengthAndCapacity_neverWaits hi] at hlen
  · obtain ⟨_, hx⟩ := uprog_neverWaits hi m (mem_of_at hat.2)
    refine ⟨fun hn => by simp [hat.1] at hn, fun _ hflight => ?_⟩
    obtain ⟨hout, hstatus⟩ := microStep_staging hm hflight
    refine ⟨hout fun k => ?_, hstatus fun b => ?_⟩
    · rintro rfl
      cases hx
    · rintro rfl
      cases hx
  · exact ⟨fun hn => by simp [ho] at hn, fun _ hflight => by simp [(finish_responded _ s).seq, Seq.idle] at hflight⟩

/-- The pulse of 45_startup_sequencer R172: the line's idle level, low, the delay, high, the delay. -/
theorem uprog_resetDevice (cfg : Config) : uprog cfg .resetDevice =
    [.rst .high, .rst .low, .dlyMs cfg.tResetLowMs, .rst .high, .dlyMs cfg.tResetReleaseMs] := rfl

/-- Settles O36: neither micro-program holds an entry that writes `MODE`, a debug line or `CS_N`, or one that touches the
device. -/
theorem resetDeviceLeavesEverythingButTheResetLineAndStaging :
    Obligations.ResetDeviceLeavesEverythingButTheResetLineAndStaging := by
  intro i s t hi h
  have hkind : modeCarried i = none ∧ neverWaits i = true := by rcases hi with rfl | rfl <;> exact ⟨rfl, rfl⟩
  have hnoCs : ∀ l, .cs l ∉ uprog s.cfg i := by
    rcases hi with rfl | rfl
    · simp [uprog_resetDevice]
    · exact fun _ => nofun
  obtain ⟨hmode, htx, hrx, hrest⟩ := exec_sameMode_of_modeCarried hkind.1 h
  obtain ⟨hbusy, hbytes, _⟩ := operationsWithoutWaitNeverTouchTheDevice i s t hkind.2 h
  obtain ⟨haccepted, hinFlight⟩ := exec_staging_of_neverWaits hkind.2 h
  have hmoves := exec_movesOnlyAt h
  exact ⟨hmode, exec_csN_of_not_mem hnoCs h, htx, hrx, hrest, hmoves.cfg, hmoves.requests, hbusy, hbytes, hmoves.resetN,
    haccepted, hinFlight⟩

/-! ### From acceptance to response -/

/-- An operation with no length is not refused for one (43_transaction_primitives R139). -/
theorem lengthFits_of_none {cfg : Config} {i : Instr} (h : lengthAndCapacity i = none) : lengthFits cfg i := by
  simp [lengthFits, h]

/-- What the response of an operation leaves of the state `u` its last entry led to. -/
structure RespondedFrom (i : Instr) (u t : State) : Prop where
  trace : t.trace = u.trace ++ [.resp (responseOf i u)]
  seq : t.seq = Seq.idle
  sameMode : SameMode u t
  bus : BusUntouched u t

/-- An operation accepted from an idle controller, whose `n` steps behind the acceptance lead to `u`, at the end of its
micro-program. -/
theorem run_acceptedToResponse {i : Instr} {s u : State} {n : Nat} (hidle : s.IsIdle) (hstart : mayStartWith i s.csN)
    (hlen : lengthFits s.cfg i) (hentries : execFor n i (s.latch i.core) = .next u) (hopl : u.seq.opl = some i.core)
    (hupc : u.seq.upc = (uprog u.cfg i).length) : ∃ t, execFor (n + 2) i s = .next t ∧ RespondedFrom i u t := by
  have haccept := run_accept (by rw [hidle.1]; rfl) hstart hlen
  obtain ⟨t, hresponse, htr, hseq, hmode, hcs, hrst, htx, hrx, hrest, hreq, hcfg, hbusy, hbytes⟩ :=
    run_response hopl hupc
  refine ⟨t, ?_, htr, hseq, ⟨hmode, htx, hrx, hrest⟩, hcfg, hcs, hrst, hreq, hbusy, hbytes⟩
  calc execFor (n + 2) i s
      = execFor (1 + (n + 1)) i s := by congr 1; omega
    _ = execFor (n + 1) i (s.latch i.core) := execFor_add haccept
    _ = execFor 1 i u := execFor_add hentries
    _ = .next t := hresponse

/-! ### RESET_DEVICE -/

/-- Both delays of the pulse are at least 10 ms under a valid configuration (45_startup_sequencer R172). -/
theorem resetDelays_of_valid {cfg : Config} (h : cfg.valid = true) :
    10 ≤ cfg.tResetLowMs ∧ 10 ≤ cfg.tResetReleaseMs := by
  simp only [Config.valid, decide_eq_true_eq] at h
  obtain ⟨_, _, _, hlow, hrelease, _⟩ := h
  exact ⟨hlow, hrelease⟩

/-- Settles O25: the five entries drive the line and delay, one step and one event each. -/
theorem resetDevicePulsesTheResetLine : Obligations.ResetDevicePulsesTheResetLine := by
  intro s hidle hcs
  have hentries := run_lines (i := .resetDevice) (rest := []) (uprog s.cfg .resetDevice) (s.latch .resetDevice)
    (by simp [uprog_resetDevice, drivesLines]) rfl (List.append_nil _).symm
  obtain ⟨t, hrun, htr, hseq, ⟨hmode, htx, hrx, hrest⟩, ⟨hcfg, htcs, hrst, _, hbusy, hbytes⟩⟩ :=
    run_acceptedToResponse (i := .resetDevice) hidle hcs (lengthFits_of_none rfl) hentries rfl (Nat.zero_add _)
  refine ⟨resetDelays_of_valid, t, hrun, ?_, hrst, ⟨hseq, hrest.trans hidle.2⟩, hmode, htcs, htx, hrx, hcfg, hbusy,
    hbytes⟩
  rw [htr]
  simp [uprog_resetDevice, lineEvent, responseOf]

/-! ### INIT_OSC_CTRL -/

theorem send_byteSent (cfg : Config) (bs : List Byte) : (send bs).map (byteSent cfg) = bs := by
  simp [send, Function.comp_def, byteSent]

/-- The events of a transaction that sends `bs` and receives `got`, to a device busy for `a` polls before it and `b` after
(43_transaction_primitives R130). -/
def transactionEvents (cfg : Config) (a b : Nat) (bs got : List Byte) : List Event :=
  waitEvents cfg a ++ csEvents .low ++ frameEvents bs got ++ csEvents .high ++ waitEvents cfg b

/-- The state a transaction of `n` bytes that are only sent leads to: chip-select high again, its events appended, the
device's answers to it used up. -/
def State.transacted (s : State) (n : Nat) (es : List Event) (busy' : List Level) (rx' : List Byte) : State :=
  { s with
    csN := .high
    seq := { s.seq with upc := s.seq.upc + (n + 8) }
    env := { s.env with busy := busy', rx := rx' }
    trace := s.trace ++ es }

/-- One whole transaction that only sends, from anywhere in a micro-program: what it receives is discarded, so the staging
registers stand (30_encoding R86). -/
theorem run_sendTransaction {i : Instr} {s : State} {bs got : List Byte} {rest : List MicroOp} {a b : Nat}
    {busy' : List Level} {rx' : List Byte} (ho : s.seq.opl = some i.core)
    (hd : (uprog s.cfg i).drop s.seq.upc = transaction (send bs) ++ rest) (hp : s.seq.pollCnt = 0)
    (ha : waitFits s.cfg a) (hb : waitFits s.cfg b)
    (hbusy : s.env.busy = List.replicate a .high ++ .low :: (List.replicate b .high ++ .low :: busy'))
    (hrx : s.env.rx = got ++ rx') (hgot : got.length = bs.length) :
    execFor (a + b + bs.length + 8) i s =
        .next (s.transacted bs.length (transactionEvents s.cfg a b bs got) busy' rx') ∧
      (uprog s.cfg i).drop (s.seq.upc + (bs.length + 8)) = rest := by
  have hrun := run_transaction (send_isXfer bs) ho hd hp ha hb hbusy hrx (hgot.trans (send_length bs).symm)
  simp only [send_length, received_send, send_byteSent] at hrun
  exact hrun

/-- The bytes of the oscillator frame (45_startup_sequencer R171, D18). -/
def oscCtrlFrame (cfg : Config) : List Byte := cfg.opcSetOscCtrl :: oscCtrlPayload cfg

/-- The bytes of the calibration frame (45_startup_sequencer R171). -/
def calibrateFrame (cfg : Config) : List Byte := [cfg.opcCalibrate, cfg.calAll]

/-- The two transactions by the bytes they send. -/
theorem uprog_initOscCtrl_send (cfg : Config) : uprog cfg .initOscCtrl =
    transaction (send (oscCtrlFrame cfg)) ++ transaction (send (calibrateFrame cfg)) := rfl

/-- Settles O26: the second transaction starts where the first ends, and ends the micro-program. -/
theorem initOscCtrlSendsItsTwoFrames : Obligations.InitOscCtrlSendsItsTwoFrames := by
  intro s a b c d got1 got2 busy' rx' hidle hcs ha hb hc hd hbusy hrx hgot1 hgot2
  obtain ⟨hosc, hnext⟩ := run_sendTransaction (i := .initOscCtrl) (s := s.latch .initOscCtrl) rfl
    (uprog_initOscCtrl_send s.cfg) rfl ha hb hbusy hrx hgot1
  obtain ⟨hcal, _⟩ := run_sendTransaction (i := .initOscCtrl)
    (s := (s.latch .initOscCtrl).transacted 5 (transactionEvents s.cfg a b (oscCtrlFrame s.cfg) got1) _ _)
    (bs := calibrateFrame s.cfg) (rest := []) rfl (hnext.trans (List.append_nil _).symm) rfl hc hd rfl rfl hgot2
  obtain ⟨t, hrun, htr, hseq, ⟨hmode, htx, hrx', hrest⟩, ⟨_, htcs, hrst, hreq, htbusy, hbytes⟩⟩ :=
    run_acceptedToResponse (i := .initOscCtrl) hidle hcs (lengthFits_of_none rfl)
      ((execFor_add hosc).trans hcal) rfl rfl
  refine ⟨t, ?_, ?_, htcs, ⟨hseq, hrest.trans hidle.2⟩, hmode, hrst, htx, hrx', hreq, htbusy, hbytes⟩
  · rw [← hrun]
    congr 1
    simp only [oscCtrlFrame, oscCtrlPayload, bytes24, calibrateFrame, List.length_cons, List.length_nil]
    omega
  · rw [htr]
    simp [State.transacted, transactionEvents, oscCtrlFrame, oscCtrlPayload, bytes24, calibrateFrame, responseOf]

end Sys2Proof.Machine
end

section
/-! PROOFS. The arbiter: whom it grants, and how long the grant stands (60_exceptions R200). -/

namespace Sys2Proof.Machine

/-! ### Whom the arbiter grants -/

/-- Who waits has a next request in its queue. -/
theorem queue_of_waiting {s : State} {q : Nat} (h : q ∈ s.waiting) : ∃ r rest, s.requests.getD q [] = r :: rest := by
  have hne : s.requests.getD q [] ≠ [] := by simpa [State.waiting] using (List.mem_filter.mp h).2
  exact List.exists_cons_of_ne_nil hne

/-- A choice scripted below the number of those waiting is the position of the one granted. -/
theorem choose_scripted {e : Environment} {k : Nat} {w rest : List Nat} (hscript : e.grants = k :: rest)
    (hk : k < w.length) : ∃ env, e.choose w = some (w[k], env) := by
  match w with
  | [] => cases hk
  | [q] =>
    obtain rfl : k = 0 := by simpa using hk
    exact ⟨e, rfl⟩
  | q :: q' :: others =>
    refine ⟨e.nextChoice.2, ?_⟩
    have hmod : k % ((q' :: others).length + 1) = k := Nat.mod_eq_of_lt hk
    have hchoice : e.nextChoice.1 = k := by simp [Environment.nextChoice, hscript]
    simp only [Environment.choose, hchoice, hmod, List.getD_eq_getElem _ _ hk]

/-- The requester the arbiter chooses is granted the head of its queue. -/
theorem grantNext_of_choose {s : State} {q : Nat} {env : Environment} {r : Request} {rest : List Request}
    (hchoose : s.env.choose s.waiting = some (q, env)) (hqueue : s.requests.getD q [] = r :: rest) :
    s.grantNext = some (r, { s with requests := s.requests.set q rest, grant := some q, env := env }) := by
  simp only [State.grantNext, hchoose, hqueue]

/-! ### How long the grant stands -/

/-- The operation in flight and the grant either both stand or have both ended. -/
def GrantFollowsOperation (s t : State) : Prop :=
  (t.seq.opl = s.seq.opl ∧ t.grant = s.grant) ∨ (t.seq.opl = none ∧ t.grant = none)

/-- The mirror ends nothing. -/
theorem mirror_keeps_grant (s : State) (mode : OperatingMode) :
    (s.mirror mode).seq.opl = s.seq.opl ∧ (s.mirror mode).grant = s.grant := by
  have hdrive : ∀ d l, (s.driveDbg d l).seq.opl = s.seq.opl ∧ (s.driveDbg d l).grant = s.grant := fun d l => by
    cases d <;> exact ⟨rfl, rfl⟩
  rcases mirror_cases s mode with ⟨_, e⟩ | ⟨_, _, e⟩ | ⟨_, d, _, e⟩ <;> rw [e]
  · exact ⟨rfl, rfl⟩
  · exact hdrive _ _
  · exact hdrive d _

/-- No entry ends the grant but a wait that gives up, and that ends the operation with it. -/
theorem microStep_grantFollowsOperation {m : MicroOp} {s t : State} (h : microStep m s = .next t) :
    GrantFollowsOperation s t := by
  cases m with
  | wait =>
    cases h
    rcases poll_cases s with ⟨_, e⟩ | ⟨_, _, e⟩ | ⟨_, _, e⟩ <;> rw [e]
    · exact .inl ⟨rfl, rfl⟩
    · exact .inr ⟨rfl, rfl⟩
    · exact .inl ⟨rfl, rfl⟩
  | dbgW mode => cases h; exact .inl (mirror_keeps_grant s mode)
  | tx | txs | rx =>
    simp only [microStep] at h
    obtain ⟨_, rfl⟩ := transfer_next h
    exact .inl ⟨rfl, rfl⟩
  | settle | cs | rst | dlyMs | modeW => cases h; exact .inl ⟨rfl, rfl⟩

theorem finish_ends_grant (r : Reply) (s : State) : (finish r s).seq.opl = none ∧ (finish r s).grant = none := by
  cases r <;> exact ⟨rfl, rfl⟩

/-- With an operation in flight a meaning runs an entry or responds. -/
theorem exec_inFlight_grantFollowsOperation {i op : Instr} {s t : State} (ho : s.seq.opl = some op)
    (h : exec i s = .next t) : GrantFollowsOperation s t := by
  rcases exec_next_cases h with ⟨hn, _⟩ | ⟨hn, _⟩ | ⟨m, _, hm⟩ | ⟨_, _, rfl⟩
  · rw [ho] at hn; cases hn
  · rw [ho] at hn; cases hn
  · exact microStep_grantFollowsOperation hm
  · exact .inr (finish_ends_grant _ s)

/-- Settles O11: what a grant changes, the choice scripted at the requester's position among those waiting, and what a
step in flight does to the grant. -/
theorem arbiterGrantsAnyWaitingRequester : Obligations.ArbiterGrantsAnyWaitingRequester := by
  refine ⟨fun s t r h => ?_, fun s q hq => ?_, fun s t op ho h => ?_⟩
  · obtain ⟨q, hq, rest, env, hqueue, rfl, _⟩ := grantNext_some h
    exact ⟨q, hq, rfl, rest, hqueue, rfl⟩
  · obtain ⟨r, rest, hqueue⟩ := queue_of_waiting hq
    obtain ⟨k, hk, rfl⟩ := List.getElem_of_mem hq
    obtain ⟨env, hchoose⟩ := choose_scripted (e := { s.env with grants := k :: s.env.grants }) rfl hk
    exact ⟨k, r, _, grantNext_of_choose hchoose hqueue, rfl⟩
  · rw [step_inFlight ho] at h
    simpa only [GrantFollowsOperation, ho] using exec_inFlight_grantFollowsOperation ho h

end Sys2Proof.Machine
end

section
/-! PROOFS. The two faults of the hardened variant, and their absence from the base contract (60_exceptions R185, R187,
R188, R194). -/

namespace Sys2Proof.Machine

/-- Settles O29: the wait that takes all its samples busy, and the word of its fault. -/
theorem boundedWaitTakesTheFault : Obligations.BoundedWaitTakesTheFault := by
  intro i s m rest hat hp hmax hm hbusy
  obtain ⟨t, hrun, htr, hseq, hmode, hcs, hrst, htx, hrx, _, _, _, htbusy, _⟩ := run_failedWait hat hp hmax hm hbusy
  exact ⟨t, hrun, htr, hseq, hmode, hcs, hrst, htx, hrx, htbusy, word_deviceNotResponding m⟩

/-! ### The length fault -/

/-- With the length check an idle controller latches a request above its capacity and faults in the same step. -/
theorem exec_lengthFault {i : Instr} {s : State} {len capacity : Nat} (ho : s.seq.opl = none)
    (hstart : mayStartWith i s.csN) (hlen : lengthAndCapacity i = some (len, capacity)) (habove : capacity < len)
    (hmax : len ≤ s.cfg.lenMax) (hcheck : s.cfg.checkLength = true) :
    exec i s = .next ((s.latch i.core).raise (.invalidArgument len capacity)) := by
  rw [exec_idle i s ho]
  rcases accept_cases i s with ⟨hno, _⟩ | ⟨_, hfits, _⟩ | ⟨_, len', capacity', hl, hgt, _⟩ |
    ⟨_, len', capacity', hl, _, _, _, e⟩ | ⟨_, _, _, _, _, _, hoff, _⟩
  · exact absurd hstart hno
  · exact absurd (hfits len capacity hlen).2 (Nat.not_le.mpr habove)
  · cases hlen.symm.trans hl
    exact absurd hmax (Nat.not_le.mpr hgt)
  · cases hlen.symm.trans hl
    exact e
  · simp [hcheck] at hoff

/-- Settles O30: the latch and the fault response leave everything but the sequencer, the trace and the staging. -/
theorem checkedLengthFaultsAtAcceptance : Obligations.CheckedLengthFaultsAtAcceptance := by
  intro i s len capacity ho hstart hlen habove hmax hcheck
  refine ⟨_, exec_lengthFault ho hstart hlen habove hmax hcheck, ?_⟩
  obtain ⟨htr, hseq, ⟨hmode, htx, hrx, _⟩, hcs, hrst, _, _⟩ :=
    latch_raise_responded s i.core (.invalidArgument len capacity)
  refine ⟨?_, hseq, hmode, hcs, hrst, htx, hrx, rfl, rfl, word_invalidArgument len capacity⟩
  rw [htr]
  simp

/-! ### The base contract -/

/-- From one state to the other no fault was responded. -/
def RespondsNoFault (s t : State) : Prop := ∃ es, t.trace = s.trace ++ es ∧ ∀ f, Event.resp (.fault f) ∉ es

theorem DeviceUntouched.respondsNoFault {s t : State} (h : DeviceUntouched s t) : RespondsNoFault s t := by
  obtain ⟨es, htr, hes⟩ := h.events
  exact ⟨es, htr, fun f hf => by cases hes _ hf⟩

/-- With no bound a poll appends its sample, and its delay where it goes on (42_ready_handshake R121). -/
theorem poll_respondsNoFault {s : State} (hmax : s.cfg.maxPollIter = none) : RespondsNoFault s s.poll := by
  rcases poll_cases s with ⟨_, e⟩ | ⟨_, ⟨m, hm, _⟩, _⟩ | ⟨_, _, e⟩
  · exact ⟨[.busySample .low], by rw [e], by simp⟩
  · rw [hmax] at hm; cases hm
  · exact ⟨[.busySample .high, .delayUs s.cfg.pollIntervalUs], by simp [e, State.counted], by simp⟩

/-- The one entry that can respond with a fault is a bounded wait. -/
theorem microStep_respondsNoFault {m : MicroOp} {s t : State} (hmax : s.cfg.maxPollIter = none)
    (h : microStep m s = .next t) : RespondsNoFault s t := by
  cases m with
  | wait => cases h; exact poll_respondsNoFault hmax
  | tx | txs | rx =>
    simp only [microStep] at h
    obtain ⟨_, rfl⟩ := transfer_next h
    exact ⟨[.xfer _ _], rfl, by simp⟩
  | settle | cs | rst | dlyMs | modeW | dbgW =>
    refine (microStep_deviceUntouched ?_ ?_ h).respondsNoFault
    · nofun
    · rfl

/-- The base contract bounds no wait and checks no length (60_exceptions R185). -/
theorem base_iff (cfg : Config) : cfg.base = true ↔ cfg.maxPollIter = none ∧ cfg.checkLength = false := by
  simp [Config.base]

/-- Acceptance, an entry, the `Done` response: with neither check a meaning responds with no fault. -/
theorem exec_respondsNoFault {i : Instr} {s t : State} (hbase : s.cfg.base = true) (h : exec i s = .next t) :
    RespondsNoFault s t := by
  obtain ⟨hmax, hoff⟩ := (base_iff s.cfg).mp hbase
  rcases exec_next_cases h with ⟨_, _, _, rfl⟩ | ⟨_, _, hcheck, _⟩ | ⟨m, _, hm⟩ | ⟨_, _, rfl⟩
  · exact ⟨[.req i.core], rfl, by simp⟩
  · rw [hoff] at hcheck; cases hcheck
  · exact microStep_respondsNoFault hmax hm
  · exact (finish_deviceUntouched _ s).respondsNoFault

/-- The grant of a request touches neither the configuration nor the trace. -/
theorem grantNext_cfg_trace {s g : State} {r : Request} (h : s.grantNext = some (r, g)) :
    g.cfg = s.cfg ∧ g.trace = s.trace := by
  obtain ⟨q, _, rest, env, _, rfl, _⟩ := grantNext_some h
  exact ⟨rfl, rfl⟩

/-- A step runs a meaning, in flight or behind a grant, or idles. -/
theorem step_respondsNoFault {s t : State} (hbase : s.cfg.base = true) (h : step s = .next t) :
    RespondsNoFault s t := by
  rcases step_next_cases h with ⟨op, _, he⟩ | ⟨_, _, rfl⟩ | ⟨_, r, g, i, hg, _, he⟩
  · exact exec_respondsNoFault hbase he
  · exact ⟨[], by simp, by simp⟩
  · obtain ⟨hcfg, htrace⟩ := grantNext_cfg_trace hg
    obtain ⟨es, htr, hno⟩ := exec_respondsNoFault (by rwa [hcfg]) he
    exact ⟨es, by rw [htr, htrace], hno⟩

/-- Settles O31: what a step appends is what its trace gained. -/
theorem baseContractRespondsOnlyDone : Obligations.BaseContractRespondsOnlyDone := by
  intro s t es hbase h htr
  obtain ⟨es', htr', hno⟩ := step_respondsNoFault hbase h
  rwa [List.append_cancel_left (htr.symm.trans htr')]

end Sys2Proof.Machine
end

section
/-! PROOFS. Where a meaning has no step: the machine's own faults (10_state R26, 41_bus_line_control R113(c),
70_reset_and_hazards R225) and the refusals at acceptance (43_transaction_primitives R139, 70_reset_and_hazards R215). -/

namespace Sys2Proof.Machine

/-- A transfer entry with chip-select high has no step (70_reset_and_hazards R225). -/
theorem microStep_xfer_high {m : MicroOp} {s : State} (hx : m.isXfer = true) (hc : s.csN = .high) :
    microStep m s = .fault .transferWhileDeselected := by
  cases m with
  | tx | txs | rx => simp [microStep, transfer, hc]
  | wait | settle | cs | rst | dlyMs | modeW | dbgW => cases hx

/-- Settles O16: the entry at `UPC` is a transfer, or `UPC` is past every entry; `exec_fault_cases` has no third place. -/
theorem meaningsFaultExactlyOutsideTheirFrame : Obligations.MeaningsFaultExactlyOutsideTheirFrame := by
  intro i s
  refine ⟨fun m hat hx hc => ?_, exec_pastEnd, fun f => exec_fault_cases⟩
  rw [exec_isAt hat, microStep_xfer_high hx hc]

/-! ### The refusals at acceptance -/

/-- With chip-select in the wrong state an idle controller refuses by name, whatever the length. -/
theorem exec_wrongChipSelect {i : Instr} {s : State} (ho : s.seq.opl = none) (hstart : ¬ mayStartWith i s.csN) :
    exec i s = .refused (if i = .deselect then .chipSelectClosed else .chipSelectOpen) := by
  rw [exec_idle i s ho]
  rcases operation_refusal s.cfg i s.csN with ⟨_, hm⟩ | ⟨hr, _⟩
  · exact absurd hm hstart
  · simp [accept, hr]

/-- With chip-select right, acceptance is the length precondition alone (log 9). -/
theorem exec_rightChipSelect {i : Instr} {s : State} (ho : s.seq.opl = none) (hstart : mayStartWith i s.csN) :
    exec i s = admitLength (operation s.cfg i) s := by
  rw [exec_idle i s ho]
  rcases operation_refusal s.cfg i s.csN with ⟨hr, _⟩ | ⟨_, hm⟩
  · simp [accept, hr]
  · exact absurd hstart hm

/-- A length that is no byte count is refused before it is held against the capacity (30_encoding R80). -/
theorem admitLength_aboveLenMax {o : Operation} {s : State} {len capacity : Nat}
    (hlen : o.length = some (len, capacity)) (hmax : s.cfg.lenMax < len) :
    admitLength o s = .refused (.lengthAboveLenMax len) := by
  simp [admitLength, hlen, hmax]

/-- An unchecked length above its capacity is refused (43_transaction_primitives R139). -/
theorem admitLength_aboveCapacity {o : Operation} {s : State} {len capacity : Nat}
    (hlen : o.length = some (len, capacity)) (hmax : len ≤ s.cfg.lenMax) (habove : capacity < len)
    (hoff : s.cfg.checkLength = false) : admitLength o s = .refused (.lengthAboveCapacity len capacity) := by
  simp [admitLength, hlen, Nat.not_lt.mpr hmax, Nat.not_le.mpr habove, hoff]

/-- An idle controller that refuses has met one of the breaches. -/
theorem exec_idle_refused {i : Instr} {s : State} {r : Refusal} (ho : s.seq.opl = none)
    (h : exec i s = .refused r) : ¬ mayStartWith i s.csN ∨ ∃ len capacity,
      lengthAndCapacity i = some (len, capacity) ∧
        (s.cfg.lenMax < len ∨ (capacity < len ∧ s.cfg.checkLength = false)) := by
  rw [exec_idle i s ho] at h
  rcases accept_cases i s with ⟨hno, _⟩ | ⟨_, _, e⟩ | ⟨_, len, capacity, hl, hmax, _⟩ |
    ⟨_, _, _, _, _, _, _, e⟩ | ⟨_, len, capacity, hl, _, habove, hoff, _⟩
  · exact .inl hno
  · rw [e] at h; cases h
  · exact .inr ⟨len, capacity, hl, .inl hmax⟩
  · rw [e] at h; cases h
  · exact .inr ⟨len, capacity, hl, .inr ⟨habove, hoff⟩⟩

/-- Settles O17: chip-select first, then the length, and no refusal besides. -/
theorem acceptanceRefusesExactlyTheBreaches : Obligations.AcceptanceRefusesExactlyTheBreaches := by
  intro i s ho
  refine ⟨exec_wrongChipSelect ho, fun len capacity hstart hlen => ?_, fun r => exec_idle_refused ho⟩
  rw [← operation_length s.cfg i] at hlen
  rw [exec_rightChipSelect ho hstart]
  exact ⟨admitLength_aboveLenMax hlen, admitLength_aboveCapacity hlen⟩

end Sys2Proof.Machine
end

section
/-! PROOFS. The decoder on the words written out in 95_test_vectors. -/

namespace Sys2Proof

/-- Settles O49: each of the eight words is the word of its operation's own request, so `decode_encode` reads the
operation back in its own spelling (30_encoding R93); the other three meet the decoder's check of `ARG`, of `LEN` and of
`OP` (R90). -/
theorem wordsOfTheVectorsDecode : Obligations.WordsOfTheVectorsDecode := by
  refine ⟨decode_encode (i := .select) rfl, decode_encode (i := .waitReady) rfl,
    decode_encode (i := .issueCmd 0x8C [0x11, 0x22, 0x33] 3) rfl, decode_encode (i := .readCmd 0x17 2 2) rfl,
    decode_encode (i := .writeRegs 0x0740 [0x34, 0x44] 2) rfl, decode_encode (i := .writeReg 0xFFFF 0xFF) rfl,
    decode_encode (i := .setMode .rxDutyCycle) rfl, decode_encode (i := .initOscCtrl) rfl,
    ?argNotZero, ?lenNotZero, ?reservedOp⟩
  case argNotZero => rfl
  case lenNotZero => rfl
  case reservedOp => rfl

end Sys2Proof
end
